-- ==== Sys2Proof/Word.lean ====
section
/-! DEFINITION. The words and bytes of the SCSC (00_scope.md R4, R5): a register is 32 bits, a byte string is a list of
bytes in stream order. -/

namespace Sys2Proof

/-- A 32-bit register or bus word (R4). -/
abbrev Word := BitVec 32

/-- A byte (R5). -/
abbrev Byte := BitVec 8

/-- `rep(n, v)`: the string of `n` bytes each equal to `v` (R5). -/
abbrev rep (n : Nat) (v : Byte) : List Byte := List.replicate n v

/-- `zeros(n) = rep(n, 0x00)` (R5). -/
abbrev zeros (n : Nat) : List Byte := rep n 0

end Sys2Proof
end

