-- ==== Sys2Proof/Syntax.lean ====
section
/-! DEFINITION. The commands of the SCSC (30_encoding.md R53 to R55): one constructor per row of the opcode table. -/

namespace Sys2Proof

/-- The block mode: `MODE` bit 0 is ECB, 1 is CBC (43_registry.md R94). -/
inductive Mode where
  | ecb
  | cbc
deriving DecidableEq, Repr

/-- The direction: `DIR` bit 0 is Encrypt, 1 is Decrypt (30_encoding.md R53). -/
inductive Dir where
  | encrypt
  | decrypt
deriving DecidableEq, Repr

/-- A command of the opcode map (R55), with the operands its word carries (R54). `cipher` is the raw tag `w[6:4]` and
`len` is `zext_32(w[31:16])`; `Instr.wf` bounds both. -/
inductive Instr where
  | nop
  | init (cipher : Nat) (mode : Mode) (dir : Dir) (ivsrc : Bool)
  | update (len : Nat) (final : Bool)
  | close
deriving DecidableEq, Repr

end Sys2Proof
end

