-- ==== Sys2Proof/WellFormed.lean ====
section
/-! DEFINITION. When a command's operands fit the fields of its word (30_encoding.md R53, R54). -/

namespace Sys2Proof

/-- `CIPHER` has 3 bits and `LEN` has 16 (R54). A tag of 5 to 7 and a `LEN` above 1024 are well-formed commands that
fail when they run (R58). -/
def Instr.wf : Instr → Bool
  | .nop => true
  | .init cipher _ _ _ => decide (cipher < 8)
  | .update len _ => decide (len < 65536)
  | .close => true

end Sys2Proof
end

