-- ==== Sys2Proof/Decode.lean ====
section
/-! DEFINITION. Command decode (30_encoding.md R53 to R58), total on every 32-bit word, and the encoder written from the
same tables. -/

namespace Sys2Proof

/-- Why a word is an illegal command (R57). -/
inductive Illegal where
  /-- `OP` is `0x4` to `0xF`. -/
  | reservedOpcode (op : Nat)
  /-- `OP` is `0x0` to `0x3` and a reserved bit is set. -/
  | reservedBits (op : Nat)
deriving DecidableEq, Repr

/-- A row of the opcode map: a word `w` decodes to it exactly when `(w AND mask) = match` (R55). -/
structure Row where
  mnemonic : String
  pattern : Word
  mask : Word
deriving DecidableEq, Repr

def Row.matches (r : Row) (w : Word) : Bool := (w &&& r.mask) == r.pattern

def rowNop : Row := ⟨"NOP", 0x00000000, 0xFFFFFFFF⟩
def rowInit : Row := ⟨"INIT", 0x00000001, 0xFFFFFC0F⟩
def rowUpdate : Row := ⟨"UPDATE", 0x00000002, 0x0000FFEF⟩
def rowClose : Row := ⟨"CLOSE", 0x00000003, 0xFFFFFFFF⟩

/-- The opcode map (R55). -/
def opcodeMap : List Row := [rowNop, rowInit, rowUpdate, rowClose]

/-- The row a command belongs to (R55). -/
def rowOf : Instr → Row
  | .nop => rowNop
  | .init _ _ _ _ => rowInit
  | .update _ _ => rowUpdate
  | .close => rowClose

/-- The operand fields of a command word (R54). -/
def opField (w : Word) : Nat := (w.extractLsb' 0 4).toNat
def cipherField (w : Word) : Nat := (w.extractLsb' 4 3).toNat
def modeField (w : Word) : Mode := if w.getLsbD 7 then .cbc else .ecb
def dirField (w : Word) : Dir := if w.getLsbD 8 then .decrypt else .encrypt
def ivsrcField (w : Word) : Bool := w.getLsbD 9
def finalField (w : Word) : Bool := w.getLsbD 4
def lenField (w : Word) : Nat := (w.extractLsb' 16 16).toNat

/-- The name of an illegal word's defect (R57). -/
def illegalReason (w : Word) : Illegal :=
  if opField w < 4 then .reservedBits (opField w) else .reservedOpcode (opField w)

/-- `decode(w)` of R56. -/
def decodeWord (w : Word) : Except Illegal Instr :=
  if rowNop.matches w then .ok .nop
  else if rowInit.matches w then .ok (.init (cipherField w) (modeField w) (dirField w) (ivsrcField w))
  else if rowUpdate.matches w then .ok (.update (lenField w) (finalField w))
  else if rowClose.matches w then .ok .close
  else .error (illegalReason w)

/-- The bit of a field value (R53). -/
def Mode.bit : Mode → Bool
  | .ecb => false
  | .cbc => true

def Dir.bit : Dir → Bool
  | .encrypt => false
  | .decrypt => true

/-- A flag placed at bit `n` of a word (R4). -/
def bitAt (b : Bool) (n : Nat) : Word := if b then BitVec.twoPow 32 n else 0

/-- A value placed in a word with its bit 0 at bit `n` (R4); bits past the top are lost. -/
def fieldAt (v : Nat) (n : Nat) : Word := BitVec.ofNat 32 v <<< n

/-- The word of a command, from the formats N, I and U (R53) and the assembly of R59. -/
def encode : Instr → Word
  | .nop => 0x0
  | .init cipher mode dir ivsrc => 0x1 ||| fieldAt cipher 4 ||| bitAt mode.bit 7 ||| bitAt dir.bit 8 ||| bitAt ivsrc 9
  | .update len final => 0x2 ||| bitAt final 4 ||| fieldAt len 16
  | .close => 0x3

/-- What the decoder reads from a word of `nbits` bits, the bits above being 0 (log 15). A command is one 32-bit word,
so a longer or a larger number is no command. -/
def decodeTableWord (nbits w : Nat) : Option Instr :=
  if nbits ≤ 32 then (decodeWord (BitVec.ofNat 32 (w % 2 ^ nbits))).toOption else none

end Sys2Proof
end

