-- ==== Sys2Proof/Config.lean ====
section
/-! DEFINITION. The implementation parameters (00_scope.md R3). `BASE` and `PRIM` are OPEN: opaque constants with no
body, so that a statement about them holds whatever they are. -/

namespace Sys2Proof

/-- The supported cipher tags (43_registry.md R93). -/
inductive Tag where
  | legacy8
  | triple8
  | modern128
  | modern192
  | modern256
deriving DecidableEq, Repr

/-- The primitive parameter `PRIM` (44_primitive_adapter.md R100), at the width of its port (R106): an `ok` answer is the
128-bit `p_out` in byte order, of which the adapter takes the first `BS(c)` bytes (log 4). -/
structure Prim where
  /-- `enc(c, k, x)`; `none` is `fail`. -/
  enc : Tag → List Byte → List Byte → Option (Vector Byte 16)
  /-- `dec(c, k, x)`; `none` is `fail`. -/
  dec : Tag → List Byte → List Byte → Option (Vector Byte 16)
  /-- `keyOk(c, d, k)`; consulted for tags 1 to 4 only, since tag 0 accepts every key (R100 property 3). -/
  keyOk : Tag → Dir → List Byte → Bool
deriving Inhabited

namespace Config

/-- `PRIM`: OPEN (R3; 92_eei_decisions.md D37; log 4). -/
opaque PRIM : Prim

/-- Which 4096-byte page the window stands on: OPEN (R3; 92_eei_decisions.md D3; log 5). -/
opaque basePage : Nat

/-- `BASE`, the bus address of register offset 0, 4096-byte aligned (R3, R35). -/
def BASE : Nat := 4096 * basePage

/-- The size of the register window (R35). -/
def WINDOW : Nat := 4096

/-- `CHUNK_MAX`: the size of `DIN` and the largest `UPDATE` length (R3). -/
def CHUNK_MAX : Nat := 1024

/-- `BS_MAX`: the width of `PBUF`, `CV` and `IVSTAGE` (R3). -/
def BS_MAX : Nat := 16

/-- `KS_MAX`: the width of `KEYSTAGE` and of the session key (R3). -/
def KS_MAX : Nat := 32

/-- `DOUT_SIZE = CHUNK_MAX + 2*BS_MAX` (R3). -/
def DOUT_SIZE : Nat := 1056

/-- `ID_VALUE` (R3, R23). -/
def ID_VALUE : Word := 0x53430100

end Config
end Sys2Proof
end

