-- ==== Sys2Proof/Machine/State.lean ====
section
/-! DEFINITION. The SCSC's state (10_state.md R10 to R34), with the micro-state of its sequencer (42_padding.md R91), and
the state after reset (70_reset_and_hazards.md R122). -/

namespace Sys2Proof.Machine

/-- Why a step stops. The SCSC has no trap and no fault of its own: a command error is an outcome of the command
(60_exceptions.md R115) and a bus error a reply (R112). -/
inductive Fault where
  /-- Raised by the step of `Event.primitiveSilent` while a primitive request is outstanding: the primitive never
  answers, `BUSY` stays 1 and `WAIT` never ends (93_implementation_defined.md row 6, `stuck`; log 2). Safe: the model
  stops where the window would still answer reads. -/
  | primitiveSilent
deriving DecidableEq, Repr

/-- Why an instruction has no meaning. -/
inductive Refusal where
  /-- An instruction of the opcode table with no meaning yet: no arm of `exec` answers so. Safe. -/
  | notModelled (mnemonic : String)
deriving DecidableEq, Repr

/-- The error of a command: the nonzero values of `ERR.CODE` that are ever produced (60_exceptions.md R110; log 8). -/
inductive CmdError where
  | unsupportedAlgorithm
  | invalidKeyMaterial
  | misalignedCiphertext
  | invalidPadding
  | primitiveFailure
  | usageError
  | illegalCommand
  | chunkTooLong
deriving DecidableEq, Repr

/-- The session's CipherSpec and direction, the contents of `CFG` (10_state.md R18); `BS` and `KS` are functions of the
tag (43_registry.md R93). -/
structure CipherSpec where
  cipher : Tag
  mode : Mode
  dir : Dir
  ivsrc : Bool
deriving DecidableEq, Repr

/-- `PHASE` together with `CFG` (10_state.md R18, R29; log 7): `CFG` is 0 exactly in `IDLE`, and `PHASE = 3` is never
held. -/
inductive Session where
  | idle
  | active (cfg : CipherSpec)
  | finished (cfg : CipherSpec)
deriving DecidableEq, Repr

/-- The sequencer's states (42_padding.md R91). -/
inductive SeqState where
  | idle
  | decode
  | check
  | block (j : Nat)
  | tail
  | pad
  | unpad
  | commit
  | abort (e : CmdError)
  | done (code : Option CmdError)
deriving DecidableEq, Repr

/-- What an `UPDATE` stages before its commit (41_update.md R67, R79). -/
structure Staged where
  out : List Byte
  cv : List Byte
  carry : List Byte
  cnt : Nat
  pad : Nat
deriving DecidableEq, Repr

/-- Nothing staged. -/
def Staged.empty : Staged := ⟨[], [], [], 0, 0⟩

/-- The size of a bus access (20_memory.md R37). -/
inductive Size where
  | byte
  | half
  | word
deriving DecidableEq, Repr

/-- What a bus access does. -/
inductive AccessKind where
  | read
  | write (data : Word)
deriving DecidableEq, Repr

/-- A host access at an absolute bus address, with its byte lanes (20_memory.md R35, R37). -/
structure Access where
  addr : Nat
  size : Size
  lanes : BitVec 4
  kind : AccessKind
deriving DecidableEq, Repr

/-- What happens next and which agent moves (00_scope.md R9; log 1). -/
inductive Event where
  /-- A host access (R9, R48). -/
  | host (a : Access)
  /-- One micro-step of the sequencer (R91). -/
  | sequencer
  /-- The sequencer's completion step, the command run whole (R108; log 12). -/
  | complete
  /-- The reset input is asserted (`true`) or released (R121; log 3). -/
  | reset (asserted : Bool)
  /-- The primitive never answers the request it has been given (93 row 6; log 2). -/
  | primitiveSilent
deriving DecidableEq, Repr

/-- The bus's answer to an access: an error or normal response, with read data (0 for a write) (20_memory.md R38, R41,
R42). -/
structure Reply where
  isError : Bool
  data : Word
deriving DecidableEq, Repr

/-- The bytes of the window's five arrays, as a list of (offset, byte) with offsets strictly rising and no byte equal to
`0x00`, which is what an offset not listed reads as (R122; log 9). -/
abbrev Memory := List Host.Cell

/-- The machine's state. -/
@[ext]
structure State where
  /-- `CMD`: the last accepted command word (R13). -/
  cmd : Word
  /-- `STATUS.BUSY` (R15). -/
  busy : Bool
  /-- `STATUS.DONE` (R14). -/
  done : Bool
  /-- `STATUS.OVR` (R14). -/
  ovr : Bool
  /-- `ERR.CODE`, none being code 0; `STATUS.ERRF` is its being nonzero (R16, R14). -/
  err : Option CmdError
  /-- `IE.DONE_IE` (R17). -/
  doneIe : Bool
  /-- `IE.OVR_IE` (R17). -/
  ovrIe : Bool
  /-- `PHASE` and `CFG` (R18, R29). -/
  session : Session
  /-- `KEYLEN` (R19). -/
  keylen : Word
  /-- `OUTLEN` (R20). -/
  outlen : Word
  /-- `BLKCNT` (R21). -/
  blkcnt : Word
  /-- `PADVAL[7:0]`, the other bits reading 0 (R22). -/
  padval : Byte
  /-- `KEYSTAGE`, `IVSTAGE`, `CV`, `DIN` and `DOUT` at their offsets (R24 to R28). -/
  mem : Memory
  /-- `SKEY`: hidden (R30). -/
  skey : Vector Byte 32
  /-- `PBUF`: hidden (R31). -/
  pbuf : Vector Byte 16
  /-- `PBLEN` (R32). -/
  pblen : BitVec 4
  /-- The sequencer's micro-state (R12, R91). -/
  seq : SeqState
  /-- The sequencer's staged results (R91). -/
  staged : Staged
  /-- The model's own: the reset input is asserted (R121; log 3). -/
  rst : Bool
  /-- The model's own: the bus's answer to the last access (R38, R41; log 6). -/
  reply : Option Reply
  /-- The model's own: what happens next (R9; log 1). -/
  agenda : List Event
deriving DecidableEq, Repr

/-- The state after reset (R122), with the reset input released and nothing on the agenda. -/
def State.reset : State where
  cmd := 0
  busy := false
  done := false
  ovr := false
  err := none
  doneIe := false
  ovrIe := false
  session := .idle
  keylen := 0
  outlen := 0
  blkcnt := 0
  padval := 0
  mem := []
  skey := Vector.replicate 32 0
  pbuf := Vector.replicate 16 0
  pblen := 0
  seq := .idle
  staged := Staged.empty
  rst := false
  reply := none
  agenda := []

end Sys2Proof.Machine
end

