-- ==== Sys2Proof/Machine/Registry.lean ====
section
/-! DEFINITION. The cipher-tag table and the mode selector's sizes (43_registry.md R93 to R95). -/

namespace Sys2Proof.Machine

/-- The tag a `CIPHER` value names; values 5, 6 and 7 are unsupported (R93). -/
def tagOf : Nat → Option Tag
  | 0 => some .legacy8
  | 1 => some .triple8
  | 2 => some .modern128
  | 3 => some .modern192
  | 4 => some .modern256
  | _ => none

/-- `supported(c)` (R93). -/
def supported (cipher : Nat) : Bool := (tagOf cipher).isSome

/-- The `CIPHER` value of a tag (R93). -/
def tagNum : Tag → Nat
  | .legacy8 => 0
  | .triple8 => 1
  | .modern128 => 2
  | .modern192 => 3
  | .modern256 => 4

/-- `BS(c)`: the block size in bytes (R93). -/
def blockSize : Tag → Nat
  | .legacy8 | .triple8 => 8
  | .modern128 | .modern192 | .modern256 => 16

/-- `KS(c)`: the key size in bytes (R93). -/
def keySize : Tag → Nat
  | .legacy8 => 8
  | .triple8 => 24
  | .modern128 => 16
  | .modern192 => 24
  | .modern256 => 32

/-- `CFG.BS` of a session (R18). -/
def CipherSpec.bs (c : CipherSpec) : Nat := blockSize c.cipher

/-- `CFG.KS` of a session (R18). -/
def CipherSpec.ks (c : CipherSpec) : Nat := keySize c.cipher

end Sys2Proof.Machine
end

