-- ==== Sys2Proof/Machine/Ops.lean ====
section
/-! DEFINITION. The named operations over the window's memory and the registers: the byte arrays (10_state.md R24 to R28,
20_memory.md R39), the address map (R36), acceptance (60_exceptions.md R107), and completion, which is how every command
ends, whether it succeeds or raises an error (R108, R109, R115). -/

namespace Sys2Proof.Machine

/-! ### The memory -/

/-- The canonical form: offsets strictly rising, and no listed byte equal to what an unlisted offset reads as. -/
def Memory.wf (m : Memory) : Bool :=
  decide (m.Pairwise (fun c d => c.1 < d.1)) && m.all (fun c => c.2 != 0)

/-- The byte at an offset; an unlisted offset reads `0x00` (70_reset_and_hazards.md R122). -/
def Memory.read (m : Memory) (a : Nat) : Byte :=
  match m with
  | [] => 0
  | c :: rest => if c.1 = a then c.2 else Memory.read rest a

/-- Zero the `n` bytes from offset `lo`. -/
def Memory.clear (m : Memory) (lo n : Nat) : Memory :=
  m.filter (fun c => decide (c.1 < lo ∨ lo + n ≤ c.1))

/-- List one cell at its place in the order. -/
def Memory.insert (m : Memory) (a : Nat) (v : Byte) : Memory :=
  match m with
  | [] => [(a, v)]
  | c :: rest => if a < c.1 then (a, v) :: c :: rest else c :: Memory.insert rest a v

/-- Store one byte, keeping the canonical form. -/
def Memory.write (m : Memory) (a : Nat) (v : Byte) : Memory :=
  if v = 0 then Memory.clear m a 1 else Memory.insert (Memory.clear m a 1) a v

/-- The `n` bytes from offset `a`, in ascending order. -/
def Memory.readBytes (m : Memory) (a n : Nat) : List Byte :=
  (List.range n).map (fun i => Memory.read m (a + i))

/-- Store the bytes of a string from offset `a` up. -/
def Memory.writeBytes (m : Memory) (a : Nat) (l : List Byte) : Memory :=
  match l with
  | [] => m
  | b :: rest => Memory.writeBytes (Memory.write m a b) (a + 1) rest

/-! ### The arrays and the address map -/

/-- The byte arrays mapped in the window (R36). -/
inductive Arr where
  | keystage
  | ivstage
  | cv
  | din
  | dout
deriving DecidableEq, Repr

/-- The 32-bit registers of the window (R36). -/
inductive Reg where
  | cmd
  | status
  | err
  | ie
  | cfg
  | keylen
  | outlen
  | blkcnt
  | padval
  | id
deriving DecidableEq, Repr

/-- What an offset belongs to (R36). -/
inductive Place where
  | reg (r : Reg)
  | arr (a : Arr)
deriving DecidableEq, Repr

/-- The first offset of an array (R36). -/
def Arr.base : Arr → Nat
  | .keystage => 0x040
  | .ivstage => 0x060
  | .cv => 0x070
  | .din => 0x400
  | .dout => 0x800

/-- The size of an array in bytes (R10). -/
def Arr.size : Arr → Nat
  | .keystage => Config.KS_MAX
  | .ivstage => Config.BS_MAX
  | .cv => Config.BS_MAX
  | .din => Config.CHUNK_MAX
  | .dout => Config.DOUT_SIZE

/-- The offset of a register (R10, R36). -/
def Reg.offset : Reg → Nat
  | .cmd => 0x000
  | .status => 0x004
  | .err => 0x008
  | .ie => 0x00C
  | .cfg => 0x010
  | .keylen => 0x014
  | .outlen => 0x018
  | .blkcnt => 0x01C
  | .padval => 0x020
  | .id => 0x024

/-- A row of the window's map; a row with no place is reserved (R36). -/
structure MapRow where
  lo : Nat
  hi : Nat
  place : Option Place
deriving DecidableEq, Repr

/-- Whether an offset lies in a row. -/
def MapRow.holds (r : MapRow) (off : Nat) : Bool := decide (r.lo ≤ off ∧ off ≤ r.hi)

/-- The window's map (R36). -/
def windowMap : List MapRow :=
  [ ⟨0x000, 0x003, some (.reg .cmd)⟩, ⟨0x004, 0x007, some (.reg .status)⟩,
    ⟨0x008, 0x00B, some (.reg .err)⟩, ⟨0x00C, 0x00F, some (.reg .ie)⟩,
    ⟨0x010, 0x013, some (.reg .cfg)⟩, ⟨0x014, 0x017, some (.reg .keylen)⟩,
    ⟨0x018, 0x01B, some (.reg .outlen)⟩, ⟨0x01C, 0x01F, some (.reg .blkcnt)⟩,
    ⟨0x020, 0x023, some (.reg .padval)⟩, ⟨0x024, 0x027, some (.reg .id)⟩,
    ⟨0x028, 0x03F, none⟩,
    ⟨0x040, 0x05F, some (.arr .keystage)⟩, ⟨0x060, 0x06F, some (.arr .ivstage)⟩,
    ⟨0x070, 0x07F, some (.arr .cv)⟩,
    ⟨0x080, 0x3FF, none⟩,
    ⟨0x400, 0x7FF, some (.arr .din)⟩, ⟨0x800, 0xC1F, some (.arr .dout)⟩,
    ⟨0xC20, 0xFFF, none⟩ ]

/-- The place an offset belongs to; `none` for a reserved offset (R36). -/
def placeOf (off : Nat) : Option Place :=
  match windowMap.find? (fun r => r.holds off) with
  | some r => r.place
  | none => none

/-- Byte `i` of an array (R7). -/
def State.byte (s : State) (a : Arr) (i : Nat) : Byte := Memory.read s.mem (a.base + i)

/-- The first `n` bytes of an array, `A[0..n)` (R5). -/
def State.firstBytes (s : State) (a : Arr) (n : Nat) : List Byte := Memory.readBytes s.mem a.base n

/-- `A <- l`, the bytes of the array past the end of `l` becoming `0x00`. -/
def State.setArr (s : State) (a : Arr) (l : List Byte) : State :=
  { s with mem := Memory.writeBytes (Memory.clear s.mem a.base a.size) a.base (l.take a.size) }

/-- `A <- zeros(size)`. -/
def State.clearArr (s : State) (a : Arr) : State := { s with mem := Memory.clear s.mem a.base a.size }

/-- A hidden register of `n` bytes holding the string `l`, the bytes past the end of `l` being `0x00`. -/
def regOf (n : Nat) (l : List Byte) : Vector Byte n := ⟨⟨(List.range n).map (fun i => l.getD i 0)⟩, by simp⟩

/-! ### The session's registers -/

/-- The session's CipherSpec, when one is open. -/
def Session.cfg? : Session → Option CipherSpec
  | .idle => none
  | .active c => some c
  | .finished c => some c

/-- `SKEY[0..ks)` (R30). -/
def State.key (s : State) (c : CipherSpec) : List Byte := s.skey.toList.take c.ks

/-- `PBUF[0..PBLEN)`: the carry (R31, R32). -/
def State.carry (s : State) : List Byte := s.pbuf.toList.take s.pblen.toNat

/-- The per-byte valid mask of `PBUF`: the thermometer code `(1 << PBLEN) - 1` over 16 bytes (R32). -/
def State.validMask (s : State) : BitVec 16 := BitVec.twoPow 16 s.pblen.toNat - 1

/-- The primitive handle: `(CFG.CIPHER, CFG.DIR, SKEY[0..ks))`, existing exactly while a session is open
(44_primitive_adapter.md R101). -/
def State.handle (s : State) : Option (Tag × Dir × List Byte) :=
  s.session.cfg?.map (fun c => (c.cipher, c.dir, s.key c))

/-! ### Acceptance and completion -/

/-- A command is in flight and the sequencer may move: `BUSY = 1`, reset not asserted (R9, R121). -/
def State.inFlight (s : State) : Bool := s.busy && !s.rst

/-- `accept(w)` (R107); the sequencer goes to `Q_DECODE` (42_padding.md R91). -/
def State.accept (s : State) (w : Word) : State :=
  { s with cmd := w, busy := true, seq := .decode, staged := Staged.empty }

/-- The end of the completion step: `ERR.CODE <- code; DONE <- 1; BUSY <- 0`, and the sequencer is idle again (R108,
42_padding.md R91 `Q_DONE`). Raising an error is this with a nonzero code (R109, R115). -/
def State.finish (s : State) (code : Option CmdError) : State :=
  { s with err := code, done := true, busy := false, seq := .idle, staged := Staged.empty }

/-- The outcome of a command that ran to `r`: on success its writes are made, on a raise none is; then it completes with
its code (R108, R109). -/
def State.conclude (s : State) (r : Except CmdError State) : State :=
  match r with
  | .ok t => t.finish none
  | .error e => s.finish (some e)

/-- The completion of an illegal word: `ERR.CODE = 7` and nothing else (30_encoding.md R57). -/
def State.rejectIllegal (s : State) : State := s.finish (some .illegalCommand)

/-- The reset input at level `asserted`: the reset state replaces everything (70_reset_and_hazards.md R121 to R123); what
the outside world does next is no state of the SCSC and stays. -/
def State.resetPin (s : State) (asserted : Bool) : State :=
  { State.reset with rst := asserted, agenda := s.agenda }

end Sys2Proof.Machine
end

