-- ==== Sys2Proof/Machine/Flags.lean ====
section
/-! DEFINITION. The words of the status, error and configuration registers and the interrupt output (10_state.md R14 to
R18, 60_exceptions.md R110, R113). -/

namespace Sys2Proof.Machine

/-- The value of `ERR.CODE` (R110). -/
def errCode : Option CmdError → Nat
  | none => 0
  | some .unsupportedAlgorithm => 1
  | some .invalidKeyMaterial => 2
  | some .misalignedCiphertext => 3
  | some .invalidPadding => 4
  | some .primitiveFailure => 5
  | some .usageError => 6
  | some .illegalCommand => 7
  | some .chunkTooLong => 8

/-- `STATUS.ERRF`: 1 exactly when `ERR.CODE != 0` (R14). -/
def State.errf (s : State) : Bool := errCode s.err != 0

/-- The value of `STATUS.PHASE` (R29). -/
def phaseCode : Session → Nat
  | .idle => 0
  | .active _ => 1
  | .finished _ => 2

/-- What `STATUS` reads (R14, R41). -/
def State.statusWord (s : State) : Word :=
  bitAt s.busy 0 ||| bitAt s.done 1 ||| bitAt s.errf 2 ||| bitAt s.ovr 3 ||| fieldAt (phaseCode s.session) 4
    ||| fieldAt s.pblen.toNat 8

/-- What `IE` reads (R17, R41). -/
def State.ieWord (s : State) : Word := bitAt s.doneIe 1 ||| bitAt s.ovrIe 3

/-- `CFG` of an open session (R18; 40_session.md R63). -/
def CipherSpec.word (c : CipherSpec) : Word :=
  fieldAt (tagNum c.cipher) 4 ||| bitAt c.mode.bit 7 ||| bitAt c.dir.bit 8 ||| bitAt c.ivsrc 9 ||| fieldAt c.bs 16
    ||| fieldAt c.ks 24

/-- What `CFG` reads: 0 while `PHASE = IDLE` (R18). -/
def Session.cfgWord (x : Session) : Word :=
  match x.cfg? with
  | some c => c.word
  | none => 0

/-- The interrupt output: `(DONE AND DONE_IE) OR (OVR AND OVR_IE)` (R113), held at 0 while reset is asserted (R121). -/
def State.irq (s : State) : Bool := !s.rst && ((s.done && s.doneIe) || (s.ovr && s.ovrIe))

end Sys2Proof.Machine
end

