-- ==== Sys2Proof/Machine/Bus.lean ====
section
/-! DEFINITION. Bus access to the register window (20_memory.md R35 to R45). -/

namespace Sys2Proof.Machine

/-- The word at offset `o` of the arrays: byte `j` at bits `[8j+7:8j]` (R39). -/
def packWord (m : Memory) (o : Nat) : Word :=
  Memory.read m (o + 3) ++ Memory.read m (o + 2) ++ Memory.read m (o + 1) ++ Memory.read m o

/-- The four bytes of a word, lowest first (R39). -/
def wordBytes (w : Word) : List Byte :=
  [w.extractLsb' 0 8, w.extractLsb' 8 8, w.extractLsb' 16 8, w.extractLsb' 24 8]

/-- What a taken read of a register returns (R41). -/
def State.readReg (s : State) (r : Reg) : Word :=
  match r with
  | .cmd => s.cmd
  | .status => s.statusWord
  | .err => fieldAt (errCode s.err) 0
  | .ie => s.ieWord
  | .cfg => s.session.cfgWord
  | .keylen => s.keylen
  | .outlen => s.outlen
  | .blkcnt => s.blkcnt
  | .padval => s.padval.setWidth 32
  | .id => Config.ID_VALUE

/-- What a taken read of an array returns: 0 for the write-only `KEYSTAGE`, else the packed word (R41). -/
def State.readArr (s : State) (a : Arr) (off : Nat) : Word :=
  match a with
  | .keystage => 0
  | .ivstage | .cv | .din | .dout => packWord s.mem off

/-- What a taken read returns (R41). -/
def State.readPlace (s : State) (p : Place) (off : Nat) : Word :=
  match p with
  | .reg r => s.readReg r
  | .arr a => s.readArr a off

/-- The only effect of a dropped write (R43). -/
def State.dropWrite (s : State) : State := { s with ovr := true }

/-- A taken write of a register (R42). -/
def State.writeReg (s : State) (r : Reg) (w : Word) : State :=
  match r with
  | .cmd => if s.busy then s.dropWrite else s.accept w
  | .status =>
    { s with
      done := if w.getLsbD 1 then false else s.done
      ovr := if w.getLsbD 3 then false else s.ovr }
  | .ie => { s with doneIe := w.getLsbD 1, ovrIe := w.getLsbD 3 }
  | .keylen => if s.busy then s.dropWrite else { s with keylen := w }
  | .err | .cfg | .outlen | .blkcnt | .padval | .id => s

/-- A taken write of an array (R42). -/
def State.writeArr (s : State) (a : Arr) (off : Nat) (w : Word) : State :=
  match a with
  | .keystage | .ivstage | .din =>
    if s.busy then s.dropWrite else { s with mem := Memory.writeBytes s.mem off (wordBytes w) }
  | .cv | .dout => s

/-- A taken write (R42). -/
def State.writePlace (s : State) (p : Place) (off : Nat) (w : Word) : State :=
  match p with
  | .reg r => s.writeReg r w
  | .arr a => s.writeArr a off w

/-- The place an access is taken at: a 32-bit access with all four lanes, at a multiple of 4, of a mapped offset, while
reset is not asserted; `none` gets a bus error (R37, 70_reset_and_hazards.md R121). -/
def State.takenAt (s : State) (a : Access) (off : Nat) : Option Place :=
  if s.rst = false ∧ a.size = .word ∧ a.lanes = 0xF ∧ off % 4 = 0 then placeOf off else none

/-- An access at an offset of the window: taken with its reply, or a bus error with no other effect (R37, R38, R41,
R42). -/
def State.busAccess (s : State) (a : Access) (off : Nat) : State :=
  match s.takenAt a off with
  | none => { s with reply := some ⟨true, 0⟩ }
  | some p =>
    match a.kind with
    | .read => { s with reply := some ⟨false, s.readPlace p off⟩ }
    | .write w => { s.writePlace p off w with reply := some ⟨false, 0⟩ }

/-- The offset of a bus address in the window; an address outside is not decoded by the SCSC (R35, R36). -/
def offsetOf (addr : Nat) : Option Nat :=
  if Config.BASE ≤ addr ∧ addr < Config.BASE + Config.WINDOW then some (addr - Config.BASE) else none

/-- A host access (R9, R35): one outside the window leaves the SCSC as it is and gets no reply from it. -/
def State.hostAccess (s : State) (a : Access) : State :=
  match offsetOf a.addr with
  | none => { s with reply := none }
  | some off => s.busAccess a off

end Sys2Proof.Machine
end

