-- ==== Sys2Proof/Machine/Operands.lean ====
section
/-! DEFINITION. The operands a command takes from the staging registers (30_encoding.md R54, 43_registry.md R96,
41_update.md R69, R71), the fields of its word being read by Decode.lean. -/

namespace Sys2Proof.Machine

/-- `condkey(KEYSTAGE, KEYLEN, ks)`: truncate to `ks` bytes or zero-pad on the right (R96). -/
def condKey (keystage : List Byte) (keylen : Nat) (ks : Nat) : List Byte :=
  let m := min keylen ks
  keystage.take m ++ zeros (ks - m)

/-- The staged key material, conditioned for a tag (R96). -/
def State.stagedKey (s : State) (t : Tag) : List Byte :=
  condKey (s.firstBytes .keystage Config.KS_MAX) s.keylen.toNat (keySize t)

/-- The IV of a session of block size `bs`: `IVSTAGE[0..bs)` or zeros (40_session.md R64). -/
def State.stagedIv (s : State) (fromStage : Bool) (bs : Nat) : List Byte :=
  if fromStage then s.firstBytes .ivstage bs else zeros bs

/-- The work string `T = PBUF[0..PBLEN) ++ DIN[0..LEN)` (R69). -/
def State.workString (s : State) (len : Nat) : List Byte := s.carry ++ s.firstBytes .din len

/-- `n = PBLEN + LEN` (R69). -/
def State.workLength (s : State) (len : Nat) : Nat := s.pblen.toNat + len

/-- Block `j` of a work string: `T[j*bs .. (j+1)*bs)` (20_memory.md R40). -/
def blockAt (T : List Byte) (bs j : Nat) : List Byte := (T.drop (j * bs)).take bs

/-- The block count `nb = n div bs` (R71). -/
def blockCount (n bs : Nat) : Nat := n / bs

/-- The tail length `r = n mod bs` (R71). -/
def tailLength (n bs : Nat) : Nat := n % bs

/-- The tail `T[nb*bs .. n)` (R70). -/
def tailOf (T : List Byte) (bs : Nat) : List Byte := T.drop (blockCount T.length bs * bs)

end Sys2Proof.Machine
end

