-- ==== Sys2Proof/Machine/Padding.lean ====
section
/-! DEFINITION. PKCS#7 padding (42_padding.md R85 to R88). -/

namespace Sys2Proof.Machine

/-- `pad_length(rem, bs) = bs - (rem mod bs)` (R85). -/
def padLength (rem bs : Nat) : Nat := bs - rem % bs

/-- `pad_apply(tail, bs)`: the tail followed by `p` bytes of value `p` (R86). -/
def padApply (tail : List Byte) (bs : Nat) : List Byte :=
  let p := bs - tail.length
  tail ++ rep p (BitVec.ofNat 8 p)

/-- `pad_strip(out, bs)`: the output less its last `p` bytes, and `p`, its last byte; `none` raises `InvalidPadding`. Only
the last byte is examined (R87, R88). -/
def padStrip (out : List Byte) (bs : Nat) : Option (List Byte × Nat) :=
  match out.getLast? with
  | none => none
  | some last =>
    let p := last.toNat
    if p = 0 ∨ bs < p ∨ out.length < p then none else some (out.take (out.length - p), p)

end Sys2Proof.Machine
end

