-- ==== Sys2Proof/Machine/Adapter.lean ====
section
/-! DEFINITION. The cipher-primitive adapter: the primitive calls (44_primitive_adapter.md R100 to R105), the mode
selector's four block transforms (41_update.md R72 to R75), and the request/response port (R106). -/

namespace Sys2Proof.Machine

/-- `enc(c, k, x)` at the block size of `c`: the first `BS(c)` bytes of the port's answer (R100, R106). -/
def Prim.encBlock (P : Prim) (c : Tag) (k x : List Byte) : Option (List Byte) :=
  (P.enc c k x).map (fun y => y.toList.take (blockSize c))

/-- `dec(c, k, x)` at the block size of `c` (R100, R106). -/
def Prim.decBlock (P : Prim) (c : Tag) (k x : List Byte) : Option (List Byte) :=
  (P.dec c k x).map (fun y => y.toList.take (blockSize c))

/-- `keyOk(c, d, k)`: tag 0 accepts every key (R100 property 3; 43_registry.md R98). -/
def Prim.keyAccepted (P : Prim) (c : Tag) (d : Dir) (k : List Byte) : Bool :=
  match c with
  | .legacy8 => true
  | .triple8 | .modern128 | .modern192 | .modern256 => P.keyOk c d k

/-- `a XOR b` of two byte strings of equal length (00_scope.md R5). -/
def xorBytes (a b : List Byte) : List Byte := List.zipWith (· ^^^ ·) a b

/-- The mode selector: one block `x` and the running chaining value `cv` give the output block and the next `cv`; `none`
raises `PrimitiveFailure` (R72 to R75). -/
def xform (P : Prim) (c : CipherSpec) (k x cv : List Byte) : Option (List Byte × List Byte) :=
  match c.mode, c.dir with
  | .ecb, .encrypt => (Prim.encBlock P c.cipher k x).map (fun y => (y, cv))
  | .ecb, .decrypt => (Prim.decBlock P c.cipher k x).map (fun y => (y, cv))
  | .cbc, .encrypt => (Prim.encBlock P c.cipher k (xorBytes x cv)).map (fun y => (y, y))
  | .cbc, .decrypt => (Prim.decBlock P c.cipher k x).map (fun y => (xorBytes y cv, x))

/-- The block handed to the primitive by `xform` (R72, R102). -/
def xformInput (c : CipherSpec) (x cv : List Byte) : List Byte :=
  match c.mode, c.dir with
  | .cbc, .encrypt => xorBytes x cv
  | .cbc, .decrypt | .ecb, .encrypt | .ecb, .decrypt => x

/-- The loop of an `UPDATE` over blocks `0 .. nb-1` of `T`, in ascending order: the output and the chaining value after
`nb` blocks, or `none` at the first block the primitive fails (41_update.md R67, R76; R103). -/
def runBlocks (P : Prim) (c : CipherSpec) (k T cv : List Byte) : Nat → Option (List Byte × List Byte)
  | 0 => some ([], cv)
  | j + 1 =>
    match runBlocks P c k T cv j with
    | none => none
    | some (out, cv') =>
      match xform P c k (blockAt T c.bs j) cv' with
      | none => none
      | some (y, cv'') => some (out ++ y, cv'')

/-! ### The port -/

/-- A request on the port: `p_req = 1` with its operands (R106). -/
structure PortRequest where
  /-- `p_kind`: 0 key check, 1 encrypt block, 2 decrypt block. -/
  kind : BitVec 2
  /-- `p_tag`. -/
  tag : BitVec 3
  /-- `p_dir`. -/
  dir : Bool
  /-- `p_key`: byte `i` at bits `[8i+7:8i]`. -/
  key : BitVec 256
  /-- `p_in`: byte `i` at bits `[8i+7:8i]`. -/
  input : BitVec 128
deriving DecidableEq, Repr

/-- The answer: `p_ok` and `p_out`, valid when `p_ack = 1` (R106). -/
structure PortResponse where
  ok : Bool
  out : BitVec 128
deriving DecidableEq, Repr

/-- The bytes of a string on a bus of `n` bits, byte `i` at bits `[8i+7:8i]`, the rest 0 (R106). -/
def packBytes (n : Nat) : List Byte → BitVec n
  | [] => 0
  | b :: rest => b.setWidth n ||| (packBytes n rest <<< 8)

/-- The first `m` bytes on a bus (R106). -/
def unpackBytes {n : Nat} (v : BitVec n) (m : Nat) : List Byte :=
  (List.range m).map (fun i => v.extractLsb' (8 * i) 8)

/-- The request of a key check: the `INIT` word's tag and direction and the conditioned key (R106). DESIGN CHOICE: the spec
does not state bytes `ks..31` of `p_key`, nor `p_in` of a key check, and the model drives them 0 (log 17). -/
def keyRequest (c : Tag) (d : Dir) (k : List Byte) : PortRequest :=
  { kind := 0, tag := BitVec.ofNat 3 (tagNum c), dir := d.bit, key := packBytes 256 k, input := 0 }

/-- The request of a block: `SKEY` and the input block, in the session's direction (R102, R106). -/
def blockRequest (c : CipherSpec) (skey x : List Byte) : PortRequest :=
  { kind := match c.dir with
      | .encrypt => 1
      | .decrypt => 2
    tag := BitVec.ofNat 3 (tagNum c.cipher)
    dir := c.dir.bit
    key := packBytes 256 skey
    input := packBytes 128 x }

/-- The answer of a block call: `p_ok` and the output block, bytes `bs..15` ignored (R106). DESIGN CHOICE: the spec does not
state `p_out` of a `fail` answer, and the model answers 0 (log 17). -/
def blockAnswer (y : Option (Vector Byte 16)) : PortResponse :=
  match y with
  | none => ⟨false, 0⟩
  | some v => ⟨true, packBytes 128 v.toList⟩

/-- How a primitive behind the port answers a request (R106): the functions of `PRIM` on the bytes of the request's buses.
DESIGN CHOICE: the spec does not state `p_out` of an answer to a key check, and the model answers 0; a request of an
unsupported tag or of kind 3 is never made, and the model answers it with not ok and 0 (log 17). -/
def Prim.serve (P : Prim) (q : PortRequest) : PortResponse :=
  match tagOf q.tag.toNat with
  | none => ⟨false, 0⟩
  | some c =>
    let k := unpackBytes q.key (keySize c)
    let x := unpackBytes q.input (blockSize c)
    if q.kind = 0 then ⟨Prim.keyAccepted P c (if q.dir then .decrypt else .encrypt) k, 0⟩
    else if q.kind = 1 then blockAnswer (P.enc c k x)
    else if q.kind = 2 then blockAnswer (P.dec c k x)
    else ⟨false, 0⟩

end Sys2Proof.Machine
end

