-- ==== Sys2Proof/Machine/Session.lean ====
section
/-! DEFINITION. The session commands NOP, INIT and CLOSE (40_session.md R62 to R66). -/

namespace Sys2Proof.Machine

/-! ### NOP -/

/-- `NOP`: only completes (R62). -/
def execNop (s : State) : Host.Outcome State Fault Refusal := .next (s.finish none)

/-! ### INIT -/

/-- The checks of `INIT` before the primitive is asked, in the order of R111: phase, tag, empty key material (R63). -/
def initPreCheck (s : State) (cipher : Nat) : Except CmdError Tag :=
  match s.session with
  | .active _ | .finished _ => .error .usageError
  | .idle =>
    match tagOf cipher with
    | none => .error .unsupportedAlgorithm
    | some t => if s.keylen = 0 then .error .invalidKeyMaterial else .ok t

/-- All the checks of `INIT`, the last being `keyOk` on the conditioned key (R63, R96). -/
def initCheck (P : Prim) (s : State) (cipher : Nat) (dir : Dir) : Except CmdError Tag :=
  match initPreCheck s cipher with
  | .error e => .error e
  | .ok t => if Prim.keyAccepted P t dir (s.stagedKey t) then .ok t else .error .invalidKeyMaterial

/-- `ive = ivsrc AND mode`: `IVSRC` is ignored in ECB (R63). -/
def effectiveIvsrc (mode : Mode) (ivsrc : Bool) : Bool := ivsrc && mode.bit

/-- The writes of a successful `INIT` (R63, R64). -/
def initWrites (s : State) (t : Tag) (mode : Mode) (dir : Dir) (ivsrc : Bool) : State :=
  let ive := effectiveIvsrc mode ivsrc
  let s' := s.setArr .cv (s.stagedIv ive (blockSize t))
  { s' with
    session := .active { cipher := t, mode := mode, dir := dir, ivsrc := ive }
    skey := regOf 32 (s.stagedKey t)
    pbuf := regOf 16 []
    pblen := 0
    blkcnt := 0
    padval := 0 }

/-- `KEYSTAGE <- zeros(32)`, in the completion step of every `INIT` whatever its outcome (R63, 60_exceptions.md R108). -/
def State.scrubKeystage (s : State) : State := s.clearArr .keystage

/-- `run(INIT)` (R63, 60_exceptions.md R108). -/
def runInit (P : Prim) (cipher : Nat) (mode : Mode) (dir : Dir) (ivsrc : Bool) (s : State) : Except CmdError State :=
  match initCheck P s cipher dir with
  | .error e => .error e
  | .ok t => .ok (initWrites s t mode dir ivsrc)

/-- The completion step of an `INIT` under a primitive `P`. -/
def completeInit (P : Prim) (cipher : Nat) (mode : Mode) (dir : Dir) (ivsrc : Bool) (s : State) : State :=
  (s.conclude (runInit P cipher mode dir ivsrc s)).scrubKeystage

/-- `INIT <cipher>, <mode>, <dir> [, IV]` (R63). -/
def execInit (cipher : Nat) (mode : Mode) (dir : Dir) (ivsrc : Bool) (s : State) : Host.Outcome State Fault Refusal :=
  .next (completeInit Config.PRIM cipher mode dir ivsrc s)

/-! ### CLOSE -/

/-- The writes of `CLOSE` (R65). -/
def closeWrites (s : State) : State :=
  let s' := (((s.clearArr .cv).clearArr .keystage).clearArr .din).clearArr .dout
  { s' with
    session := .idle
    skey := regOf 32 []
    pbuf := regOf 16 []
    pblen := 0
    blkcnt := 0
    padval := 0
    outlen := 0 }

/-- `CLOSE` (R65): never fails. -/
def execClose (s : State) : Host.Outcome State Fault Refusal := .next ((closeWrites s).finish none)

end Sys2Proof.Machine
end

