-- ==== Sys2Proof/Machine/Update.lean ====
section
/-! DEFINITION. UPDATE: its checks, its result as a function of the work string, its commit (41_update.md R67 to R81). -/

namespace Sys2Proof.Machine

/-- The checks before any block is processed, in the order of R68 and R67: phase, length, alignment of a final decrypt
chunk. The answer is the open session's CipherSpec. -/
def updateCheck (s : State) (len : Nat) (final : Bool) : Except CmdError CipherSpec :=
  match s.session with
  | .idle | .finished _ => .error .usageError
  | .active c =>
    if Config.CHUNK_MAX < len then .error .chunkTooLong
    else if final = true ∧ c.dir = .decrypt ∧ tailLength (s.workLength len) c.bs ≠ 0 then .error .misalignedCiphertext
    else .ok c

/-- The final step of an encrypt stream: the pad block is transformed and appended, `PADVAL` is `bs - r` (R77). -/
def padResult (P : Prim) (c : CipherSpec) (k tail : List Byte) (st : Staged) : Except CmdError Staged :=
  match xform P c k (padApply tail c.bs) st.cv with
  | none => .error .primitiveFailure
  | some (y, cv) =>
    .ok { out := st.out ++ y, cv := cv, carry := [], cnt := st.cnt + 1, pad := c.bs - tail.length }

/-- The final step of a decrypt stream: this command's output is stripped (R78). -/
def stripResult (c : CipherSpec) (st : Staged) : Except CmdError Staged :=
  match padStrip st.out c.bs with
  | none => .error .invalidPadding
  | some (out, p) => .ok { out := out, cv := st.cv, carry := [], cnt := st.cnt, pad := p }

/-- What follows the whole blocks (R67): a non-final chunk keeps its tail as the carry (R70), a final one is padded or
stripped. -/
def tailResult (P : Prim) (c : CipherSpec) (k tail : List Byte) (final : Bool) (st : Staged) : Except CmdError Staged :=
  if final then
    match c.dir with
    | .encrypt => padResult P c k tail st
    | .decrypt => stripResult c st
  else .ok { st with carry := tail, pad := 0 }

/-- The staged results of an `UPDATE` whose checks passed, from the work string `T` and the chaining value (R67). -/
def updateResult (P : Prim) (c : CipherSpec) (k T cv : List Byte) (final : Bool) : Except CmdError Staged :=
  let nb := blockCount T.length c.bs
  match runBlocks P c k T cv nb with
  | none => .error .primitiveFailure
  | some (out, cv') =>
    tailResult P c k (tailOf T c.bs) final { out := out, cv := cv', carry := [], cnt := nb, pad := 0 }

/-- `if CFG.MODE = CBC then CV[0..bs) <- cv` (R79). -/
def State.commitCv (s : State) (c : CipherSpec) (cv : List Byte) : State :=
  match c.mode with
  | .ecb => s
  | .cbc => s.setArr .cv (cv.take c.bs)

/-- `commit(out, cv, carry, cnt, pad, final)` (R79). -/
def State.commit (s : State) (c : CipherSpec) (r : Staged) (final : Bool) : State :=
  let s' := (s.setArr .dout r.out).commitCv c r.cv
  { s' with
    outlen := BitVec.ofNat 32 r.out.length
    pbuf := regOf 16 r.carry
    pblen := BitVec.ofNat 4 r.carry.length
    blkcnt := s.blkcnt + BitVec.ofNat 32 r.cnt
    padval := BitVec.ofNat 8 r.pad
    session := if final then .finished c else s.session }

/-- `run(UPDATE)` (R67). -/
def runUpdate (P : Prim) (len : Nat) (final : Bool) (s : State) : Except CmdError State :=
  match updateCheck s len final with
  | .error e => .error e
  | .ok c =>
    match updateResult P c (s.key c) (s.workString len) (s.firstBytes .cv c.bs) final with
    | .error e => .error e
    | .ok r => .ok (s.commit c r final)

/-- The completion step of an `UPDATE` under a primitive `P`. -/
def completeUpdate (P : Prim) (len : Nat) (final : Bool) (s : State) : State :=
  s.conclude (runUpdate P len final s)

/-- `UPDATE <len> [, FINAL]` (R67). -/
def execUpdate (len : Nat) (final : Bool) (s : State) : Host.Outcome State Fault Refusal :=
  .next (completeUpdate Config.PRIM len final s)

end Sys2Proof.Machine
end

