-- ==== Sys2Proof/Machine/Sequencer.lean ====
section
/-! DEFINITION. The sequencer's micro-state machine (42_padding.md R91) and the request it holds on the primitive's port
(44_primitive_adapter.md R103, R106). The writes of `Q_COMMIT` become visible in the atomic completion step, which is the
step of `Q_DONE` (20_memory.md R45; log 10). -/

namespace Sys2Proof.Machine

/-- The operands of the `UPDATE` in flight: its length, whether it is final, and the session (R67). -/
def State.updateInFlight (s : State) : Option (Nat × Bool × CipherSpec) :=
  match decodeWord s.cmd, s.session.cfg? with
  | .ok (.update len final), some c => some (len, final, c)
  | .ok (.update _ _), none => none
  | .ok .nop, _ => none
  | .ok (.init _ _ _ _), _ => none
  | .ok .close, _ => none
  | .error _, _ => none

/-- Back to `Q_DECODE` with nothing staged: where a micro-state that does not belong to the command in flight goes, which
no run reaches (log 11). -/
def seqRestart : SeqState × Staged := (.decode, Staged.empty)

/-- `Q_DECODE` (R91). -/
def seqDecode (s : State) : SeqState × Staged :=
  match decodeWord s.cmd with
  | .ok _ => (.check, s.staged)
  | .error _ => (.abort .illegalCommand, s.staged)

/-- `Q_CHECK` (R91). -/
def seqCheck (P : Prim) (s : State) : SeqState × Staged :=
  match decodeWord s.cmd with
  | .error _ => seqRestart
  | .ok .nop => (.commit, s.staged)
  | .ok .close => (.commit, s.staged)
  | .ok (.init cipher _ dir _) =>
    match initCheck P s cipher dir with
    | .error e => (.abort e, s.staged)
    | .ok _ => (.commit, s.staged)
  | .ok (.update len final) =>
    match updateCheck s len final with
    | .error e => (.abort e, s.staged)
    | .ok c =>
      (if blockCount (s.workString len).length c.bs = 0 then .tail else .block 0,
        { Staged.empty with cv := s.firstBytes .cv c.bs })

/-- `Q_BLOCK(j)`: one primitive request for block `j`, staged when it is answered (R91). -/
def seqBlock (P : Prim) (s : State) (j : Nat) : SeqState × Staged :=
  match s.updateInFlight with
  | none => seqRestart
  | some (len, _, c) =>
    let T := s.workString len
    match xform P c (s.key c) (blockAt T c.bs j) s.staged.cv with
    | none => (.abort .primitiveFailure, s.staged)
    | some (y, cv) =>
      (if j + 1 < blockCount T.length c.bs then .block (j + 1) else .tail,
        { s.staged with out := s.staged.out ++ y, cv := cv, cnt := s.staged.cnt + 1 })

/-- `Q_TAIL` (R91). -/
def seqTail (s : State) : SeqState × Staged :=
  match s.updateInFlight with
  | none => seqRestart
  | some (len, final, c) =>
    if final then
      match c.dir with
      | .encrypt => (.pad, s.staged)
      | .decrypt => (.unpad, s.staged)
    else (.commit, { s.staged with carry := tailOf (s.workString len) c.bs, pad := 0 })

/-- A final step's outcome: commit what it staged, or abort. -/
def seqSettle (s : State) (r : Except CmdError Staged) : SeqState × Staged :=
  match r with
  | .ok st => (.commit, st)
  | .error e => (.abort e, s.staged)

/-- `Q_PAD` (R91). -/
def seqPad (P : Prim) (s : State) : SeqState × Staged :=
  match s.updateInFlight with
  | none => seqRestart
  | some (len, _, c) => seqSettle s (padResult P c (s.key c) (tailOf (s.workString len) c.bs) s.staged)

/-- `Q_UNPAD` (R91). -/
def seqUnpad (s : State) : SeqState × Staged :=
  match s.updateInFlight with
  | none => seqRestart
  | some (_, _, c) => seqSettle s (stripResult c s.staged)

/-- The next micro-state and the staged results, for every state but `Q_DONE` (R91). -/
def seqNext (P : Prim) (s : State) : SeqState × Staged :=
  match s.seq with
  | .idle => (.decode, s.staged)
  | .decode => seqDecode s
  | .check => seqCheck P s
  | .block j => seqBlock P s j
  | .tail => seqTail s
  | .pad => seqPad P s
  | .unpad => seqUnpad s
  | .commit => (.done none, s.staged)
  | .abort e => (.done (some e), Staged.empty)
  | .done code => (.done code, s.staged)

/-- The micro-state moved to a next one; nothing a bus access can observe changes (R12, R91). -/
def State.moveSeq (s : State) (n : SeqState × Staged) : State := { s with seq := n.1, staged := n.2 }

/-- `Q_DONE` with code 0: the staged results of the command are written and it completes, in one step (R91, R108). -/
def seqSucceed (s : State) : State :=
  match decodeWord s.cmd with
  | .ok .nop => s.finish none
  | .ok .close => (closeWrites s).finish none
  | .ok (.init cipher mode dir ivsrc) =>
    match tagOf cipher with
    | some t => ((initWrites s t mode dir ivsrc).finish none).scrubKeystage
    | none => s.moveSeq seqRestart
  | .ok (.update _ final) =>
    match s.session.cfg? with
    | some c => (s.commit c s.staged final).finish none
    | none => s.moveSeq seqRestart
  | .error _ => s.moveSeq seqRestart

/-- `Q_DONE` with an error code: the completion rule, and for `INIT` the zeroing of `KEYSTAGE` (R91, R108). -/
def seqFail (s : State) (e : CmdError) : State :=
  match decodeWord s.cmd with
  | .ok (.init _ _ _ _) => (s.finish (some e)).scrubKeystage
  | .ok .nop => s.finish (some e)
  | .ok (.update _ _) => s.finish (some e)
  | .ok .close => s.finish (some e)
  | .error _ => s.finish (some e)

/-- One micro-step of the sequencer (R91). -/
def microStep (P : Prim) (s : State) : State :=
  match s.seq with
  | .done none => seqSucceed s
  | .done (some e) => seqFail s e
  | .idle | .decode | .check | .block _ | .tail | .pad | .unpad | .commit | .abort _ => s.moveSeq (seqNext P s)

/-- The block request of the `UPDATE` in flight for an input block `x` (R102, R106). -/
def updateRequest (s : State) (c : CipherSpec) (x : List Byte) : PortRequest :=
  blockRequest c s.skey.toList (xformInput c x s.staged.cv)

/-- The request on the primitive's port, held until it is answered by the micro-step that leaves the state: a key check in
`Q_CHECK` of an `INIT` that passed its other checks, a block in `Q_BLOCK` and `Q_PAD`; none otherwise, and none while
reset is asserted (R103, R106, R121). -/
def State.port (s : State) : Option PortRequest :=
  if s.inFlight then
    match s.seq with
    | .check =>
      match decodeWord s.cmd with
      | .ok (.init cipher _ dir _) =>
        match initPreCheck s cipher with
        | .ok t => some (keyRequest t dir (s.stagedKey t))
        | .error _ => none
      | .ok .nop => none
      | .ok (.update _ _) => none
      | .ok .close => none
      | .error _ => none
    | .block j => s.updateInFlight.map (fun u => updateRequest s u.2.2 (blockAt (s.workString u.1) u.2.2.bs j))
    | .pad => s.updateInFlight.map (fun u => updateRequest s u.2.2 (padApply (tailOf (s.workString u.1) u.2.2.bs) u.2.2.bs))
    | .idle | .decode | .tail | .unpad | .commit | .abort _ | .done _ => none
  else none

end Sys2Proof.Machine
end

