-- ==== Sys2Proof/Machine/Agenda.lean ====
section
/-! DEFINITION. Which agent moves and what its step is (00_scope.md R9, 60_exceptions.md R108, log 1). `run` is the
completion step of a decoded command: `Machine.exec`, or `execWith P` under another primitive. -/

namespace Sys2Proof.Machine

/-- The completion step of the command in flight: `cmd <- decode(CMD)`, then the command's own step or the rejection of an
illegal word (R108, 30_encoding.md R57). -/
def completeWith (run : Instr → State → Host.Outcome State Fault Refusal) (s : State) :
    Host.Outcome State Fault Refusal :=
  match decodeWord s.cmd with
  | .ok i => run i s
  | .error _ => .next s.rejectIllegal

/-- The completion step, enabled exactly while a command is in flight (R108). -/
def sequencerTurn (run : Instr → State → Host.Outcome State Fault Refusal) (s : State) :
    Host.Outcome State Fault Refusal :=
  if s.inFlight then completeWith run s else .next s

/-- The step of one event. -/
def eventStep (P : Prim) (run : Instr → State → Host.Outcome State Fault Refusal) (e : Event) (s : State) :
    Host.Outcome State Fault Refusal :=
  match e with
  | .host a => .next (s.hostAccess a)
  | .sequencer => .next (if s.inFlight then microStep P s else s)
  | .complete => sequencerTurn run s
  | .reset asserted => .next (s.resetPin asserted)
  | .primitiveSilent => if s.port.isSome then .fault .primitiveSilent else .next s

/-- One step: the next event of the agenda. With nothing on the agenda the host makes no access, and a command in flight
completes (R9); with no command in flight the SCSC is quiescent (R120). -/
def advance (P : Prim) (run : Instr → State → Host.Outcome State Fault Refusal) (s : State) :
    Host.Outcome State Fault Refusal :=
  match s.agenda with
  | [] => sequencerTurn run s
  | e :: rest => eventStep P run e { s with agenda := rest }

/-- The state a command's completion step leaves under a primitive `P` (R108). -/
def completion (P : Prim) (i : Instr) (s : State) : State :=
  match i with
  | .nop => s.finish none
  | .init cipher mode dir ivsrc => completeInit P cipher mode dir ivsrc s
  | .update len final => completeUpdate P len final s
  | .close => (closeWrites s).finish none

/-- The completion step of each command under a primitive `P`, for a run whose primitive is known; `exec` is this at
`Config.PRIM`. -/
def execWith (P : Prim) (i : Instr) (s : State) : Host.Outcome State Fault Refusal := .next (completion P i s)

/-- One step under a primitive `P`. -/
def stepWith (P : Prim) (s : State) : Host.Outcome State Fault Refusal := advance P (execWith P) s

end Sys2Proof.Machine
end

