-- ==== Sys2Proof/Machine/Dispatch.lean ====
section
/-! DEFINITION. One arm per command (30_encoding.md R55). -/

namespace Sys2Proof.Machine

/-- The completion step of a command: its effects and its code (60_exceptions.md R108). -/
def exec (i : Instr) (s : State) : Host.Outcome State Fault Refusal :=
  match i with
  | .nop => Sys2Proof.Machine.execNop s
  | .init cipher mode dir ivsrc => Sys2Proof.Machine.execInit cipher mode dir ivsrc s
  | .update len final => Sys2Proof.Machine.execUpdate len final s
  | .close => Sys2Proof.Machine.execClose s

end Sys2Proof.Machine
end

