-- ==== Sys2Proof/Machine/Step.lean ====
section
/-! DEFINITION. The machine's step, and the placing of a command where the next step runs it. -/

namespace Sys2Proof.Machine

/-- One step of the machine (00_scope.md R9). -/
def step (s : State) : Host.Outcome State Fault Refusal := advance Config.PRIM exec s

/-- The state in which the command word `w` has just been accepted and the very next step is its completion
(60_exceptions.md R107, R108; log 13). The bits above `nbits` are 0. -/
def State.withFetchWord (s : State) (nbits w : Nat) : State :=
  { s.accept (BitVec.ofNat 32 (w % 2 ^ nbits)) with
    rst := false
    agenda := match s.agenda with
      | [] => []
      | e :: rest => .complete :: e :: rest }

end Sys2Proof.Machine
end

