-- ==== Sys2Proof/Machine/Assembly.lean ====
section
/-! DEFINITION. The assembler syntax of a command and the expansion of the host's pseudo-instructions into bus accesses
(30_encoding.md R59, R60). -/

namespace Sys2Proof.Machine

/-- `<cipher>` (R59). -/
def cipherText (cipher : Nat) : String :=
  match tagOf cipher with
  | some .legacy8 => "LEGACY8"
  | some .triple8 => "TRIPLE8"
  | some .modern128 => "MODERN128"
  | some .modern192 => "MODERN192"
  | some .modern256 => "MODERN256"
  | none => "#" ++ toString cipher

/-- `<mode>` (R59). -/
def modeText : Mode → String
  | .ecb => "ECB"
  | .cbc => "CBC"

/-- `<dir>` (R59). -/
def dirText : Dir → String
  | .encrypt => "ENC"
  | .decrypt => "DEC"

/-- A command in assembler syntax, with one space between words (R59). -/
def asmText : Instr → String
  | .nop => "NOP"
  | .init cipher mode dir ivsrc =>
    "INIT " ++ cipherText cipher ++ ", " ++ modeText mode ++ ", " ++ dirText dir ++ (if ivsrc then ", IV" else "")
  | .update len final => "UPDATE " ++ toString len ++ (if final then ", FINAL" else "")
  | .close => "CLOSE"

/-- `WR <offset>, <word>`: a 32-bit bus write at `BASE + offset` (R59). -/
def wr (off : Nat) (w : Word) : Event := .host ⟨Config.BASE + off, .word, 0xF, .write w⟩

/-- `RD <offset>`: a 32-bit bus read (R59). -/
def rd (off : Nat) : Event := .host ⟨Config.BASE + off, .word, 0xF, .read⟩

/-- The word of four bytes `b0 b1 b2 b3`: `b0 | b1<<8 | b2<<16 | b3<<24` (R60). -/
def wordOfBytes (b0 b1 b2 b3 : Byte) : Word := b3 ++ b2 ++ b1 ++ b0

/-- The words of a byte string, a short last group filled with `0x00` bytes (R60). -/
def groupWords : List Byte → List Word
  | [] => []
  | [b0] => [wordOfBytes b0 0 0 0]
  | [b0, b1] => [wordOfBytes b0 b1 0 0]
  | [b0, b1, b2] => [wordOfBytes b0 b1 b2 0]
  | b0 :: b1 :: b2 :: b3 :: rest => wordOfBytes b0 b1 b2 b3 :: groupWords rest

/-- The writes of consecutive words from an offset up (R60). -/
def wrWords (off : Nat) : List Word → List Event
  | [] => []
  | w :: ws => wr off w :: wrWords (off + 4) ws

/-- `ISSUE <command>` (R60). -/
def issue (i : Instr) : List Event := [wr 0x000 (encode i)]

/-- `WAIT` as its `n` reads of `STATUS`; how many the loop makes is open (R60, 70_reset_and_hazards.md R134; log 18). -/
def wait (n : Nat) : List Event := List.replicate n (rd 0x004)

/-- The condition on which `WAIT` ends: bit 0 of the value read is 0 (R60). -/
def waitEnds (r : Reply) : Bool := !r.data.getLsbD 0

/-- `RUN <command>` as `ISSUE` then `n` reads of `WAIT` (R60). -/
def runCommand (i : Instr) (n : Nat) : List Event := issue i ++ wait n

/-- `LOADB <array>, <bytes>` (R60). -/
def loadb (a : Arr) (bytes : List Byte) : List Event := wrWords a.base (groupWords bytes)

/-- `FINAL <len>` (R60). -/
def finalUpdate (len : Nat) : Instr := .update len true

end Sys2Proof.Machine
end

