-- ==== Sys2Proof/Safety.lean ====
section
/-! DEFINITION. What a safe run is, the invariants of every state reached from reset (10_state.md R33), and the streams a
host feeds to a session (41_update.md R82, R83). -/

namespace Sys2Proof.Machine

/-- Whether an offset of the window lies in an array. -/
def Arr.holds (a : Arr) (o : Nat) : Prop := a.base ≤ o ∧ o < a.base + a.size

/-- The micro-state reached by `k` micro-steps from `Q_DECODE` of the command in flight (42_padding.md R91). -/
def seqIter (P : Prim) (s : State) : Nat → SeqState × Staged
  | 0 => (.decode, Staged.empty)
  | k + 1 => seqNext P (s.moveSeq (seqIter P s k))

/-- The invariants (R33), with what the model adds about its own fields. -/
structure Inv (s : State) : Prop where
  /-- The memory is in canonical form. -/
  memWf : Memory.wf s.mem = true
  /-- The memory lists bytes of the five arrays only. -/
  memArrays : ∀ c ∈ s.mem, ∃ a : Arr, a.holds c.1
  /-- R33 item 1. -/
  idleSkey : s.session = .idle → s.skey = regOf 32 []
  idleCv : s.session = .idle → s.firstBytes .cv 16 = zeros 16
  idlePbuf : s.session = .idle → s.pbuf = regOf 16 []
  idleRegs : s.session = .idle → s.pblen = 0 ∧ s.blkcnt = 0 ∧ s.padval = 0
  /-- R33 item 2. -/
  openSkey : ∀ c, s.session.cfg? = some c → s.skey.toList.drop c.ks = zeros (32 - c.ks)
  openCv : ∀ c, s.session.cfg? = some c → (s.firstBytes .cv 16).drop c.bs = zeros (16 - c.bs)
  /-- `CFG.IVSRC` is 1 only in CBC (10_state.md R18, 40_session.md R63). -/
  openIvsrc : ∀ c, s.session.cfg? = some c → c.ivsrc = true → c.mode = .cbc
  /-- R33 item 3. -/
  activeLen : ∀ c, s.session = .active c → s.pblen.toNat < c.bs
  activeCarry : ∀ c, s.session = .active c → s.pbuf.toList.drop s.pblen.toNat = zeros (16 - s.pblen.toNat)
  /-- R33 item 4. -/
  finishedCarry : ∀ c, s.session = .finished c → s.pblen = 0 ∧ s.pbuf = regOf 16 []
  /-- `PADVAL` is 0 before the final chunk and in `1 .. bs` after it (10_state.md R22). -/
  activePad : ∀ c, s.session = .active c → s.padval = 0
  finishedPad : ∀ c, s.session = .finished c → 1 ≤ s.padval.toNat ∧ s.padval.toNat ≤ c.bs
  /-- R33 item 5. -/
  ecbCv : ∀ c, s.session.cfg? = some c → c.mode = .ecb → s.firstBytes .cv 16 = zeros 16
  /-- R33 item 6. -/
  outlenLe : s.outlen.toNat ≤ Config.DOUT_SIZE
  doutZero : ∀ i, s.outlen.toNat ≤ i → i < Config.DOUT_SIZE → s.byte .dout i = 0
  /-- The sequencer is idle exactly when no command is in flight (42_padding.md R91). -/
  seqIdle : s.busy = false → s.seq = .idle ∧ s.staged = Staged.empty
  /-- While a command is in flight its micro-state is one the command reaches (42_padding.md R91). -/
  seqReached : s.busy = true → ∃ k, (s.seq, s.staged) = seqIter Config.PRIM s k
  /-- No command is in flight while reset is asserted (70_reset_and_hazards.md R121, R123). -/
  rstQuiet : s.rst = true → s.busy = false

/-- Two states that differ at most in what no bus access shows: `SKEY`, `PBUF` and the staged key (10_state.md R24, R30,
R31). -/
structure SameButSecrets (s t : State) : Prop where
  /-- Every field but the secrets and the memory is the same. -/
  fields : t = { s with skey := t.skey, pbuf := t.pbuf, mem := t.mem }
  /-- Every byte of the window's arrays but `KEYSTAGE` is the same. -/
  bytes : ∀ o, ¬ Arr.keystage.holds o → Memory.read t.mem o = Memory.read s.mem o

/-- A run from `s` never stops: after every number of steps there is a next state. -/
def SafeRun (s : State) : Prop := ∀ k, ∃ t, Host.Core.run Sys2Proof.core k s = .next t

/-- The primitive always answers (44_primitive_adapter.md R106). -/
def primitiveAnswers (s : State) : Prop := Event.primitiveSilent ∉ s.agenda

/-! ### Streams -/

/-- The named round-trip assumption a claim may make of `PRIM` (44_primitive_adapter.md R100): `enc(c, k, x) = ok y` implies
`dec(c, k, y) = ok x`. -/
def RoundTripLaw (P : Prim) : Prop :=
  ∀ (c : Tag) (k x y : List Byte), k.length = keySize c → x.length = blockSize c →
    Prim.encBlock P c k x = some y → Prim.decBlock P c k y = some x

/-- `DIN[0..len) <- chunk`, bytes of `DIN` beyond the chunk keeping what they held (70_reset_and_hazards.md R129). -/
def State.stageDin (s : State) (chunk : List Byte) : State :=
  { s with mem := Memory.writeBytes s.mem Arr.din.base (chunk.take Arr.din.size) }

/-- One chunk delivered: staged, run as an `UPDATE` and, when it succeeds, the state after it and its output
`DOUT[0..OUTLEN)` (70_reset_and_hazards.md R125 step 5). -/
def feed (P : Prim) (s : State) (chunk : List Byte) (final : Bool) : Option (State × List Byte) :=
  match execWith P (.update chunk.length final) (s.stageDin chunk) with
  | .next t => if t.err = none then some (t, t.firstBytes .dout t.outlen.toNat) else none
  | .fault _ => none
  | .refused _ => none

/-- A stream delivered as chunks, the last one final: the concatenation of the outputs, when every command succeeds
(41_update.md R82). -/
def feedAll (P : Prim) : List (List Byte) → State → Option (State × List Byte)
  | [], _ => none
  | [c], s => feed P s c true
  | c :: d :: rest, s =>
    match feed P s c false with
    | none => none
    | some (t, out) =>
      match feedAll P (d :: rest) t with
      | none => none
      | some (t', out') => some (t', out ++ out')

/-- The length of the final command's work string when `p` bytes are carried into the first of the chunks
(41_update.md R69, R70, R82). -/
def finalWork (bs p : Nat) : List (List Byte) → Nat
  | [] => 0
  | [c] => p + c.length
  | c :: d :: rest => finalWork bs ((p + c.length) % bs) (d :: rest)

end Sys2Proof.Machine
end

