-- ==== Sys2Proof/Certificates/Slice0/Obligations.lean ====
section
/-! DEFINITION. The statements about the SCSC, from the numbered rules of the spec. A statement over every primitive `P`
speaks of `execWith P` and `stepWith P`; `ExecIsTheCompletionAtPrim` says that `exec` and `step` are these at
`Config.PRIM`. -/

open Sys2Proof Sys2Proof.Machine

/-! ### Encoding -/

/-- Decoding the word of a command gives the command back, for every operand its fields can hold (30_encoding.md R53,
R54, R56). -/
def Obligations.DecodeOfEncodeIsTheCommand : Prop :=
  ∀ i : Instr, i.wf = true → decodeWord (encode i) = .ok i

/-- Every word that decodes is the encoding of what it decodes to, so each command has one word (R53, R56). -/
def Obligations.EncodeOfDecodeIsTheWord : Prop :=
  ∀ (w : Word) (i : Instr), decodeWord w = .ok i → i.wf = true ∧ encode i = w

/-- The opcode map, and a word decodes to the command of a row exactly when `(w AND mask) = match`; at most one row
matches any word (R55). -/
def Obligations.WordDecodesExactlyToItsRow : Prop :=
  opcodeMap = [⟨"NOP", 0x00000000, 0xFFFFFFFF⟩, ⟨"INIT", 0x00000001, 0xFFFFFC0F⟩,
    ⟨"UPDATE", 0x00000002, 0x0000FFEF⟩, ⟨"CLOSE", 0x00000003, 0xFFFFFFFF⟩] ∧
  ∀ (w : Word) (r : Row), r ∈ opcodeMap →
    ((∃ i, decodeWord w = .ok i ∧ rowOf i = r) ↔ w &&& r.mask = r.pattern) ∧
    (∀ r', r' ∈ opcodeMap → w &&& r.mask = r.pattern → w &&& r'.mask = r'.pattern → r' = r)

/-- The operands of a decoded command are the fields of its word, with no extension or scaling (R54). -/
def Obligations.OperandsAreTheFieldsOfTheWord : Prop :=
  (∀ (w : Word) (c : Nat) (m : Mode) (d : Dir) (v : Bool), decodeWord w = .ok (.init c m d v) →
    c = (w.extractLsb' 4 3).toNat ∧ (m = .cbc ↔ w.getLsbD 7 = true) ∧ (d = .decrypt ↔ w.getLsbD 8 = true) ∧
      v = w.getLsbD 9) ∧
  (∀ (w : Word) (len : Nat) (f : Bool), decodeWord w = .ok (.update len f) →
    len = (w.extractLsb' 16 16).toNat ∧ f = w.getLsbD 4)

/-- The encodings of the common commands (R61), both ways. -/
def Obligations.CommonCommandEncodings : Prop :=
  ∀ x ∈ [(Instr.nop, (0x00000000 : Word)), (.close, 0x00000003),
      (.init 0 .ecb .encrypt false, 0x00000001), (.init 0 .cbc .encrypt false, 0x00000081),
      (.init 0 .cbc .decrypt false, 0x00000181), (.init 1 .cbc .encrypt true, 0x00000291),
      (.init 2 .ecb .encrypt false, 0x00000021), (.init 2 .cbc .encrypt true, 0x000002A1),
      (.init 2 .cbc .decrypt true, 0x000003A1), (.init 4 .cbc .decrypt false, 0x000001C1),
      (.init 5 .ecb .encrypt false, 0x00000051), (.update 0 false, 0x00000002), (.update 0 true, 0x00000012),
      (.update 5 false, 0x00050002), (.update 7 true, 0x00070012), (.update 16 true, 0x00100012),
      (.update 1024 false, 0x04000002), (.update 1025 false, 0x04010002)],
    encode x.1 = x.2 ∧ decodeWord x.2 = .ok x.1

/-- The illegal words are those with a reserved opcode or a reserved bit set, and a command in flight with one completes
with `ERR.CODE = 7` and changes nothing else (R57; that the completion is the agenda's next event is the model's form, log 1). -/
def Obligations.IllegalWordCompletesWithCodeSeven : Prop :=
  (∀ w : Word, (∃ e, decodeWord w = .error e) ↔
    4 ≤ opField w ∨ ((opField w = 0 ∨ opField w = 3) ∧ w >>> 4 ≠ 0) ∨ (opField w = 1 ∧ w >>> 10 ≠ 0) ∨
      (opField w = 2 ∧ w &&& 0x0000FFE0 ≠ 0)) ∧
  (∀ (s : State) (rest : List Event), s.inFlight = true → s.agenda = .complete :: rest →
    (∃ e, decodeWord s.cmd = .error e) →
    ∃ t, step s = .next t ∧ t.readReg .err = 7 ∧
      t = { s with
        err := some .illegalCommand, done := true, busy := false, seq := .idle, staged := Staged.empty, agenda := rest })

/-! ### Steps -/

/-- `exec` and `step` are the completion step and the step at the primitive `Config.PRIM` (44_primitive_adapter.md
R100). -/
def Obligations.ExecIsTheCompletionAtPrim : Prop :=
  (∀ (i : Instr) (s : State), exec i s = execWith Config.PRIM i s) ∧ (∀ s : State, step s = stepWith Config.PRIM s)

/-- A step runs the decoded command in flight: when the sequencer's turn has come, on the agenda or with nothing on it, the
step is `exec` of the command, and with no command in flight neither a completion nor a micro-step does anything
(60_exceptions.md R108; 60_exceptions.md R120; the agenda is the model's, log 1). A word placed by `withFetchWord` is the
command the very next step runs (log 13). -/
def Obligations.StepRunsTheCommandInFlight : Prop :=
  (∀ (s : State) (i : Instr), s.inFlight = true → decodeWord s.cmd = .ok i →
    (s.agenda = [] → step s = exec i s) ∧
    (∀ rest, s.agenda = .complete :: rest → step s = exec i { s with agenda := rest })) ∧
  (∀ s : State, s.inFlight = false →
    (s.agenda = [] → step s = .next s) ∧
    (∀ rest, s.agenda = .complete :: rest ∨ s.agenda = .sequencer :: rest → step s = .next { s with agenda := rest })) ∧
  (∀ (s : State) (w : Word) (i : Instr), decodeWord w = .ok i →
    step (s.withFetchWord 32 w.toNat) = exec i { s.accept w with rst := false })

/-- Every command ends its completion step with `DONE = 1`, `BUSY = 0` and the sequencer idle, and writes none of `CMD`,
`OVR`, `IE`, `KEYLEN` (60_exceptions.md R108; 10_state.md R13, R14, R17, R19). -/
def Obligations.EveryCommandCompletes : Prop :=
  ∀ (i : Instr) (s : State), ∃ t, exec i s = .next t ∧ t.done = true ∧ t.busy = false ∧ t.seq = .idle ∧
    t.staged = Staged.empty ∧ t.cmd = s.cmd ∧ t.ovr = s.ovr ∧ t.doneIe = s.doneIe ∧ t.ovrIe = s.ovrIe ∧
    t.keylen = s.keylen ∧ t.rst = s.rst ∧ t.reply = s.reply ∧ t.agenda = s.agenda

/-- Errors are precise: a failed command changes no state but `ERR.CODE`, `DONE`, `BUSY` (with the sequencer back in
`Q_IDLE`) and, for `INIT`, `KEYSTAGE`; an illegal word is such a command too (60_exceptions.md R109). -/
def Obligations.FailedCommandChangesNothingElse : Prop :=
  (∀ (i : Instr) (s t : State), exec i s = .next t → t.err ≠ none →
    t = { s with err := t.err, done := true, busy := false, seq := .idle, staged := Staged.empty, mem := t.mem } ∧
    ((∀ c m d v, i ≠ .init c m d v) → t.mem = s.mem) ∧
    (∀ o, ¬ Arr.keystage.holds o → Memory.read t.mem o = Memory.read s.mem o)) ∧
  (∀ (s t : State), (∃ e, decodeWord s.cmd = .error e) → completeWith exec s = .next t →
    t = { s with err := some .illegalCommand, done := true, busy := false, seq := .idle, staged := Staged.empty })

/-- The code of a completed command is that of its first failing check, in the order of R111 (60_exceptions.md). -/
def Obligations.ErrorCodeIsTheFirstFailingCheck : Prop :=
  ∀ s : State, ∃ t, completeWith exec s = .next t ∧
    match decodeWord s.cmd with
    | .error _ => t.err = some .illegalCommand
    | .ok .nop => t.err = none
    | .ok .close => t.err = none
    | .ok (.init cipher _ dir _) =>
      if s.session ≠ .idle then t.err = some .usageError
      else match tagOf cipher with
        | none => t.err = some .unsupportedAlgorithm
        | some c =>
          if s.keylen = 0 then t.err = some .invalidKeyMaterial
          else if Prim.keyAccepted Config.PRIM c dir (s.stagedKey c) = false then t.err = some .invalidKeyMaterial
          else t.err = none
    | .ok (.update len final) =>
      match s.session with
      | .idle => t.err = some .usageError
      | .finished _ => t.err = some .usageError
      | .active c =>
        if 1024 < len then t.err = some .chunkTooLong
        else if final = true ∧ c.dir = .decrypt ∧ (s.pblen.toNat + len) % c.bs ≠ 0 then
          t.err = some .misalignedCiphertext
        else
          match runBlocks Config.PRIM c (s.key c) (s.workString len) (s.firstBytes .cv c.bs)
              ((s.pblen.toNat + len) / c.bs) with
          | none => t.err = some .primitiveFailure
          | some (out, cv) =>
            match final, c.dir with
            | false, _ => t.err = none
            | true, .encrypt =>
              if xform Config.PRIM c (s.key c) (padApply (tailOf (s.workString len) c.bs) c.bs) cv = none then
                t.err = some .primitiveFailure
              else t.err = none
            | true, .decrypt => if padStrip out c.bs = none then t.err = some .invalidPadding else t.err = none

/-! ### Session commands -/

/-- `NOP` is the word 0 alone and only completes: `ERR.CODE` becomes 0, `DONE` 1 and `BUSY` 0, in every phase, and all else is
unchanged (40_session.md R62). -/
def Obligations.NopOnlyCompletes : Prop :=
  (∀ w : Word, decodeWord w = .ok .nop ↔ w = 0x00000000) ∧
  (∀ s : State, exec .nop s = .next { s with
    err := none, done := true, busy := false, seq := .idle, staged := Staged.empty })

/-- A successful `INIT`, under every primitive that accepts the key: what it writes, and that it writes nothing else
(40_session.md R63, R64; 43_registry.md R96). -/
def Obligations.InitOpensTheSession : Prop :=
  ∀ (P : Prim) (s : State) (cipher : Nat) (c : Tag) (mode : Mode) (dir : Dir) (ivsrc : Bool),
    s.session = .idle → tagOf cipher = some c → s.keylen ≠ 0 →
    Prim.keyAccepted P c dir (condKey (s.firstBytes .keystage 32) s.keylen.toNat (keySize c)) = true →
    ∃ t, execWith P (.init cipher mode dir ivsrc) s = .next t ∧
      (P = Config.PRIM → exec (.init cipher mode dir ivsrc) s = .next t) ∧ t.err = none ∧ t.done = true ∧ t.busy = false ∧
      t.session = .active { cipher := c, mode := mode, dir := dir, ivsrc := ivsrc && mode.bit } ∧
      t.session.cfgWord = (fieldAt cipher 4 ||| bitAt mode.bit 7 ||| bitAt dir.bit 8 ||| bitAt (ivsrc && mode.bit) 9 |||
        fieldAt (blockSize c) 16 ||| fieldAt (keySize c) 24) ∧
      t.skey.toList = condKey (s.firstBytes .keystage 32) s.keylen.toNat (keySize c) ++ zeros (32 - keySize c) ∧
      t.firstBytes .cv 16 = (if ivsrc = true ∧ mode = .cbc then s.firstBytes .ivstage (blockSize c) else zeros (blockSize c)) ++
        zeros (16 - blockSize c) ∧
      t.pbuf.toList = zeros 16 ∧ t.pblen = 0 ∧ t.blkcnt = 0 ∧ t.padval = 0 ∧ t.firstBytes .keystage 32 = zeros 32 ∧
      t.outlen = s.outlen ∧ t.keylen = s.keylen ∧ t.cmd = s.cmd ∧ t.ovr = s.ovr ∧ t.doneIe = s.doneIe ∧
      t.ovrIe = s.ovrIe ∧ t.rst = s.rst ∧ t.reply = s.reply ∧ t.agenda = s.agenda ∧
      (∀ o, ¬ Arr.cv.holds o → ¬ Arr.keystage.holds o → Memory.read t.mem o = Memory.read s.mem o)

/-- The completion of every `INIT`, whatever its outcome, zeroes `KEYSTAGE` and leaves `KEYLEN` and `IVSTAGE`
(70_reset_and_hazards.md R128; 10_state.md R24, R25). -/
def Obligations.EveryInitZeroesTheStagedKey : Prop :=
  ∀ (s : State) (cipher : Nat) (mode : Mode) (dir : Dir) (ivsrc : Bool),
    ∃ t, exec (.init cipher mode dir ivsrc) s = .next t ∧ t.firstBytes .keystage 32 = zeros 32 ∧ t.keylen = s.keylen ∧
      t.firstBytes .ivstage 16 = s.firstBytes .ivstage 16

/-- The conditioned key: `ks` bytes, the first `min(KEYLEN, ks)` of the staged ones and then zeros, so staged bytes at or
beyond `KEYLEN` are never used (43_registry.md R96). -/
def Obligations.KeyIsTruncatedOrZeroPadded : Prop :=
  ∀ (material : List Byte) (keylen : Nat) (c : Tag), material.length = 32 →
    (condKey material keylen (keySize c)).length = keySize c ∧
    (∀ i, i < keySize c → (condKey material keylen (keySize c)).getD i 0 =
      if i < min keylen (keySize c) then material.getD i 0 else 0) ∧
    (∀ material' : List Byte, material'.take keylen = material.take keylen →
      condKey material' keylen (keySize c) = condKey material keylen (keySize c))

/-- `CLOSE` scrubs the session and its buffers in every phase, never fails, keeps `KEYLEN`, `IVSTAGE` and `IE`, leaves no
primitive handle, and is idempotent: a second one leaves the same state as the first (40_session.md R65, R66). -/
def Obligations.CloseScrubsTheSession : Prop :=
  ∀ s : State, ∃ t, exec .close s = .next t ∧ exec .close t = .next t ∧ t.handle = none ∧ t.err = none ∧ t.done = true ∧
    t.busy = false ∧
    t.session = .idle ∧ t.session.cfgWord = 0 ∧ t.skey.toList = zeros 32 ∧ t.pbuf.toList = zeros 16 ∧ t.pblen = 0 ∧
    t.blkcnt = 0 ∧ t.padval = 0 ∧ t.outlen = 0 ∧ t.firstBytes .cv 16 = zeros 16 ∧ t.firstBytes .keystage 32 = zeros 32 ∧
    t.firstBytes .din 1024 = zeros 1024 ∧ t.firstBytes .dout 1056 = zeros 1056 ∧ t.keylen = s.keylen ∧
    t.firstBytes .ivstage 16 = s.firstBytes .ivstage 16 ∧ t.cmd = s.cmd ∧ t.ovr = s.ovr ∧ t.doneIe = s.doneIe ∧
    t.ovrIe = s.ovrIe ∧ t.rst = s.rst ∧ t.reply = s.reply ∧ t.agenda = s.agenda ∧
    (∀ o, ¬ Arr.cv.holds o → ¬ Arr.keystage.holds o → ¬ Arr.din.holds o → ¬ Arr.dout.holds o →
      Memory.read t.mem o = Memory.read s.mem o)

/-- `PHASE` changes as R29 says and in no other way: by `CLOSE`, by a successful `INIT` from `IDLE`, by a successful final
`UPDATE`; a host access never changes it, nor does a micro-step that leaves the command in flight (10_state.md R29). -/
def Obligations.PhaseChangesOnlyByItsTransitions : Prop :=
  (∀ (i : Instr) (s t : State), exec i s = .next t →
    match i with
    | .nop => t.session = s.session
    | .close => t.session = .idle
    | .init _ _ _ _ => (t.err = none ∧ s.session = .idle ∧ ∃ c, t.session = .active c) ∨ (t.err ≠ none ∧ t.session = s.session)
    | .update _ final => (t.err = none ∧ final = true ∧ ∃ c, s.session = .active c ∧ t.session = .finished c) ∨
        ((t.err ≠ none ∨ final = false) ∧ t.session = s.session)) ∧
  (∀ (a : Access) (s : State), (s.hostAccess a).session = s.session) ∧
  (∀ (P : Prim) (s : State), (microStep P s).busy = true → s.busy = true → (microStep P s).session = s.session) ∧
  (∀ b (s : State), (s.resetPin b).session = .idle)

/-! ### UPDATE -/

/-- The commit of a successful `UPDATE`, under every primitive: what it writes, and that it writes nothing else (41_update.md
R79; `r` is the staged result of R67). -/
def Obligations.UpdateCommitsItsResult : Prop :=
  ∀ (P : Prim) (s : State) (c : CipherSpec) (len : Nat) (final : Bool) (r : Staged), s.session = .active c → len ≤ 1024 →
    ¬ (final = true ∧ c.dir = .decrypt ∧ (s.pblen.toNat + len) % c.bs ≠ 0) →
    updateResult P c (s.key c) (s.workString len) (s.firstBytes .cv c.bs) final = .ok r →
    ∃ t, execWith P (.update len final) s = .next t ∧ (P = Config.PRIM → exec (.update len final) s = .next t) ∧
      t.err = none ∧ t.done = true ∧ t.busy = false ∧
      t.firstBytes .dout 1056 = r.out ++ zeros (1056 - r.out.length) ∧ t.outlen.toNat = r.out.length ∧
      (c.mode = .cbc → t.firstBytes .cv 16 = r.cv ++ zeros (16 - c.bs)) ∧
      (c.mode = .ecb → t.firstBytes .cv 16 = s.firstBytes .cv 16) ∧
      t.pbuf.toList = r.carry ++ zeros (16 - r.carry.length) ∧ t.pblen.toNat = r.carry.length ∧
      t.blkcnt = s.blkcnt + BitVec.ofNat 32 r.cnt ∧ t.padval.toNat = r.pad ∧
      t.session = (if final then .finished c else .active c) ∧
      t.skey = s.skey ∧ t.keylen = s.keylen ∧ t.cmd = s.cmd ∧ t.ovr = s.ovr ∧ t.doneIe = s.doneIe ∧
      t.ovrIe = s.ovrIe ∧ t.rst = s.rst ∧ t.reply = s.reply ∧ t.agenda = s.agenda ∧
      (∀ o, ¬ Arr.dout.holds o → ¬ (Arr.cv.holds o ∧ c.mode = .cbc) → Memory.read t.mem o = Memory.read s.mem o)

/-- What the staged result of an `UPDATE` is: the whole blocks of the work string in order, and then the carry of a
non-final chunk, the transformed pad block of a final encrypt chunk, or the strip of a final decrypt chunk
(41_update.md R67, R70, R77, R78). -/
def Obligations.UpdateResultIsBlocksThenTail : Prop :=
  ∀ (P : Prim) (c : CipherSpec) (k T cv : List Byte) (final : Bool) (r : Staged),
    updateResult P c k T cv final = .ok r ↔
      ∃ out v, runBlocks P c k T cv (T.length / c.bs) = some (out, v) ∧
        match final, c.dir with
        | false, _ => r = { out := out, cv := v, carry := T.drop (T.length / c.bs * c.bs), cnt := T.length / c.bs, pad := 0 }
        | true, .encrypt =>
          ∃ y w, xform P c k (padApply (T.drop (T.length / c.bs * c.bs)) c.bs) v = some (y, w) ∧
            r = { out := out ++ y, cv := w, carry := [], cnt := T.length / c.bs + 1, pad := c.bs - T.length % c.bs }
        | true, .decrypt =>
          ∃ o p, padStrip out c.bs = some (o, p) ∧
            r = { out := o, cv := v, carry := [], cnt := T.length / c.bs, pad := p }

/-- A non-final chunk that does not complete a block is carried whole, with no output and no primitive call
(41_update.md R70). -/
def Obligations.ShortNonFinalChunkIsCarried : Prop :=
  ∀ (s : State) (c : CipherSpec) (len : Nat), s.session = .active c → s.pblen.toNat + len < c.bs →
    ∃ t, exec (.update len false) s = .next t ∧ t.err = none ∧ t.outlen = 0 ∧ t.firstBytes .dout 1056 = zeros 1056 ∧
      t.pbuf.toList.take (s.pblen.toNat + len) = s.pbuf.toList.take s.pblen.toNat ++ s.firstBytes .din len ∧
      t.pblen.toNat = s.pblen.toNat + len ∧ t.blkcnt = s.blkcnt ∧ t.padval = 0 ∧ t.session = s.session ∧
      t.firstBytes .cv c.bs = s.firstBytes .cv c.bs ∧ t.skey = s.skey ∧
      (∀ o, ¬ Arr.dout.holds o → ¬ Arr.cv.holds o → Memory.read t.mem o = Memory.read s.mem o)

/-- A final encrypt chunk is padded: whenever the primitive answers, it outputs `nb + 1` blocks, reports `bs - r` and ends the
session's stream, whatever the length of the chunk (41_update.md R77). -/
def Obligations.FinalEncryptChunkIsPadded : Prop :=
  ∀ (P : Prim) (s : State) (c : CipherSpec) (len : Nat), s.session = .active c → c.dir = .encrypt → len ≤ 1024 →
    (∀ x, Prim.encBlock P c.cipher (s.key c) x ≠ none) →
    ∃ t, execWith P (.update len true) s = .next t ∧ t.err = none ∧
      t.outlen.toNat = ((s.pblen.toNat + len) / c.bs + 1) * c.bs ∧
      t.padval.toNat = c.bs - (s.pblen.toNat + len) % c.bs ∧ t.pblen = 0 ∧ t.pbuf.toList = zeros 16 ∧
      t.blkcnt = s.blkcnt + BitVec.ofNat 32 ((s.pblen.toNat + len) / c.bs + 1) ∧ t.session = .finished c

/-- A final decrypt chunk of whole blocks outputs the decrypted blocks less their padding, or fails with `InvalidPadding`; one
that is not whole blocks is misaligned; one with nothing to decrypt fails, since blocks output by earlier commands are never
revisited (41_update.md R78; 70_reset_and_hazards.md R131). -/
def Obligations.FinalDecryptChunkIsStripped : Prop :=
  (∀ (s : State) (c : CipherSpec) (len : Nat), s.session = .active c → c.dir = .decrypt → len ≤ 1024 →
    ((s.pblen.toNat + len) % c.bs ≠ 0 → exec (.update len true) s = .next (s.finish (some .misalignedCiphertext))) ∧
    (s.pblen.toNat + len = 0 → exec (.update len true) s = .next (s.finish (some .invalidPadding)))) ∧
  (∀ (P : Prim) (s : State) (c : CipherSpec) (len : Nat) (out cv : List Byte) (last : Byte), s.session = .active c →
    c.dir = .decrypt → len ≤ 1024 → (s.pblen.toNat + len) % c.bs = 0 →
    runBlocks P c (s.key c) (s.workString len) (s.firstBytes .cv c.bs) ((s.pblen.toNat + len) / c.bs) = some (out, cv) →
    out.getLast? = some last →
    ∃ t, execWith P (.update len true) s = .next t ∧
      if 1 ≤ last.toNat ∧ last.toNat ≤ c.bs then
        t.err = none ∧ t.outlen.toNat = out.length - last.toNat ∧ t.padval = last ∧
          t.firstBytes .dout t.outlen.toNat = out.take (out.length - last.toNat) ∧ t.session = .finished c ∧ t.pblen = 0
      else t = s.finish (some .invalidPadding))

/-- The output length of a successful `UPDATE`, and its bound (41_update.md R81). -/
def Obligations.OutputLengthOfUpdate : Prop :=
  ∀ (P : Prim) (s t : State) (c : CipherSpec) (len : Nat) (final : Bool), s.session = .active c →
    execWith P (.update len final) s = .next t → t.err = none →
    (match final, c.dir with
      | false, _ => t.outlen.toNat = (s.pblen.toNat + len) / c.bs * c.bs
      | true, .encrypt => t.outlen.toNat = ((s.pblen.toNat + len) / c.bs + 1) * c.bs
      | true, .decrypt => t.outlen.toNat = (s.pblen.toNat + len) / c.bs * c.bs - t.padval.toNat) ∧
    (s.pblen.toNat < c.bs → (c.bs = 16 → t.outlen.toNat ≤ 1040) ∧ (c.bs = 8 → t.outlen.toNat ≤ 1032))

/-- `BLKCNT` advances by the blocks and the pad block of a successful `UPDATE`, modulo `2^32`; a failed one leaves it, and a
successful `INIT`, `CLOSE` and reset zero it (10_state.md R21). -/
def Obligations.BlockCounterCountsCommittedCalls : Prop :=
  (∀ (P : Prim) (s t : State) (len : Nat) (final : Bool), execWith P (.update len final) s = .next t →
    (t.err ≠ none → t.blkcnt = s.blkcnt) ∧
    (∀ c, s.session = .active c → t.err = none → t.blkcnt.toNat = (s.blkcnt.toNat + (s.pblen.toNat + len) / c.bs +
      (if final = true ∧ c.dir = .encrypt then 1 else 0)) % 2 ^ 32)) ∧
  (∀ (P : Prim) (s t : State) (cipher : Nat) (m : Mode) (d : Dir) (v : Bool), execWith P (.init cipher m d v) s = .next t →
    (t.err = none → t.blkcnt = 0) ∧ (t.err ≠ none → t.blkcnt = s.blkcnt)) ∧
  (∀ (P : Prim) (s t : State), execWith P .close s = .next t → t.blkcnt = 0) ∧
  (∀ (b : Bool) (s : State), (s.resetPin b).blkcnt = 0)

/-- `PADVAL` after each command: the pad in `1 .. bs` after a successful final `UPDATE`, 0 after a successful non-final one,
a successful `INIT`, `CLOSE` and reset, and its bits above 7 read 0 (10_state.md R22). -/
def Obligations.PadValueReportsTheLastFinalChunk : Prop :=
  (∀ (P : Prim) (s t : State) (len : Nat) (c : CipherSpec), s.session = .active c → t.err = none →
    (execWith P (.update len true) s = .next t → 1 ≤ t.padval.toNat ∧ t.padval.toNat ≤ c.bs ∧
      (c.dir = .encrypt → t.padval.toNat = c.bs - (s.pblen.toNat + len) % c.bs) ∧
      (c.dir = .decrypt → ∃ out v, runBlocks P c (s.key c) (s.workString len) (s.firstBytes .cv c.bs)
        ((s.pblen.toNat + len) / c.bs) = some (out, v) ∧ out.getLast? = some t.padval)) ∧
    (execWith P (.update len false) s = .next t → t.padval = 0)) ∧
  (∀ (P : Prim) (s t : State) (cipher : Nat) (m : Mode) (d : Dir) (v : Bool), execWith P (.init cipher m d v) s = .next t →
    t.err = none → t.padval = 0) ∧
  (∀ (P : Prim) (s t : State), execWith P .close s = .next t → t.padval = 0) ∧
  (∀ (b : Bool) (s : State), (s.resetPin b).padval = 0) ∧
  (∀ s : State, (s.readReg .padval).toNat = s.padval.toNat)

/-- After a successful final `UPDATE` every further `UPDATE` is a usage error that changes nothing, so padding is applied or
removed once per stream (42_padding.md R90; 10_state.md R29). -/
def Obligations.NothingFollowsTheFinalChunk : Prop :=
  ∀ (P : Prim) (s t : State) (len len' : Nat) (final' : Bool), execWith P (.update len true) s = .next t → t.err = none →
    execWith P (.update len' final') t = .next (t.finish (some .usageError))

/-- `UPDATE` reads the session, the key, the chaining value, the carry and `DIN[0..LEN)` and nothing else: two states alike in
these end with the same code and, when it succeeds, the same output, carry, chaining value, pad and phase, whatever
`KEYSTAGE`, `IVSTAGE`, `KEYLEN` and the rest of `DIN` hold (41_update.md R67; 20_memory.md R46; 70_reset_and_hazards.md
R130). -/
def Obligations.UpdateReadsOnlyItsOperands : Prop :=
  ∀ (s s' t t' : State) (len : Nat) (final : Bool), s'.session = s.session → s'.skey = s.skey → s'.pbuf = s.pbuf →
    s'.pblen = s.pblen → s'.firstBytes .cv 16 = s.firstBytes .cv 16 → s'.firstBytes .din len = s.firstBytes .din len →
    exec (.update len final) s = .next t → exec (.update len final) s' = .next t' →
    t'.err = t.err ∧ t'.session = t.session ∧
    (t.err = none → t'.outlen = t.outlen ∧ t'.firstBytes .dout 1056 = t.firstBytes .dout 1056 ∧ t'.pbuf = t.pbuf ∧
      t'.pblen = t.pblen ∧ t'.padval = t.padval ∧ t'.firstBytes .cv 16 = t.firstBytes .cv 16)

/-! ### Block transforms -/

/-- In ECB each block is transformed alone and the chaining value is not changed; equal input blocks give equal output blocks
(41_update.md R73). -/
def Obligations.EcbTransformsEachBlockAlone : Prop :=
  ∀ (P : Prim) (c : CipherSpec) (k T cv out cv' : List Byte) (n : Nat), c.mode = .ecb → n * c.bs ≤ T.length →
    runBlocks P c k T cv n = some (out, cv') →
    cv' = cv ∧ out.length = n * c.bs ∧
    (∀ j, j < n → (match c.dir with
      | .encrypt => Prim.encBlock P c.cipher k (blockAt T c.bs j)
      | .decrypt => Prim.decBlock P c.cipher k (blockAt T c.bs j)) = some (blockAt out c.bs j)) ∧
    (∀ i j, i < n → j < n → blockAt T c.bs i = blockAt T c.bs j → blockAt out c.bs i = blockAt out c.bs j)

/-- CBC encryption: each block is XORed with the previous ciphertext block, the first with `CV`, before the primitive, and the
chaining value becomes the last ciphertext block (41_update.md R74, R76). -/
def Obligations.CbcEncryptChainsCiphertext : Prop :=
  ∀ (P : Prim) (c : CipherSpec) (k T cv out cv' : List Byte) (n : Nat), c.mode = .cbc → c.dir = .encrypt →
    n * c.bs ≤ T.length → cv.length = c.bs → runBlocks P c k T cv n = some (out, cv') →
    out.length = n * c.bs ∧ cv' = (if n = 0 then cv else blockAt out c.bs (n - 1)) ∧
    (∀ j, j < n → Prim.encBlock P c.cipher k
      (xorBytes (blockAt T c.bs j) (if j = 0 then cv else blockAt out c.bs (j - 1))) = some (blockAt out c.bs j))

/-- CBC decryption: each block is decrypted and then XORed with the previous input block, the first with `CV`, and the
chaining value becomes the last input block (41_update.md R75, R76). -/
def Obligations.CbcDecryptChainsInput : Prop :=
  ∀ (P : Prim) (c : CipherSpec) (k T cv out cv' : List Byte) (n : Nat), c.mode = .cbc → c.dir = .decrypt →
    n * c.bs ≤ T.length → cv.length = c.bs → runBlocks P c k T cv n = some (out, cv') →
    out.length = n * c.bs ∧ cv' = (if n = 0 then cv else blockAt T c.bs (n - 1)) ∧
    (∀ j, j < n → ∃ y, Prim.decBlock P c.cipher k (blockAt T c.bs j) = some y ∧
      blockAt out c.bs j = xorBytes y (if j = 0 then cv else blockAt T c.bs (j - 1)))

/-- What the SCSC relies on of the primitive holds of every `P`: an `ok` answer has exactly `BS(c)` bytes, and tag 0 accepts
every key (44_primitive_adapter.md R100). -/
def Obligations.PrimitiveAnswersWholeBlocks : Prop :=
  ∀ (P : Prim) (c : Tag) (k x y : List Byte),
    (Prim.encBlock P c k x = some y → y.length = blockSize c) ∧
    (Prim.decBlock P c k x = some y → y.length = blockSize c) ∧
    (∀ d, Prim.keyAccepted P .legacy8 d k = true)

/-- The port carries the primitive calls faithfully: serving the request of a block or of a key check gives the answer of the
primitive's function on the session's key and the block (44_primitive_adapter.md R102, R106). -/
def Obligations.PortCarriesThePrimitiveCalls : Prop :=
  (∀ (P : Prim) (c : CipherSpec) (skey : Vector Byte 32) (x : List Byte), x.length = c.bs →
    (match c.dir with
      | .encrypt => Prim.encBlock P c.cipher (skey.toList.take c.ks) x
      | .decrypt => Prim.decBlock P c.cipher (skey.toList.take c.ks) x) =
    if (Prim.serve P (blockRequest c skey.toList x)).ok then
      some (unpackBytes (Prim.serve P (blockRequest c skey.toList x)).out c.bs)
    else none) ∧
  (∀ (P : Prim) (c : Tag) (d : Dir) (k : List Byte), k.length = keySize c →
    (Prim.serve P (keyRequest c d k)).ok = Prim.keyAccepted P c d k)

/-! ### Padding -/

/-- `pad_length` is `bs - (rem mod bs)`, always in `1 .. bs`, `bs` exactly on a multiple of `bs`, and it completes the block
(42_padding.md R85). -/
def Obligations.PadLengthIsInOneToBlock : Prop :=
  ∀ (rem bs : Nat), bs = 8 ∨ bs = 16 →
    padLength rem bs = bs - rem % bs ∧ 1 ≤ padLength rem bs ∧ padLength rem bs ≤ bs ∧
      (padLength rem bs = bs ↔ rem % bs = 0) ∧ (rem + padLength rem bs) % bs = 0

/-- `pad_apply` returns one full block: the tail and then `p` bytes each of value `p` (42_padding.md R86). -/
def Obligations.PadBlockEndsInItsLength : Prop :=
  ∀ (tail : List Byte) (bs : Nat), bs = 8 ∨ bs = 16 → tail.length < bs →
    (padApply tail bs).length = bs ∧ (padApply tail bs).take tail.length = tail ∧
      (∀ b ∈ (padApply tail bs).drop tail.length, b.toNat = bs - tail.length) ∧
      bs - tail.length = padLength tail.length bs ∧ (tail = [] → padApply tail bs = rep bs (BitVec.ofNat 8 bs))

/-- `pad_strip` succeeds exactly on a nonempty output whose last byte `p` has `1 <= p <= bs` and `p <= len(out)`, and returns
the output less its last `p` bytes, and `p`; it examines only the last byte, and the others may be anything (42_padding.md
R87, R88). -/
def Obligations.StripTakesTheLastByte : Prop :=
  (∀ (out : List Byte) (bs : Nat) (o : List Byte) (p : Nat),
    padStrip out bs = some (o, p) ↔
      ∃ front last, out = front ++ [last] ∧ p = last.toNat ∧ p ≠ 0 ∧ p ≤ bs ∧ p ≤ out.length ∧
        o = out.take (out.length - p)) ∧
  (∀ (front front' : List Byte) (last : Byte) (bs : Nat) (o : List Byte) (p : Nat), front.length = front'.length →
    padStrip (front ++ [last]) bs = some (o, p) →
    padStrip (front' ++ [last]) bs = some ((front' ++ [last]).take (front'.length + 1 - p), p))

/-- Stripping what was padded gives it back: the tail's own bytes and the pad length (42_padding.md R86, R87). -/
def Obligations.StripUndoesPad : Prop :=
  ∀ (front tail : List Byte) (bs : Nat), bs = 8 ∨ bs = 16 → tail.length < bs →
    padStrip (front ++ padApply tail bs) bs = some (front ++ tail, bs - tail.length)

/-! ### Streams -/

/-- Chunking invariance, encrypt: two deliveries of one stream in chunks of at most 1024 bytes, of any number and split in any
way, give the same concatenated output and leave the same chaining value, under every primitive; that one delivery
succeeds means the other does (41_update.md R82). -/
def Obligations.EncryptOutputIgnoresChunking : Prop :=
  ∀ (P : Prim) (s t : State) (c : CipherSpec) (cs ds : List (List Byte)) (out : List Byte), s.session = .active c →
    c.dir = .encrypt → cs.flatten = ds.flatten → ds ≠ [] → (∀ d ∈ ds, d.length ≤ 1024) →
    feedAll P cs s = some (t, out) →
    ∃ u, feedAll P ds s = some (u, out) ∧ u.firstBytes .cv c.bs = t.firstBytes .cv c.bs

/-- Chunking invariance, decrypt: the same, provided the final command's work string holds at least one whole block
(41_update.md R82). -/
def Obligations.DecryptOutputIgnoresChunking : Prop :=
  ∀ (P : Prim) (s t : State) (c : CipherSpec) (cs ds : List (List Byte)) (out : List Byte), s.session = .active c →
    c.dir = .decrypt → cs.flatten = ds.flatten → ds ≠ [] → (∀ d ∈ ds, d.length ≤ 1024) →
    c.bs ≤ finalWork c.bs s.pblen.toNat ds → feedAll P cs s = some (t, out) →
    ∃ u, feedAll P ds s = some (u, out) ∧ u.firstBytes .cv c.bs = t.firstBytes .cv c.bs

/-- Round trip: under the named law of the primitive, decrypting the ciphertext of a stream, in any chunks whose final command
holds a whole block, gives the stream back, for every length and both modes (41_update.md R83). -/
def Obligations.DecryptUndoesEncrypt : Prop :=
  ∀ (P : Prim) (e d t : State) (c : CipherSpec) (cs ds : List (List Byte)) (out : List Byte), RoundTripLaw P →
    e.session = .active c → c.dir = .encrypt → d.session = .active { c with dir := .decrypt } → e.pblen = 0 →
    d.pblen = 0 → d.key c = e.key c → d.firstBytes .cv c.bs = e.firstBytes .cv c.bs →
    feedAll P cs e = some (t, out) → ds.flatten = out → (∀ x ∈ ds, x.length ≤ 1024) → c.bs ≤ finalWork c.bs 0 ds →
    ∃ u, feedAll P ds d = some (u, cs.flatten)

/-! ### Bus -/

/-- Every offset of the window belongs to exactly one row of the map, and it is the row `placeOf` reads; the registers and
arrays stand at their offsets (20_memory.md R36; 10_state.md R10). -/
def Obligations.EveryOffsetHasOneRow : Prop :=
  (∀ off, off < 4096 → ∃ r ∈ windowMap, r.lo ≤ off ∧ off ≤ r.hi ∧ placeOf off = r.place ∧
    (∀ r' ∈ windowMap, r'.lo ≤ off → off ≤ r'.hi → r' = r)) ∧
  (∀ (off : Nat) (r : Reg), placeOf off = some (.reg r) ↔ r.offset ≤ off ∧ off < r.offset + 4) ∧
  (∀ (off : Nat) (a : Arr), placeOf off = some (.arr a) ↔ a.holds off)

/-- An access is taken exactly when it is a 32-bit access with all lanes at a multiple of 4 of a mapped offset, reset not being
asserted; any other changes no state and gets an error response with data 0 (20_memory.md R37, R38). -/
def Obligations.AccessNotTakenIsABusError : Prop :=
  ∀ (s : State) (a : Access) (off : Nat), s.rst = false →
    if a.size = .word ∧ off % 4 = 0 ∧ a.lanes = 0xF ∧ placeOf off ≠ none then
      ∃ v, (s.busAccess a off).reply = some ⟨false, v⟩
    else s.busAccess a off = { s with reply := some ⟨true, 0⟩ }

/-- A taken read returns what R41 says and changes no state (20_memory.md R41). -/
def Obligations.ReadReturnsItsPlaceAndChangesNothing : Prop :=
  ∀ (s : State) (a : Access) (off : Nat) (p : Place), a.kind = .read → s.takenAt a off = some p →
    ∃ v, s.busAccess a off = { s with reply := some ⟨false, v⟩ } ∧
      match p with
      | .reg .cmd => v = s.cmd
      | .reg .status => v = (bitAt s.busy 0 ||| bitAt s.done 1 ||| bitAt (decide (errCode s.err ≠ 0)) 2 ||| bitAt s.ovr 3 |||
          fieldAt (phaseCode s.session) 4 ||| fieldAt s.pblen.toNat 8)
      | .reg .err => v.toNat = errCode s.err
      | .reg .ie => v = (bitAt s.doneIe 1 ||| bitAt s.ovrIe 3)
      | .reg .cfg => v = s.session.cfgWord
      | .reg .keylen => v = s.keylen
      | .reg .outlen => v = s.outlen
      | .reg .blkcnt => v = s.blkcnt
      | .reg .padval => v.toNat = s.padval.toNat
      | .reg .id => v = 0x53430100
      | .arr .keystage => v = 0
      | .arr .ivstage => ∀ j, j < 4 → v.extractLsb' (8 * j) 8 = Memory.read s.mem (off + j)
      | .arr .cv => ∀ j, j < 4 → v.extractLsb' (8 * j) 8 = Memory.read s.mem (off + j)
      | .arr .din => ∀ j, j < 4 → v.extractLsb' (8 * j) 8 = Memory.read s.mem (off + j)
      | .arr .dout => ∀ j, j < 4 → v.extractLsb' (8 * j) 8 = Memory.read s.mem (off + j)

/-- The fields of `STATUS` stand at their bits and the reserved bits read 0 (10_state.md R14). -/
def Obligations.StatusFieldsAtTheirBits : Prop :=
  ∀ s : State, (s.readReg .status).getLsbD 0 = s.busy ∧ (s.readReg .status).getLsbD 1 = s.done ∧
    ((s.readReg .status).getLsbD 2 = true ↔ (s.readReg .err).toNat ≠ 0) ∧ (s.readReg .status).getLsbD 3 = s.ovr ∧
    ((s.readReg .status).extractLsb' 4 2).toNat = phaseCode s.session ∧
    (s.readReg .status).extractLsb' 6 2 = 0 ∧ (s.readReg .status).extractLsb' 8 4 = s.pblen ∧
    (s.readReg .status).extractLsb' 12 20 = 0

/-- `CFG` holds the session's tag, mode, direction, IV source and sizes at their bits, its reserved bits read 0, and it is 0
while `PHASE = IDLE` (10_state.md R18). -/
def Obligations.CfgFieldsAtTheirBits : Prop :=
  (∀ s : State, s.session = .idle → s.readReg .cfg = 0) ∧
  (∀ (s : State) (c : CipherSpec), s.session.cfg? = some c →
    (s.readReg .cfg).extractLsb' 0 4 = 0 ∧ tagOf ((s.readReg .cfg).extractLsb' 4 3).toNat = some c.cipher ∧
    ((s.readReg .cfg).getLsbD 7 = true ↔ c.mode = .cbc) ∧ ((s.readReg .cfg).getLsbD 8 = true ↔ c.dir = .decrypt) ∧
    (s.readReg .cfg).getLsbD 9 = c.ivsrc ∧ (s.readReg .cfg).extractLsb' 10 6 = 0 ∧
    ((s.readReg .cfg).extractLsb' 16 8).toNat = blockSize c.cipher ∧
    ((s.readReg .cfg).extractLsb' 24 8).toNat = keySize c.cipher)

/-- A taken write does what R42 says of its region and nothing else: an acceptance or a drop, the sticky bits cleared, a
register or four bytes stored, lowest byte at the lowest offset, or nothing for a read-only place, always with a normal
response (20_memory.md R42; the write half of R39; 60_exceptions.md R107). -/
def Obligations.TakenWriteByRegion : Prop :=
  ∀ (s : State) (a : Access) (off : Nat) (p : Place) (w : Word), a.kind = .write w → s.takenAt a off = some p →
    match p with
    | .reg .cmd => s.busAccess a off =
        if s.busy then { s with ovr := true, reply := some ⟨false, 0⟩ }
        else { s with cmd := w, busy := true, seq := .decode, staged := Staged.empty, reply := some ⟨false, 0⟩ }
    | .reg .status => s.busAccess a off = { s with
        done := s.done && !w.getLsbD 1, ovr := s.ovr && !w.getLsbD 3, reply := some ⟨false, 0⟩ }
    | .reg .ie => s.busAccess a off = { s with doneIe := w.getLsbD 1, ovrIe := w.getLsbD 3, reply := some ⟨false, 0⟩ }
    | .reg .keylen => s.busAccess a off =
        if s.busy then { s with ovr := true, reply := some ⟨false, 0⟩ } else { s with keylen := w, reply := some ⟨false, 0⟩ }
    | .arr .keystage | .arr .ivstage | .arr .din =>
      if s.busy then s.busAccess a off = { s with ovr := true, reply := some ⟨false, 0⟩ }
      else s.busAccess a off = { s with mem := (s.busAccess a off).mem, reply := some ⟨false, 0⟩ } ∧
        (∀ j, j < 4 → Memory.read (s.busAccess a off).mem (off + j) = w.extractLsb' (8 * j) 8) ∧
        (∀ o, ¬ (off ≤ o ∧ o < off + 4) → Memory.read (s.busAccess a off).mem o = Memory.read s.mem o)
    | .reg .err | .reg .cfg | .reg .outlen | .reg .blkcnt | .reg .padval | .reg .id | .arr .cv | .arr .dout =>
      s.busAccess a off = { s with reply := some ⟨false, 0⟩ }

/-- A write to `CMD`, `KEYLEN`, `KEYSTAGE`, `IVSTAGE` or `DIN` while `BUSY = 1` is dropped: a normal response, and its only
effect is `OVR <- 1` (20_memory.md R43). -/
def Obligations.DroppedWriteOnlySetsOverrun : Prop :=
  ∀ (s : State) (a : Access) (off : Nat) (p : Place) (w : Word), a.kind = .write w → s.takenAt a off = some p →
    s.busy = true →
    p ∈ [Place.reg .cmd, .reg .keylen, .arr .keystage, .arr .ivstage, .arr .din] →
    s.busAccess a off = { s with ovr := true, reply := some ⟨false, 0⟩ }

/-- Repeating a write to `KEYLEN`, `KEYSTAGE`, `IVSTAGE`, `DIN` or `IE` leaves the same state, in every state whose memory is in
canonical form (20_memory.md R44). -/
def Obligations.StagingWritesAreIdempotent : Prop :=
  ∀ (s : State) (a : Access) (off : Nat) (p : Place) (w : Word), Memory.wf s.mem = true → a.kind = .write w →
    s.takenAt a off = some p →
    p ∈ [Place.reg .keylen, .reg .ie, .arr .keystage, .arr .ivstage, .arr .din] →
    (s.busAccess a off).busAccess a off = s.busAccess a off

/-- The window stands at every 4096-byte aligned `BASE`, and an access outside it changes nothing and gets no reply from the
SCSC (20_memory.md R35, R36). -/
def Obligations.WindowStandsAtBase : Prop :=
  Config.BASE % 4096 = 0 ∧
  (∀ (s : State) (a : Access) (off : Nat), off < 4096 → a.addr = Config.BASE + off → s.hostAccess a = s.busAccess a off) ∧
  (∀ (s : State) (a : Access), ¬ (Config.BASE ≤ a.addr ∧ a.addr < Config.BASE + 4096) →
    s.hostAccess a = { s with reply := none })

/-- While a command is in flight a step that does not complete it changes nothing but `DONE`, `OVR`, `IE`, the sequencer's
hidden micro-state and the model's own fields, so every place but `STATUS` and `IE` reads as it did at acceptance
(10_state.md R15; 20_memory.md R46, R47). -/
def Obligations.BusyStateIsFrozen : Prop :=
  ∀ s t : State, s.busy = true → step s = .next t → t.busy = true →
    t = { s with
      done := t.done, ovr := t.ovr, doneIe := t.doneIe, ovrIe := t.ovrIe, seq := t.seq, staged := t.staged,
      reply := t.reply, agenda := t.agenda } ∧
    (∀ (p : Place) (off : Nat), p ≠ .reg .status → p ≠ .reg .ie → t.readPlace p off = s.readPlace p off)

/-- No bus access shows the session key, the carry or the staged key: two states that differ only there give the same reply
and the same `irq`, and stay alike (10_state.md R24, R30, R31; 60_exceptions.md R116). -/
def Obligations.SecretsNeverReachTheBus : Prop :=
  ∀ (s t : State) (a : Access), SameButSecrets s t →
    (t.hostAccess a).reply = (s.hostAccess a).reply ∧ (t.hostAccess a).irq = (s.hostAccess a).irq ∧
      SameButSecrets (s.hostAccess a) (t.hostAccess a)

/-- `LOADB` stores a byte string into a staging array, fills its short last group with zeros, and changes no other byte
(30_encoding.md R60). -/
def Obligations.LoadbStoresTheBytes : Prop :=
  ∀ (s : State) (a : Arr) (bytes : List Byte), a ∈ [Arr.keystage, .ivstage, .din] → bytes.length ≤ a.size →
    s.busy = false → s.rst = false →
    ∃ t, Host.Core.run Sys2Proof.core (loadb a bytes).length { s with agenda := loadb a bytes } = .next t ∧
      t = { s with mem := t.mem, reply := t.reply, agenda := [] } ∧ t.firstBytes a bytes.length = bytes ∧
      (∀ o, a.base + bytes.length ≤ o → o < a.base + (bytes.length + 3) / 4 * 4 → Memory.read t.mem o = 0) ∧
      (∀ o, ¬ (a.base ≤ o ∧ o < a.base + (bytes.length + 3) / 4 * 4) → Memory.read t.mem o = Memory.read s.mem o)

/-- `ISSUE` and then a completion run the command: the write of its word to `CMD` is accepted while no command is in flight,
and the next step of the sequencer is the command's (30_encoding.md R60; 60_exceptions.md R107, R108; the agenda is the
model's, log 1). -/
def Obligations.IssueThenCompletionRunsTheCommand : Prop :=
  ∀ (s : State) (i : Instr), i.wf = true → s.busy = false → s.rst = false →
    Host.Core.run Sys2Proof.core 2 { s with agenda := issue i } =
      exec i { s with
        cmd := encode i, busy := true, seq := .decode, staged := Staged.empty, reply := some ⟨false, 0⟩, agenda := [] }

/-! ### Interrupt and reset -/

/-- The interrupt output is `(DONE AND DONE_IE) OR (OVR AND OVR_IE)`; it is enabled by the `IE` bits, and a `STATUS` write of a
pending bit takes that bit's share away and leaves the other's (60_exceptions.md R113). -/
def Obligations.InterruptFollowsStatusAndEnables : Prop :=
  ∀ s : State, s.rst = false →
    s.irq = ((s.done && s.doneIe) || (s.ovr && s.ovrIe)) ∧
    (∀ w : Word, (s.writeReg .status w).irq =
      ((s.done && !w.getLsbD 1 && s.doneIe) || (s.ovr && !w.getLsbD 3 && s.ovrIe))) ∧
    (∀ w : Word, (s.writeReg .ie w).irq = ((s.done && w.getLsbD 1) || (s.ovr && w.getLsbD 3)))

/-- The reset state: every register but `ID` and every array read 0, `SKEY` and `PBUF` are all zero, the sequencer is idle, there
is no primitive handle and `irq` is 0 (70_reset_and_hazards.md R122). -/
def Obligations.ResetStateReadsZero : Prop :=
  (∀ (p : Place) (off : Nat), placeOf off = some p →
    State.reset.readPlace p off = if p = .reg .id then 0x53430100 else 0) ∧
  (∀ a : Arr, State.reset.firstBytes a a.size = zeros a.size) ∧ State.reset.skey.toList = zeros 32 ∧
  State.reset.pbuf.toList = zeros 16 ∧ State.reset.seq = .idle ∧ State.reset.handle = none ∧ State.reset.irq = false

/-- While reset is asserted every access to the window gets a bus error, no primitive request is made, nothing completes and
`irq` is 0; on release the state is the reset state; a command in flight is abandoned with nothing committed
(70_reset_and_hazards.md R121, R123). -/
def Obligations.ResetAbandonsEverything : Prop :=
  (∀ (s : State) (b : Bool) (rest : List Event), s.agenda = .reset b :: rest →
    step s = .next { State.reset with rst := b, agenda := rest }) ∧
  (∀ (s : State), s.rst = true → s.irq = false ∧ s.port = none ∧
    (∀ (a : Access) (off : Nat), s.busAccess a off = { s with reply := some ⟨true, 0⟩ }) ∧
    (∀ rest, s.agenda = .complete :: rest ∨ s.agenda = .sequencer :: rest → step s = .next { s with agenda := rest }))

/-! ### The whole machine -/

/-- The reset state meets the invariants (10_state.md R33). -/
def Obligations.ResetMeetsTheInvariants : Prop := Inv State.reset

/-- Every step keeps the invariants: of the session registers, the output buffer and the memory (10_state.md R33), and of the
model's micro-state. -/
def Obligations.StepKeepsTheInvariants : Prop := ∀ s t : State, Inv s → step s = .next t → Inv t

/-- While the primitive always answers, no run ever stops: every command error and every bus error is an outcome the machine
goes on from (60_exceptions.md R112, R115). -/
def Obligations.NoRunStopsWhileThePrimitiveAnswers : Prop := ∀ s : State, primitiveAnswers s → SafeRun s

/-- A command in flight that no reset abandons completes after finitely many steps: some step, no later than the first after
the last event of the agenda, takes the state from `BUSY = 1` with the same command word to `BUSY = 0` and `DONE = 1`
(00_scope.md R9; 60_exceptions.md R108; 70_reset_and_hazards.md R134; the agenda is the model's, log 1). -/
def Obligations.CommandInFlightCompletes : Prop :=
  ∀ s : State, s.inFlight = true → primitiveAnswers s → (∀ b, Event.reset b ∉ s.agenda) →
    ∃ k t u, k ≤ s.agenda.length ∧ Host.Core.run Sys2Proof.core k s = .next t ∧ t.busy = true ∧ t.cmd = s.cmd ∧
      step t = .next u ∧ u.busy = false ∧ u.done = true

/-- The sequencer's micro-steps refine the completion step: from acceptance, and from every micro-state a run reaches, at most
140 micro-steps end in exactly the state of the atomic completion (42_padding.md R91; 20_memory.md R46; 41_update.md
R84). -/
def Obligations.SequencerRefinesTheCompletionStep : Prop :=
  ∀ s : State, s.inFlight = true → s.seq = .decode ∨ Inv s →
    ∃ k, k ≤ 140 ∧ Host.Core.run Sys2Proof.core k { s with agenda := List.replicate k .sequencer } =
      step { s with agenda := [.complete] }
end

