-- ==== Sys2Proof/Laws/Memory.lean ====
section
/-! SUPPORT. Laws of the window's memory: what a byte reads as after each operation, and that every operation keeps the
canonical form. -/

namespace Sys2Proof.Machine

/-! ### Reading after an operation -/

@[simp] theorem Memory.read_nil (a : Nat) : Memory.read [] a = 0 := rfl

theorem Memory.read_cons (c : Host.Cell) (m : Memory) (a : Nat) :
    Memory.read (c :: m) a = if c.1 = a then c.2 else Memory.read m a := rfl

theorem Memory.read_clear (m : Memory) (lo n a : Nat) :
    Memory.read (Memory.clear m lo n) a = if lo ≤ a ∧ a < lo + n then 0 else Memory.read m a := by
  induction m with
  | nil => simp [Memory.clear]
  | cons c m ih =>
    simp only [Memory.clear] at ih ⊢
    by_cases hc : c.1 < lo ∨ lo + n ≤ c.1
    · rw [List.filter_cons_of_pos (by simpa using hc), Memory.read_cons, ih, Memory.read_cons]
      split_ifs <;> first | rfl | omega
    · rw [List.filter_cons_of_neg (by simpa using hc), ih, Memory.read_cons]
      split_ifs <;> first | rfl | omega

theorem Memory.read_insert (m : Memory) (a : Nat) (v : Byte) (b : Nat) (h : ∀ c ∈ m, c.1 ≠ a) :
    Memory.read (Memory.insert m a v) b = if a = b then v else Memory.read m b := by
  induction m with
  | nil => rfl
  | cons c m ih =>
    have hc := h c (by simp)
    have ih' := ih (fun d hd => h d (by simp [hd]))
    simp only [Memory.insert]
    split
    · simp only [Memory.read_cons]
    · rw [Memory.read_cons, ih', Memory.read_cons]
      split_ifs <;> first | rfl | omega

theorem Memory.not_mem_clear (m : Memory) (a : Nat) : ∀ c ∈ Memory.clear m a 1, c.1 ≠ a := by
  intro c hc
  simp only [Memory.clear, List.mem_filter, decide_eq_true_eq] at hc
  omega

/-- A byte reads as the value stored at it, and every other byte as before. -/
theorem Memory.read_write (m : Memory) (a : Nat) (v : Byte) (b : Nat) :
    Memory.read (Memory.write m a v) b = if a = b then v else Memory.read m b := by
  unfold Memory.write
  split
  · rename_i hv
    rw [Memory.read_clear, hv]
    split_ifs <;> first | rfl | omega
  · rw [Memory.read_insert _ _ _ _ (Memory.not_mem_clear m a), Memory.read_clear]
    split_ifs <;> first | rfl | omega

theorem Memory.read_writeBytes (m : Memory) (a : Nat) (l : List Byte) (b : Nat) :
    Memory.read (Memory.writeBytes m a l) b
      = if a ≤ b ∧ b < a + l.length then l.getD (b - a) 0 else Memory.read m b := by
  induction l generalizing m a with
  | nil => simp [Memory.writeBytes]
  | cons v l ih =>
    rw [Memory.writeBytes, ih, Memory.read_write]
    simp only [List.length_cons]
    by_cases h : a = b
    · subst h
      simp
    · by_cases h2 : a + 1 ≤ b ∧ b < a + 1 + l.length
      · rw [if_pos h2, if_pos (by omega), show b - a = (b - (a + 1)) + 1 by omega, List.getD_cons_succ]
      · rw [if_neg h2, if_neg h, if_neg (by omega)]

@[simp] theorem Memory.length_readBytes (m : Memory) (a n : Nat) : (Memory.readBytes m a n).length = n := by
  simp [Memory.readBytes]

@[simp] theorem Memory.getElem_readBytes (m : Memory) (a n i : Nat) (h : i < (Memory.readBytes m a n).length) :
    (Memory.readBytes m a n)[i] = Memory.read m (a + i) := by
  simp [Memory.readBytes]

theorem Memory.readBytes_congr (m m' : Memory) (a n : Nat) (h : ∀ i, i < n → Memory.read m (a + i) = Memory.read m' (a + i)) :
    Memory.readBytes m a n = Memory.readBytes m' a n := by
  apply List.ext_getElem (by simp)
  intro i hi _
  simp at hi
  simp [h i hi]

theorem Memory.readBytes_take (m : Memory) (a n k : Nat) (h : k ≤ n) :
    (Memory.readBytes m a n).take k = Memory.readBytes m a k := by
  apply List.ext_getElem
  · simp; omega
  · intro i h1 h2
    simp

/-- Reading back a string that was just stored. -/
theorem Memory.readBytes_writeBytes (m : Memory) (a : Nat) (l : List Byte) :
    Memory.readBytes (Memory.writeBytes m a l) a l.length = l := by
  apply List.ext_getElem (by simp)
  intro i hi h2
  simp only [Memory.length_readBytes] at hi
  rw [Memory.getElem_readBytes, Memory.read_writeBytes, if_pos (by omega), show a + i - a = i by omega]
  exact (List.getElem_eq_getD (0 : Byte)).symm

/-! ### The canonical form -/

theorem Memory.wf_iff (m : Memory) :
    Memory.wf m = true ↔ m.Pairwise (fun c d => c.1 < d.1) ∧ ∀ c ∈ m, c.2 ≠ 0 := by
  simp [Memory.wf]

theorem Memory.mem_insert (m : Memory) (a : Nat) (v : Byte) (c : Host.Cell) :
    c ∈ Memory.insert m a v ↔ c = (a, v) ∨ c ∈ m := by
  induction m with
  | nil => simp [Memory.insert]
  | cons d m ih =>
    simp only [Memory.insert]
    split
    · simp
    · simp only [List.mem_cons, ih]; tauto

theorem Memory.clear_wf (m : Memory) (lo n : Nat) (h : Memory.wf m = true) : Memory.wf (Memory.clear m lo n) = true := by
  rw [Memory.wf_iff] at h ⊢
  exact ⟨h.1.filter _, fun c hc => h.2 c (List.mem_of_mem_filter hc)⟩

theorem Memory.insert_wf (m : Memory) (a : Nat) (v : Byte) (h : Memory.wf m = true) (hv : v ≠ 0)
    (ha : ∀ c ∈ m, c.1 ≠ a) : Memory.wf (Memory.insert m a v) = true := by
  rw [Memory.wf_iff] at h ⊢
  refine ⟨?_, fun c hc => ?_⟩
  · induction m with
    | nil => simp [Memory.insert]
    | cons d m ih =>
      obtain ⟨hp, hz⟩ := h
      rw [List.pairwise_cons] at hp
      simp only [Memory.insert]
      split
      · rename_i hd
        rw [List.pairwise_cons, List.pairwise_cons]
        refine ⟨fun c hc => ?_, hp⟩
        rcases List.mem_cons.mp hc with rfl | hc
        · exact hd
        · exact lt_trans hd (hp.1 c hc)
      · rename_i hd
        rw [List.pairwise_cons]
        refine ⟨fun c hc => ?_, ih ⟨hp.2, fun c hc => hz c (by simp [hc])⟩ (fun c hc => ha c (by simp [hc]))⟩
        rcases (Memory.mem_insert m a v c).mp hc with rfl | hc
        · have := ha d (by simp)
          show d.1 < a
          omega
        · exact hp.1 c hc
  · rcases (Memory.mem_insert m a v c).mp hc with rfl | hc
    · exact hv
    · exact h.2 c hc

theorem Memory.write_wf (m : Memory) (a : Nat) (v : Byte) (h : Memory.wf m = true) : Memory.wf (Memory.write m a v) = true := by
  unfold Memory.write
  split
  · exact Memory.clear_wf m a 1 h
  · rename_i hv
    exact Memory.insert_wf _ a v (Memory.clear_wf m a 1 h) hv (Memory.not_mem_clear m a)

theorem Memory.writeBytes_wf (m : Memory) (a : Nat) (l : List Byte) (h : Memory.wf m = true) :
    Memory.wf (Memory.writeBytes m a l) = true := by
  induction l generalizing m a with
  | nil => exact h
  | cons v l ih => exact ih _ _ (Memory.write_wf m a v h)

/-- Where the cells of a memory after a store come from. -/
theorem Memory.mem_writeBytes (m : Memory) (a : Nat) (l : List Byte) (c : Host.Cell)
    (h : c ∈ Memory.writeBytes m a l) : c ∈ m ∨ (a ≤ c.1 ∧ c.1 < a + l.length) := by
  induction l generalizing m a with
  | nil => exact .inl h
  | cons v l ih =>
    rcases ih _ _ h with hc | hc
    · unfold Memory.write at hc
      split at hc
      · exact .inl (List.mem_of_mem_filter hc)
      · rcases (Memory.mem_insert _ _ _ _).mp hc with rfl | hc
        · right; simp
        · exact .inl (List.mem_of_mem_filter hc)
    · right; simp only [List.length_cons]; omega

theorem Memory.mem_clear (m : Memory) (lo n : Nat) (c : Host.Cell) (h : c ∈ Memory.clear m lo n) : c ∈ m :=
  List.mem_of_mem_filter h

/-! ### The arrays -/

/-- Two arrays have no offset in common. -/
theorem Arr.disjoint (a b : Arr) (o : Nat) (ha : a.base ≤ o ∧ o < a.base + a.size) (hb : b.base ≤ o ∧ o < b.base + b.size) :
    a = b := by
  cases a <;> cases b <;>
    simp [Arr.base, Arr.size, Config.KS_MAX, Config.BS_MAX, Config.CHUNK_MAX, Config.DOUT_SIZE] at * <;> omega

@[simp] theorem State.length_firstBytes (s : State) (a : Arr) (n : Nat) : (s.firstBytes a n).length = n := by
  simp [State.firstBytes]

theorem State.firstBytes_take (s : State) (a : Arr) (n k : Nat) (h : k ≤ n) : (s.firstBytes a n).take k = s.firstBytes a k :=
  Memory.readBytes_take _ _ _ _ h

/-- A byte of an array after the array is set. -/
theorem State.byte_setArr (s : State) (a : Arr) (l : List Byte) (i : Nat) (h : i < a.size) :
    (s.setArr a l).byte a i = l.getD i 0 := by
  simp only [State.byte, State.setArr, Memory.read_writeBytes, Memory.read_clear, List.length_take]
  by_cases hl : i < l.length
  · rw [if_pos (by omega), show a.base + i - a.base = i by omega]
    simp [List.getD_eq_getElem?_getD, h]
  · rw [if_neg (by omega), if_pos (by omega), List.getD_eq_default _ _ (by omega)]

/-- A byte outside an array is as before when the array is set. -/
theorem State.read_setArr_other (s : State) (a : Arr) (l : List Byte) (o : Nat) (h : ¬(a.base ≤ o ∧ o < a.base + a.size)) :
    Memory.read (s.setArr a l).mem o = Memory.read s.mem o := by
  simp only [State.setArr, Memory.read_writeBytes, Memory.read_clear, List.length_take]
  rw [if_neg (by omega), if_neg (by omega)]

theorem State.byte_setArr_ne (s : State) (a b : Arr) (l : List Byte) (i : Nat) (h : i < b.size) (hab : a ≠ b) :
    (s.setArr a l).byte b i = s.byte b i :=
  State.read_setArr_other s a l _ (fun ha => hab (Arr.disjoint a b _ ha ⟨by omega, by omega⟩))

theorem State.byte_clearArr (s : State) (a : Arr) (i : Nat) (h : i < a.size) : (s.clearArr a).byte a i = 0 := by
  simp only [State.byte, State.clearArr, Memory.read_clear]
  rw [if_pos (by omega)]

theorem State.read_clearArr_other (s : State) (a : Arr) (o : Nat) (h : ¬(a.base ≤ o ∧ o < a.base + a.size)) :
    Memory.read (s.clearArr a).mem o = Memory.read s.mem o := by
  simp only [State.clearArr, Memory.read_clear]
  rw [if_neg (by omega)]

theorem State.byte_clearArr_ne (s : State) (a b : Arr) (i : Nat) (h : i < b.size) (hab : a ≠ b) :
    (s.clearArr a).byte b i = s.byte b i :=
  State.read_clearArr_other s a _ (fun ha => hab (Arr.disjoint a b _ ha ⟨by omega, by omega⟩))

/-- The first bytes of an array, from its bytes. -/
theorem State.firstBytes_eq_iff (s : State) (a : Arr) (n : Nat) (l : List Byte) (hl : l.length = n) :
    s.firstBytes a n = l ↔ ∀ i, i < n → s.byte a i = l.getD i 0 := by
  constructor
  · rintro h i hi
    rw [← h]
    rw [List.getD_eq_getElem _ _ (by simpa using hi)]
    simp [State.firstBytes, State.byte]
  · intro h
    apply List.ext_getElem (by simp [hl])
    intro i h1 h2
    have := h i (by simpa using h1)
    rw [List.getD_eq_getElem _ _ h2] at this
    rw [← this]
    simp [State.firstBytes, State.byte]

theorem State.firstBytes_congr (s t : State) (a : Arr) (n : Nat) (h : ∀ i, i < n → s.byte a i = t.byte a i) :
    s.firstBytes a n = t.firstBytes a n :=
  Memory.readBytes_congr _ _ _ _ h

/-- The first bytes of an array that was just set. -/
theorem State.firstBytes_setArr (s : State) (a : Arr) (l : List Byte) (h : l.length ≤ a.size) :
    (s.setArr a l).firstBytes a l.length = l := by
  rw [State.firstBytes_eq_iff _ _ _ _ rfl]
  intro i hi
  exact State.byte_setArr s a l i (by omega)

theorem State.firstBytes_setArr_ne (s : State) (a b : Arr) (l : List Byte) (n : Nat) (hab : a ≠ b) (hn : n ≤ b.size) :
    (s.setArr a l).firstBytes b n = s.firstBytes b n :=
  State.firstBytes_congr _ _ _ _ (fun i hi => State.byte_setArr_ne s a b l i (by omega) hab)

theorem State.firstBytes_clearArr (s : State) (a : Arr) (n : Nat) (h : n ≤ a.size) : (s.clearArr a).firstBytes a n = zeros n := by
  rw [State.firstBytes_eq_iff _ _ _ _ (by simp)]
  intro i hi
  rw [State.byte_clearArr s a i (by omega)]
  simp [List.getD_eq_getElem?_getD, hi]

theorem State.firstBytes_clearArr_ne (s : State) (a b : Arr) (n : Nat) (hab : a ≠ b) (hn : n ≤ b.size) :
    (s.clearArr a).firstBytes b n = s.firstBytes b n :=
  State.firstBytes_congr _ _ _ _ (fun i hi => State.byte_clearArr_ne s a b i (by omega) hab)

theorem State.setArr_wf (s : State) (a : Arr) (l : List Byte) (h : Memory.wf s.mem = true) :
    Memory.wf (s.setArr a l).mem = true :=
  Memory.writeBytes_wf _ _ _ (Memory.clear_wf _ _ _ h)

theorem State.clearArr_wf (s : State) (a : Arr) (h : Memory.wf s.mem = true) : Memory.wf (s.clearArr a).mem = true :=
  Memory.clear_wf _ _ _ h

/-! ### The hidden registers -/

theorem regOf_toList (n : Nat) (l : List Byte) : (regOf n l).toList = (List.range n).map (fun i => l.getD i 0) := rfl

@[simp] theorem regOf_take (n : Nat) (l : List Byte) (h : l.length ≤ n) : (regOf n l).toList.take l.length = l := by
  apply List.ext_getElem
  · simp; omega
  · intro i h1 h2
    simp [regOf_toList, List.getElem?_eq_getElem h2]

theorem regOf_drop (n : Nat) (l : List Byte) : (regOf n l).toList.drop l.length = zeros (n - l.length) := by
  apply List.ext_getElem
  · simp
  · intro i h1 h2
    simp [regOf_toList]

/-- A hidden register set to a string holds the string and then zeros. -/
theorem regOf_eq_append (n : Nat) (l : List Byte) (h : l.length ≤ n) : (regOf n l).toList = l ++ zeros (n - l.length) := by
  rw [← List.take_append_drop l.length (regOf n l).toList, regOf_take n l h, regOf_drop]

/-- An array set to a string holds the string and then zeros. -/
theorem State.firstBytes_setArr_full (s : State) (a : Arr) (l : List Byte) (n : Nat) (hn : n ≤ a.size) (h : l.length ≤ n) :
    (s.setArr a l).firstBytes a n = l ++ zeros (n - l.length) := by
  rw [State.firstBytes_eq_iff _ _ _ _ (by simp; omega)]
  intro i hi
  rw [State.byte_setArr s a l i (by omega)]
  by_cases hl : i < l.length
  · rw [List.getD_append _ _ _ _ hl]
  · rw [List.getD_append_right _ _ _ _ (by omega), List.getD_eq_default _ _ (by omega), List.getD_eq_getElem?_getD,
      List.getElem?_replicate]
    split <;> rfl

/-- Clearing the same bytes twice is clearing them once. -/
theorem Memory.clear_clear (m : Memory) (lo n : Nat) : Memory.clear (Memory.clear m lo n) lo n = Memory.clear m lo n := by
  simp [Memory.clear, List.filter_filter]

end Sys2Proof.Machine
end

