-- ==== Sys2Proof/Laws/State.lean ====
section
/-! SUPPORT. One lemma per field per update of the state, so that no proof unfolds a record update. -/

namespace Sys2Proof.Machine

/-! ### accept -/

@[simp] theorem State.accept_cmd (s : State) (w : Word) : (s.accept w).cmd = w := rfl
@[simp] theorem State.accept_busy (s : State) (w : Word) : (s.accept w).busy = true := rfl
@[simp] theorem State.accept_done (s : State) (w : Word) : (s.accept w).done = s.done := rfl
@[simp] theorem State.accept_ovr (s : State) (w : Word) : (s.accept w).ovr = s.ovr := rfl
@[simp] theorem State.accept_err (s : State) (w : Word) : (s.accept w).err = s.err := rfl
@[simp] theorem State.accept_doneIe (s : State) (w : Word) : (s.accept w).doneIe = s.doneIe := rfl
@[simp] theorem State.accept_ovrIe (s : State) (w : Word) : (s.accept w).ovrIe = s.ovrIe := rfl
@[simp] theorem State.accept_session (s : State) (w : Word) : (s.accept w).session = s.session := rfl
@[simp] theorem State.accept_keylen (s : State) (w : Word) : (s.accept w).keylen = s.keylen := rfl
@[simp] theorem State.accept_outlen (s : State) (w : Word) : (s.accept w).outlen = s.outlen := rfl
@[simp] theorem State.accept_blkcnt (s : State) (w : Word) : (s.accept w).blkcnt = s.blkcnt := rfl
@[simp] theorem State.accept_padval (s : State) (w : Word) : (s.accept w).padval = s.padval := rfl
@[simp] theorem State.accept_mem (s : State) (w : Word) : (s.accept w).mem = s.mem := rfl
@[simp] theorem State.accept_skey (s : State) (w : Word) : (s.accept w).skey = s.skey := rfl
@[simp] theorem State.accept_pbuf (s : State) (w : Word) : (s.accept w).pbuf = s.pbuf := rfl
@[simp] theorem State.accept_pblen (s : State) (w : Word) : (s.accept w).pblen = s.pblen := rfl
@[simp] theorem State.accept_seq (s : State) (w : Word) : (s.accept w).seq = .decode := rfl
@[simp] theorem State.accept_staged (s : State) (w : Word) : (s.accept w).staged = Staged.empty := rfl
@[simp] theorem State.accept_rst (s : State) (w : Word) : (s.accept w).rst = s.rst := rfl
@[simp] theorem State.accept_reply (s : State) (w : Word) : (s.accept w).reply = s.reply := rfl
@[simp] theorem State.accept_agenda (s : State) (w : Word) : (s.accept w).agenda = s.agenda := rfl

/-! ### finish -/

@[simp] theorem State.finish_cmd (s : State) (code : Option CmdError) : (s.finish code).cmd = s.cmd := rfl
@[simp] theorem State.finish_busy (s : State) (code : Option CmdError) : (s.finish code).busy = false := rfl
@[simp] theorem State.finish_done (s : State) (code : Option CmdError) : (s.finish code).done = true := rfl
@[simp] theorem State.finish_ovr (s : State) (code : Option CmdError) : (s.finish code).ovr = s.ovr := rfl
@[simp] theorem State.finish_err (s : State) (code : Option CmdError) : (s.finish code).err = code := rfl
@[simp] theorem State.finish_doneIe (s : State) (code : Option CmdError) : (s.finish code).doneIe = s.doneIe := rfl
@[simp] theorem State.finish_ovrIe (s : State) (code : Option CmdError) : (s.finish code).ovrIe = s.ovrIe := rfl
@[simp] theorem State.finish_session (s : State) (code : Option CmdError) : (s.finish code).session = s.session := rfl
@[simp] theorem State.finish_keylen (s : State) (code : Option CmdError) : (s.finish code).keylen = s.keylen := rfl
@[simp] theorem State.finish_outlen (s : State) (code : Option CmdError) : (s.finish code).outlen = s.outlen := rfl
@[simp] theorem State.finish_blkcnt (s : State) (code : Option CmdError) : (s.finish code).blkcnt = s.blkcnt := rfl
@[simp] theorem State.finish_padval (s : State) (code : Option CmdError) : (s.finish code).padval = s.padval := rfl
@[simp] theorem State.finish_mem (s : State) (code : Option CmdError) : (s.finish code).mem = s.mem := rfl
@[simp] theorem State.finish_skey (s : State) (code : Option CmdError) : (s.finish code).skey = s.skey := rfl
@[simp] theorem State.finish_pbuf (s : State) (code : Option CmdError) : (s.finish code).pbuf = s.pbuf := rfl
@[simp] theorem State.finish_pblen (s : State) (code : Option CmdError) : (s.finish code).pblen = s.pblen := rfl
@[simp] theorem State.finish_seq (s : State) (code : Option CmdError) : (s.finish code).seq = .idle := rfl
@[simp] theorem State.finish_staged (s : State) (code : Option CmdError) : (s.finish code).staged = Staged.empty := rfl
@[simp] theorem State.finish_rst (s : State) (code : Option CmdError) : (s.finish code).rst = s.rst := rfl
@[simp] theorem State.finish_reply (s : State) (code : Option CmdError) : (s.finish code).reply = s.reply := rfl
@[simp] theorem State.finish_agenda (s : State) (code : Option CmdError) : (s.finish code).agenda = s.agenda := rfl

/-! ### setArr -/

@[simp] theorem State.setArr_cmd (s : State) (a : Arr) (l : List Byte) : (s.setArr a l).cmd = s.cmd := rfl
@[simp] theorem State.setArr_busy (s : State) (a : Arr) (l : List Byte) : (s.setArr a l).busy = s.busy := rfl
@[simp] theorem State.setArr_done (s : State) (a : Arr) (l : List Byte) : (s.setArr a l).done = s.done := rfl
@[simp] theorem State.setArr_ovr (s : State) (a : Arr) (l : List Byte) : (s.setArr a l).ovr = s.ovr := rfl
@[simp] theorem State.setArr_err (s : State) (a : Arr) (l : List Byte) : (s.setArr a l).err = s.err := rfl
@[simp] theorem State.setArr_doneIe (s : State) (a : Arr) (l : List Byte) : (s.setArr a l).doneIe = s.doneIe := rfl
@[simp] theorem State.setArr_ovrIe (s : State) (a : Arr) (l : List Byte) : (s.setArr a l).ovrIe = s.ovrIe := rfl
@[simp] theorem State.setArr_session (s : State) (a : Arr) (l : List Byte) : (s.setArr a l).session = s.session := rfl
@[simp] theorem State.setArr_keylen (s : State) (a : Arr) (l : List Byte) : (s.setArr a l).keylen = s.keylen := rfl
@[simp] theorem State.setArr_outlen (s : State) (a : Arr) (l : List Byte) : (s.setArr a l).outlen = s.outlen := rfl
@[simp] theorem State.setArr_blkcnt (s : State) (a : Arr) (l : List Byte) : (s.setArr a l).blkcnt = s.blkcnt := rfl
@[simp] theorem State.setArr_padval (s : State) (a : Arr) (l : List Byte) : (s.setArr a l).padval = s.padval := rfl
@[simp] theorem State.setArr_skey (s : State) (a : Arr) (l : List Byte) : (s.setArr a l).skey = s.skey := rfl
@[simp] theorem State.setArr_pbuf (s : State) (a : Arr) (l : List Byte) : (s.setArr a l).pbuf = s.pbuf := rfl
@[simp] theorem State.setArr_pblen (s : State) (a : Arr) (l : List Byte) : (s.setArr a l).pblen = s.pblen := rfl
@[simp] theorem State.setArr_seq (s : State) (a : Arr) (l : List Byte) : (s.setArr a l).seq = s.seq := rfl
@[simp] theorem State.setArr_staged (s : State) (a : Arr) (l : List Byte) : (s.setArr a l).staged = s.staged := rfl
@[simp] theorem State.setArr_rst (s : State) (a : Arr) (l : List Byte) : (s.setArr a l).rst = s.rst := rfl
@[simp] theorem State.setArr_reply (s : State) (a : Arr) (l : List Byte) : (s.setArr a l).reply = s.reply := rfl
@[simp] theorem State.setArr_agenda (s : State) (a : Arr) (l : List Byte) : (s.setArr a l).agenda = s.agenda := rfl

/-! ### clearArr -/

@[simp] theorem State.clearArr_cmd (s : State) (a : Arr) : (s.clearArr a).cmd = s.cmd := rfl
@[simp] theorem State.clearArr_busy (s : State) (a : Arr) : (s.clearArr a).busy = s.busy := rfl
@[simp] theorem State.clearArr_done (s : State) (a : Arr) : (s.clearArr a).done = s.done := rfl
@[simp] theorem State.clearArr_ovr (s : State) (a : Arr) : (s.clearArr a).ovr = s.ovr := rfl
@[simp] theorem State.clearArr_err (s : State) (a : Arr) : (s.clearArr a).err = s.err := rfl
@[simp] theorem State.clearArr_doneIe (s : State) (a : Arr) : (s.clearArr a).doneIe = s.doneIe := rfl
@[simp] theorem State.clearArr_ovrIe (s : State) (a : Arr) : (s.clearArr a).ovrIe = s.ovrIe := rfl
@[simp] theorem State.clearArr_session (s : State) (a : Arr) : (s.clearArr a).session = s.session := rfl
@[simp] theorem State.clearArr_keylen (s : State) (a : Arr) : (s.clearArr a).keylen = s.keylen := rfl
@[simp] theorem State.clearArr_outlen (s : State) (a : Arr) : (s.clearArr a).outlen = s.outlen := rfl
@[simp] theorem State.clearArr_blkcnt (s : State) (a : Arr) : (s.clearArr a).blkcnt = s.blkcnt := rfl
@[simp] theorem State.clearArr_padval (s : State) (a : Arr) : (s.clearArr a).padval = s.padval := rfl
@[simp] theorem State.clearArr_skey (s : State) (a : Arr) : (s.clearArr a).skey = s.skey := rfl
@[simp] theorem State.clearArr_pbuf (s : State) (a : Arr) : (s.clearArr a).pbuf = s.pbuf := rfl
@[simp] theorem State.clearArr_pblen (s : State) (a : Arr) : (s.clearArr a).pblen = s.pblen := rfl
@[simp] theorem State.clearArr_seq (s : State) (a : Arr) : (s.clearArr a).seq = s.seq := rfl
@[simp] theorem State.clearArr_staged (s : State) (a : Arr) : (s.clearArr a).staged = s.staged := rfl
@[simp] theorem State.clearArr_rst (s : State) (a : Arr) : (s.clearArr a).rst = s.rst := rfl
@[simp] theorem State.clearArr_reply (s : State) (a : Arr) : (s.clearArr a).reply = s.reply := rfl
@[simp] theorem State.clearArr_agenda (s : State) (a : Arr) : (s.clearArr a).agenda = s.agenda := rfl

/-! ### scrubKeystage -/

@[simp] theorem State.scrubKeystage_cmd (s : State) : s.scrubKeystage.cmd = s.cmd := rfl
@[simp] theorem State.scrubKeystage_busy (s : State) : s.scrubKeystage.busy = s.busy := rfl
@[simp] theorem State.scrubKeystage_done (s : State) : s.scrubKeystage.done = s.done := rfl
@[simp] theorem State.scrubKeystage_ovr (s : State) : s.scrubKeystage.ovr = s.ovr := rfl
@[simp] theorem State.scrubKeystage_err (s : State) : s.scrubKeystage.err = s.err := rfl
@[simp] theorem State.scrubKeystage_doneIe (s : State) : s.scrubKeystage.doneIe = s.doneIe := rfl
@[simp] theorem State.scrubKeystage_ovrIe (s : State) : s.scrubKeystage.ovrIe = s.ovrIe := rfl
@[simp] theorem State.scrubKeystage_session (s : State) : s.scrubKeystage.session = s.session := rfl
@[simp] theorem State.scrubKeystage_keylen (s : State) : s.scrubKeystage.keylen = s.keylen := rfl
@[simp] theorem State.scrubKeystage_outlen (s : State) : s.scrubKeystage.outlen = s.outlen := rfl
@[simp] theorem State.scrubKeystage_blkcnt (s : State) : s.scrubKeystage.blkcnt = s.blkcnt := rfl
@[simp] theorem State.scrubKeystage_padval (s : State) : s.scrubKeystage.padval = s.padval := rfl
@[simp] theorem State.scrubKeystage_mem (s : State) : s.scrubKeystage.mem = (s.clearArr .keystage).mem := rfl
@[simp] theorem State.scrubKeystage_skey (s : State) : s.scrubKeystage.skey = s.skey := rfl
@[simp] theorem State.scrubKeystage_pbuf (s : State) : s.scrubKeystage.pbuf = s.pbuf := rfl
@[simp] theorem State.scrubKeystage_pblen (s : State) : s.scrubKeystage.pblen = s.pblen := rfl
@[simp] theorem State.scrubKeystage_seq (s : State) : s.scrubKeystage.seq = s.seq := rfl
@[simp] theorem State.scrubKeystage_staged (s : State) : s.scrubKeystage.staged = s.staged := rfl
@[simp] theorem State.scrubKeystage_rst (s : State) : s.scrubKeystage.rst = s.rst := rfl
@[simp] theorem State.scrubKeystage_reply (s : State) : s.scrubKeystage.reply = s.reply := rfl
@[simp] theorem State.scrubKeystage_agenda (s : State) : s.scrubKeystage.agenda = s.agenda := rfl

/-! ### dropWrite -/

@[simp] theorem State.dropWrite_cmd (s : State) : s.dropWrite.cmd = s.cmd := rfl
@[simp] theorem State.dropWrite_busy (s : State) : s.dropWrite.busy = s.busy := rfl
@[simp] theorem State.dropWrite_done (s : State) : s.dropWrite.done = s.done := rfl
@[simp] theorem State.dropWrite_ovr (s : State) : s.dropWrite.ovr = true := rfl
@[simp] theorem State.dropWrite_err (s : State) : s.dropWrite.err = s.err := rfl
@[simp] theorem State.dropWrite_doneIe (s : State) : s.dropWrite.doneIe = s.doneIe := rfl
@[simp] theorem State.dropWrite_ovrIe (s : State) : s.dropWrite.ovrIe = s.ovrIe := rfl
@[simp] theorem State.dropWrite_session (s : State) : s.dropWrite.session = s.session := rfl
@[simp] theorem State.dropWrite_keylen (s : State) : s.dropWrite.keylen = s.keylen := rfl
@[simp] theorem State.dropWrite_outlen (s : State) : s.dropWrite.outlen = s.outlen := rfl
@[simp] theorem State.dropWrite_blkcnt (s : State) : s.dropWrite.blkcnt = s.blkcnt := rfl
@[simp] theorem State.dropWrite_padval (s : State) : s.dropWrite.padval = s.padval := rfl
@[simp] theorem State.dropWrite_mem (s : State) : s.dropWrite.mem = s.mem := rfl
@[simp] theorem State.dropWrite_skey (s : State) : s.dropWrite.skey = s.skey := rfl
@[simp] theorem State.dropWrite_pbuf (s : State) : s.dropWrite.pbuf = s.pbuf := rfl
@[simp] theorem State.dropWrite_pblen (s : State) : s.dropWrite.pblen = s.pblen := rfl
@[simp] theorem State.dropWrite_seq (s : State) : s.dropWrite.seq = s.seq := rfl
@[simp] theorem State.dropWrite_staged (s : State) : s.dropWrite.staged = s.staged := rfl
@[simp] theorem State.dropWrite_rst (s : State) : s.dropWrite.rst = s.rst := rfl
@[simp] theorem State.dropWrite_reply (s : State) : s.dropWrite.reply = s.reply := rfl
@[simp] theorem State.dropWrite_agenda (s : State) : s.dropWrite.agenda = s.agenda := rfl

/-! ### moveSeq -/

@[simp] theorem State.moveSeq_cmd (s : State) (n : SeqState × Staged) : (s.moveSeq n).cmd = s.cmd := rfl
@[simp] theorem State.moveSeq_busy (s : State) (n : SeqState × Staged) : (s.moveSeq n).busy = s.busy := rfl
@[simp] theorem State.moveSeq_done (s : State) (n : SeqState × Staged) : (s.moveSeq n).done = s.done := rfl
@[simp] theorem State.moveSeq_ovr (s : State) (n : SeqState × Staged) : (s.moveSeq n).ovr = s.ovr := rfl
@[simp] theorem State.moveSeq_err (s : State) (n : SeqState × Staged) : (s.moveSeq n).err = s.err := rfl
@[simp] theorem State.moveSeq_doneIe (s : State) (n : SeqState × Staged) : (s.moveSeq n).doneIe = s.doneIe := rfl
@[simp] theorem State.moveSeq_ovrIe (s : State) (n : SeqState × Staged) : (s.moveSeq n).ovrIe = s.ovrIe := rfl
@[simp] theorem State.moveSeq_session (s : State) (n : SeqState × Staged) : (s.moveSeq n).session = s.session := rfl
@[simp] theorem State.moveSeq_keylen (s : State) (n : SeqState × Staged) : (s.moveSeq n).keylen = s.keylen := rfl
@[simp] theorem State.moveSeq_outlen (s : State) (n : SeqState × Staged) : (s.moveSeq n).outlen = s.outlen := rfl
@[simp] theorem State.moveSeq_blkcnt (s : State) (n : SeqState × Staged) : (s.moveSeq n).blkcnt = s.blkcnt := rfl
@[simp] theorem State.moveSeq_padval (s : State) (n : SeqState × Staged) : (s.moveSeq n).padval = s.padval := rfl
@[simp] theorem State.moveSeq_mem (s : State) (n : SeqState × Staged) : (s.moveSeq n).mem = s.mem := rfl
@[simp] theorem State.moveSeq_skey (s : State) (n : SeqState × Staged) : (s.moveSeq n).skey = s.skey := rfl
@[simp] theorem State.moveSeq_pbuf (s : State) (n : SeqState × Staged) : (s.moveSeq n).pbuf = s.pbuf := rfl
@[simp] theorem State.moveSeq_pblen (s : State) (n : SeqState × Staged) : (s.moveSeq n).pblen = s.pblen := rfl
@[simp] theorem State.moveSeq_seq (s : State) (n : SeqState × Staged) : (s.moveSeq n).seq = n.1 := rfl
@[simp] theorem State.moveSeq_staged (s : State) (n : SeqState × Staged) : (s.moveSeq n).staged = n.2 := rfl
@[simp] theorem State.moveSeq_rst (s : State) (n : SeqState × Staged) : (s.moveSeq n).rst = s.rst := rfl
@[simp] theorem State.moveSeq_reply (s : State) (n : SeqState × Staged) : (s.moveSeq n).reply = s.reply := rfl
@[simp] theorem State.moveSeq_agenda (s : State) (n : SeqState × Staged) : (s.moveSeq n).agenda = s.agenda := rfl

/-! ### resetPin -/

@[simp] theorem State.resetPin_cmd (s : State) (b : Bool) : (s.resetPin b).cmd = State.reset.cmd := rfl
@[simp] theorem State.resetPin_busy (s : State) (b : Bool) : (s.resetPin b).busy = State.reset.busy := rfl
@[simp] theorem State.resetPin_done (s : State) (b : Bool) : (s.resetPin b).done = State.reset.done := rfl
@[simp] theorem State.resetPin_ovr (s : State) (b : Bool) : (s.resetPin b).ovr = State.reset.ovr := rfl
@[simp] theorem State.resetPin_err (s : State) (b : Bool) : (s.resetPin b).err = State.reset.err := rfl
@[simp] theorem State.resetPin_doneIe (s : State) (b : Bool) : (s.resetPin b).doneIe = State.reset.doneIe := rfl
@[simp] theorem State.resetPin_ovrIe (s : State) (b : Bool) : (s.resetPin b).ovrIe = State.reset.ovrIe := rfl
@[simp] theorem State.resetPin_session (s : State) (b : Bool) : (s.resetPin b).session = State.reset.session := rfl
@[simp] theorem State.resetPin_keylen (s : State) (b : Bool) : (s.resetPin b).keylen = State.reset.keylen := rfl
@[simp] theorem State.resetPin_outlen (s : State) (b : Bool) : (s.resetPin b).outlen = State.reset.outlen := rfl
@[simp] theorem State.resetPin_blkcnt (s : State) (b : Bool) : (s.resetPin b).blkcnt = State.reset.blkcnt := rfl
@[simp] theorem State.resetPin_padval (s : State) (b : Bool) : (s.resetPin b).padval = State.reset.padval := rfl
@[simp] theorem State.resetPin_mem (s : State) (b : Bool) : (s.resetPin b).mem = State.reset.mem := rfl
@[simp] theorem State.resetPin_skey (s : State) (b : Bool) : (s.resetPin b).skey = State.reset.skey := rfl
@[simp] theorem State.resetPin_pbuf (s : State) (b : Bool) : (s.resetPin b).pbuf = State.reset.pbuf := rfl
@[simp] theorem State.resetPin_pblen (s : State) (b : Bool) : (s.resetPin b).pblen = State.reset.pblen := rfl
@[simp] theorem State.resetPin_seq (s : State) (b : Bool) : (s.resetPin b).seq = State.reset.seq := rfl
@[simp] theorem State.resetPin_staged (s : State) (b : Bool) : (s.resetPin b).staged = State.reset.staged := rfl
@[simp] theorem State.resetPin_rst (s : State) (b : Bool) : (s.resetPin b).rst = b := rfl
@[simp] theorem State.resetPin_reply (s : State) (b : Bool) : (s.resetPin b).reply = State.reset.reply := rfl
@[simp] theorem State.resetPin_agenda (s : State) (b : Bool) : (s.resetPin b).agenda = s.agenda := rfl

/-! ### stageDin -/

@[simp] theorem State.stageDin_cmd (s : State) (l : List Byte) : (s.stageDin l).cmd = s.cmd := rfl
@[simp] theorem State.stageDin_busy (s : State) (l : List Byte) : (s.stageDin l).busy = s.busy := rfl
@[simp] theorem State.stageDin_done (s : State) (l : List Byte) : (s.stageDin l).done = s.done := rfl
@[simp] theorem State.stageDin_ovr (s : State) (l : List Byte) : (s.stageDin l).ovr = s.ovr := rfl
@[simp] theorem State.stageDin_err (s : State) (l : List Byte) : (s.stageDin l).err = s.err := rfl
@[simp] theorem State.stageDin_doneIe (s : State) (l : List Byte) : (s.stageDin l).doneIe = s.doneIe := rfl
@[simp] theorem State.stageDin_ovrIe (s : State) (l : List Byte) : (s.stageDin l).ovrIe = s.ovrIe := rfl
@[simp] theorem State.stageDin_session (s : State) (l : List Byte) : (s.stageDin l).session = s.session := rfl
@[simp] theorem State.stageDin_keylen (s : State) (l : List Byte) : (s.stageDin l).keylen = s.keylen := rfl
@[simp] theorem State.stageDin_outlen (s : State) (l : List Byte) : (s.stageDin l).outlen = s.outlen := rfl
@[simp] theorem State.stageDin_blkcnt (s : State) (l : List Byte) : (s.stageDin l).blkcnt = s.blkcnt := rfl
@[simp] theorem State.stageDin_padval (s : State) (l : List Byte) : (s.stageDin l).padval = s.padval := rfl
@[simp] theorem State.stageDin_skey (s : State) (l : List Byte) : (s.stageDin l).skey = s.skey := rfl
@[simp] theorem State.stageDin_pbuf (s : State) (l : List Byte) : (s.stageDin l).pbuf = s.pbuf := rfl
@[simp] theorem State.stageDin_pblen (s : State) (l : List Byte) : (s.stageDin l).pblen = s.pblen := rfl
@[simp] theorem State.stageDin_seq (s : State) (l : List Byte) : (s.stageDin l).seq = s.seq := rfl
@[simp] theorem State.stageDin_staged (s : State) (l : List Byte) : (s.stageDin l).staged = s.staged := rfl
@[simp] theorem State.stageDin_rst (s : State) (l : List Byte) : (s.stageDin l).rst = s.rst := rfl
@[simp] theorem State.stageDin_reply (s : State) (l : List Byte) : (s.stageDin l).reply = s.reply := rfl
@[simp] theorem State.stageDin_agenda (s : State) (l : List Byte) : (s.stageDin l).agenda = s.agenda := rfl

/-! ### initWrites -/

@[simp] theorem initWrites_cmd (s : State) (t : Tag) (m : Mode) (d : Dir) (v : Bool) : (initWrites s t m d v).cmd = s.cmd := rfl
@[simp] theorem initWrites_busy (s : State) (t : Tag) (m : Mode) (d : Dir) (v : Bool) : (initWrites s t m d v).busy = s.busy := rfl
@[simp] theorem initWrites_done (s : State) (t : Tag) (m : Mode) (d : Dir) (v : Bool) : (initWrites s t m d v).done = s.done := rfl
@[simp] theorem initWrites_ovr (s : State) (t : Tag) (m : Mode) (d : Dir) (v : Bool) : (initWrites s t m d v).ovr = s.ovr := rfl
@[simp] theorem initWrites_err (s : State) (t : Tag) (m : Mode) (d : Dir) (v : Bool) : (initWrites s t m d v).err = s.err := rfl
@[simp] theorem initWrites_doneIe (s : State) (t : Tag) (m : Mode) (d : Dir) (v : Bool) : (initWrites s t m d v).doneIe = s.doneIe := rfl
@[simp] theorem initWrites_ovrIe (s : State) (t : Tag) (m : Mode) (d : Dir) (v : Bool) : (initWrites s t m d v).ovrIe = s.ovrIe := rfl
@[simp] theorem initWrites_session (s : State) (t : Tag) (m : Mode) (d : Dir) (v : Bool) : (initWrites s t m d v).session = .active ⟨t, m, d, effectiveIvsrc m v⟩ := rfl
@[simp] theorem initWrites_keylen (s : State) (t : Tag) (m : Mode) (d : Dir) (v : Bool) : (initWrites s t m d v).keylen = s.keylen := rfl
@[simp] theorem initWrites_outlen (s : State) (t : Tag) (m : Mode) (d : Dir) (v : Bool) : (initWrites s t m d v).outlen = s.outlen := rfl
@[simp] theorem initWrites_blkcnt (s : State) (t : Tag) (m : Mode) (d : Dir) (v : Bool) : (initWrites s t m d v).blkcnt = 0 := rfl
@[simp] theorem initWrites_padval (s : State) (t : Tag) (m : Mode) (d : Dir) (v : Bool) : (initWrites s t m d v).padval = 0 := rfl
@[simp] theorem initWrites_mem (s : State) (t : Tag) (m : Mode) (d : Dir) (v : Bool) : (initWrites s t m d v).mem = (s.setArr .cv (s.stagedIv (effectiveIvsrc m v) (blockSize t))).mem := rfl
@[simp] theorem initWrites_skey (s : State) (t : Tag) (m : Mode) (d : Dir) (v : Bool) : (initWrites s t m d v).skey = regOf 32 (s.stagedKey t) := rfl
@[simp] theorem initWrites_pbuf (s : State) (t : Tag) (m : Mode) (d : Dir) (v : Bool) : (initWrites s t m d v).pbuf = regOf 16 [] := rfl
@[simp] theorem initWrites_pblen (s : State) (t : Tag) (m : Mode) (d : Dir) (v : Bool) : (initWrites s t m d v).pblen = 0 := rfl
@[simp] theorem initWrites_seq (s : State) (t : Tag) (m : Mode) (d : Dir) (v : Bool) : (initWrites s t m d v).seq = s.seq := rfl
@[simp] theorem initWrites_staged (s : State) (t : Tag) (m : Mode) (d : Dir) (v : Bool) : (initWrites s t m d v).staged = s.staged := rfl
@[simp] theorem initWrites_rst (s : State) (t : Tag) (m : Mode) (d : Dir) (v : Bool) : (initWrites s t m d v).rst = s.rst := rfl
@[simp] theorem initWrites_reply (s : State) (t : Tag) (m : Mode) (d : Dir) (v : Bool) : (initWrites s t m d v).reply = s.reply := rfl
@[simp] theorem initWrites_agenda (s : State) (t : Tag) (m : Mode) (d : Dir) (v : Bool) : (initWrites s t m d v).agenda = s.agenda := rfl

/-! ### closeWrites -/

@[simp] theorem closeWrites_cmd (s : State) : (closeWrites s).cmd = s.cmd := by simp [closeWrites]
@[simp] theorem closeWrites_busy (s : State) : (closeWrites s).busy = s.busy := by simp [closeWrites]
@[simp] theorem closeWrites_done (s : State) : (closeWrites s).done = s.done := by simp [closeWrites]
@[simp] theorem closeWrites_ovr (s : State) : (closeWrites s).ovr = s.ovr := by simp [closeWrites]
@[simp] theorem closeWrites_err (s : State) : (closeWrites s).err = s.err := by simp [closeWrites]
@[simp] theorem closeWrites_doneIe (s : State) : (closeWrites s).doneIe = s.doneIe := by simp [closeWrites]
@[simp] theorem closeWrites_ovrIe (s : State) : (closeWrites s).ovrIe = s.ovrIe := by simp [closeWrites]
@[simp] theorem closeWrites_session (s : State) : (closeWrites s).session = .idle := rfl
@[simp] theorem closeWrites_keylen (s : State) : (closeWrites s).keylen = s.keylen := by simp [closeWrites]
@[simp] theorem closeWrites_outlen (s : State) : (closeWrites s).outlen = 0 := rfl
@[simp] theorem closeWrites_blkcnt (s : State) : (closeWrites s).blkcnt = 0 := rfl
@[simp] theorem closeWrites_padval (s : State) : (closeWrites s).padval = 0 := rfl
@[simp] theorem closeWrites_mem (s : State) : (closeWrites s).mem = ((((s.clearArr .cv).clearArr .keystage).clearArr .din).clearArr .dout).mem := rfl
@[simp] theorem closeWrites_skey (s : State) : (closeWrites s).skey = regOf 32 [] := rfl
@[simp] theorem closeWrites_pbuf (s : State) : (closeWrites s).pbuf = regOf 16 [] := rfl
@[simp] theorem closeWrites_pblen (s : State) : (closeWrites s).pblen = 0 := rfl
@[simp] theorem closeWrites_seq (s : State) : (closeWrites s).seq = s.seq := by simp [closeWrites]
@[simp] theorem closeWrites_staged (s : State) : (closeWrites s).staged = s.staged := by simp [closeWrites]
@[simp] theorem closeWrites_rst (s : State) : (closeWrites s).rst = s.rst := by simp [closeWrites]
@[simp] theorem closeWrites_reply (s : State) : (closeWrites s).reply = s.reply := by simp [closeWrites]
@[simp] theorem closeWrites_agenda (s : State) : (closeWrites s).agenda = s.agenda := by simp [closeWrites]

/-! ### commitCv -/

@[simp] theorem State.commitCv_cmd (s : State) (c : CipherSpec) (l : List Byte) : (s.commitCv c l).cmd = s.cmd := by
  unfold State.commitCv; split <;> rfl
@[simp] theorem State.commitCv_busy (s : State) (c : CipherSpec) (l : List Byte) : (s.commitCv c l).busy = s.busy := by
  unfold State.commitCv; split <;> rfl
@[simp] theorem State.commitCv_done (s : State) (c : CipherSpec) (l : List Byte) : (s.commitCv c l).done = s.done := by
  unfold State.commitCv; split <;> rfl
@[simp] theorem State.commitCv_ovr (s : State) (c : CipherSpec) (l : List Byte) : (s.commitCv c l).ovr = s.ovr := by
  unfold State.commitCv; split <;> rfl
@[simp] theorem State.commitCv_err (s : State) (c : CipherSpec) (l : List Byte) : (s.commitCv c l).err = s.err := by
  unfold State.commitCv; split <;> rfl
@[simp] theorem State.commitCv_doneIe (s : State) (c : CipherSpec) (l : List Byte) : (s.commitCv c l).doneIe = s.doneIe := by
  unfold State.commitCv; split <;> rfl
@[simp] theorem State.commitCv_ovrIe (s : State) (c : CipherSpec) (l : List Byte) : (s.commitCv c l).ovrIe = s.ovrIe := by
  unfold State.commitCv; split <;> rfl
@[simp] theorem State.commitCv_session (s : State) (c : CipherSpec) (l : List Byte) : (s.commitCv c l).session = s.session := by
  unfold State.commitCv; split <;> rfl
@[simp] theorem State.commitCv_keylen (s : State) (c : CipherSpec) (l : List Byte) : (s.commitCv c l).keylen = s.keylen := by
  unfold State.commitCv; split <;> rfl
@[simp] theorem State.commitCv_outlen (s : State) (c : CipherSpec) (l : List Byte) : (s.commitCv c l).outlen = s.outlen := by
  unfold State.commitCv; split <;> rfl
@[simp] theorem State.commitCv_blkcnt (s : State) (c : CipherSpec) (l : List Byte) : (s.commitCv c l).blkcnt = s.blkcnt := by
  unfold State.commitCv; split <;> rfl
@[simp] theorem State.commitCv_padval (s : State) (c : CipherSpec) (l : List Byte) : (s.commitCv c l).padval = s.padval := by
  unfold State.commitCv; split <;> rfl
@[simp] theorem State.commitCv_skey (s : State) (c : CipherSpec) (l : List Byte) : (s.commitCv c l).skey = s.skey := by
  unfold State.commitCv; split <;> rfl
@[simp] theorem State.commitCv_pbuf (s : State) (c : CipherSpec) (l : List Byte) : (s.commitCv c l).pbuf = s.pbuf := by
  unfold State.commitCv; split <;> rfl
@[simp] theorem State.commitCv_pblen (s : State) (c : CipherSpec) (l : List Byte) : (s.commitCv c l).pblen = s.pblen := by
  unfold State.commitCv; split <;> rfl
@[simp] theorem State.commitCv_seq (s : State) (c : CipherSpec) (l : List Byte) : (s.commitCv c l).seq = s.seq := by
  unfold State.commitCv; split <;> rfl
@[simp] theorem State.commitCv_staged (s : State) (c : CipherSpec) (l : List Byte) : (s.commitCv c l).staged = s.staged := by
  unfold State.commitCv; split <;> rfl
@[simp] theorem State.commitCv_rst (s : State) (c : CipherSpec) (l : List Byte) : (s.commitCv c l).rst = s.rst := by
  unfold State.commitCv; split <;> rfl
@[simp] theorem State.commitCv_reply (s : State) (c : CipherSpec) (l : List Byte) : (s.commitCv c l).reply = s.reply := by
  unfold State.commitCv; split <;> rfl
@[simp] theorem State.commitCv_agenda (s : State) (c : CipherSpec) (l : List Byte) : (s.commitCv c l).agenda = s.agenda := by
  unfold State.commitCv; split <;> rfl

/-! ### commit -/

@[simp] theorem State.commit_cmd (s : State) (c : CipherSpec) (r : Staged) (f : Bool) : (s.commit c r f).cmd = s.cmd := by
  simp [State.commit]
@[simp] theorem State.commit_busy (s : State) (c : CipherSpec) (r : Staged) (f : Bool) : (s.commit c r f).busy = s.busy := by
  simp [State.commit]
@[simp] theorem State.commit_done (s : State) (c : CipherSpec) (r : Staged) (f : Bool) : (s.commit c r f).done = s.done := by
  simp [State.commit]
@[simp] theorem State.commit_ovr (s : State) (c : CipherSpec) (r : Staged) (f : Bool) : (s.commit c r f).ovr = s.ovr := by
  simp [State.commit]
@[simp] theorem State.commit_err (s : State) (c : CipherSpec) (r : Staged) (f : Bool) : (s.commit c r f).err = s.err := by
  simp [State.commit]
@[simp] theorem State.commit_doneIe (s : State) (c : CipherSpec) (r : Staged) (f : Bool) : (s.commit c r f).doneIe = s.doneIe := by
  simp [State.commit]
@[simp] theorem State.commit_ovrIe (s : State) (c : CipherSpec) (r : Staged) (f : Bool) : (s.commit c r f).ovrIe = s.ovrIe := by
  simp [State.commit]
@[simp] theorem State.commit_session (s : State) (c : CipherSpec) (r : Staged) (f : Bool) : (s.commit c r f).session = (if f then .finished c else s.session) := by
  simp [State.commit]
@[simp] theorem State.commit_keylen (s : State) (c : CipherSpec) (r : Staged) (f : Bool) : (s.commit c r f).keylen = s.keylen := by
  simp [State.commit]
@[simp] theorem State.commit_outlen (s : State) (c : CipherSpec) (r : Staged) (f : Bool) : (s.commit c r f).outlen = BitVec.ofNat 32 r.out.length := by
  simp [State.commit]
@[simp] theorem State.commit_blkcnt (s : State) (c : CipherSpec) (r : Staged) (f : Bool) : (s.commit c r f).blkcnt = s.blkcnt + BitVec.ofNat 32 r.cnt := by
  simp [State.commit]
@[simp] theorem State.commit_padval (s : State) (c : CipherSpec) (r : Staged) (f : Bool) : (s.commit c r f).padval = BitVec.ofNat 8 r.pad := by
  simp [State.commit]
@[simp] theorem State.commit_mem (s : State) (c : CipherSpec) (r : Staged) (f : Bool) : (s.commit c r f).mem = ((s.setArr .dout r.out).commitCv c r.cv).mem := by
  simp [State.commit]
@[simp] theorem State.commit_skey (s : State) (c : CipherSpec) (r : Staged) (f : Bool) : (s.commit c r f).skey = s.skey := by
  simp [State.commit]
@[simp] theorem State.commit_pbuf (s : State) (c : CipherSpec) (r : Staged) (f : Bool) : (s.commit c r f).pbuf = regOf 16 r.carry := by
  simp [State.commit]
@[simp] theorem State.commit_pblen (s : State) (c : CipherSpec) (r : Staged) (f : Bool) : (s.commit c r f).pblen = BitVec.ofNat 4 r.carry.length := by
  simp [State.commit]
@[simp] theorem State.commit_seq (s : State) (c : CipherSpec) (r : Staged) (f : Bool) : (s.commit c r f).seq = s.seq := by
  simp [State.commit]
@[simp] theorem State.commit_staged (s : State) (c : CipherSpec) (r : Staged) (f : Bool) : (s.commit c r f).staged = s.staged := by
  simp [State.commit]
@[simp] theorem State.commit_rst (s : State) (c : CipherSpec) (r : Staged) (f : Bool) : (s.commit c r f).rst = s.rst := by
  simp [State.commit]
@[simp] theorem State.commit_reply (s : State) (c : CipherSpec) (r : Staged) (f : Bool) : (s.commit c r f).reply = s.reply := by
  simp [State.commit]
@[simp] theorem State.commit_agenda (s : State) (c : CipherSpec) (r : Staged) (f : Bool) : (s.commit c r f).agenda = s.agenda := by
  simp [State.commit]

/-! ### conclude -/

@[simp] theorem State.conclude_ok (s t : State) : s.conclude (.ok t) = t.finish none := rfl
@[simp] theorem State.conclude_error (s : State) (e : CmdError) : s.conclude (.error e) = s.finish (some e) := rfl

/-! ### What depends on the memory alone -/

/-- The bytes of an array are a function of the memory. -/
theorem State.firstBytes_of_mem {s t : State} (h : s.mem = t.mem) (a : Arr) (n : Nat) : s.firstBytes a n = t.firstBytes a n := by
  simp [State.firstBytes, h]

theorem State.byte_of_mem {s t : State} (h : s.mem = t.mem) (a : Arr) (i : Nat) : s.byte a i = t.byte a i := by
  simp [State.byte, h]

@[simp] theorem State.firstBytes_finish (s : State) (code : Option CmdError) (a : Arr) (n : Nat) :
    (s.finish code).firstBytes a n = s.firstBytes a n := rfl

@[simp] theorem State.byte_finish (s : State) (code : Option CmdError) (a : Arr) (i : Nat) :
    (s.finish code).byte a i = s.byte a i := rfl

@[simp] theorem State.firstBytes_moveSeq (s : State) (n : SeqState × Staged) (a : Arr) (k : Nat) :
    (s.moveSeq n).firstBytes a k = s.firstBytes a k := rfl

end Sys2Proof.Machine
end

