-- ==== Sys2Proof/Laws/Blocks.lean ====
section
/-! SUPPORT. The block transforms, the loop over blocks and the padding, once and for all: lengths, how the loop splits
over a work string, what a successful UPDATE result holds. -/

namespace Sys2Proof.Machine

/-! ### Sizes -/

theorem CipherSpec.bs_eq (c : CipherSpec) : c.bs = 8 ∨ c.bs = 16 := by
  cases c with | mk t m d v => cases t <;> simp [CipherSpec.bs, blockSize]

theorem CipherSpec.bs_pos (c : CipherSpec) : 0 < c.bs := by rcases c.bs_eq with h | h <;> omega

theorem CipherSpec.bs_le (c : CipherSpec) : c.bs ≤ 16 := by rcases c.bs_eq with h | h <;> omega

theorem blockSize_le (t : Tag) : blockSize t ≤ 16 := by cases t <;> simp [blockSize]

theorem keySize_le (t : Tag) : keySize t ≤ 32 := by cases t <;> simp [keySize]

theorem CipherSpec.ks_le (c : CipherSpec) : c.ks ≤ 32 := keySize_le _

@[simp] theorem State.length_key (s : State) (c : CipherSpec) : (s.key c).length = c.ks := by
  simp [State.key, c.ks_le]

@[simp] theorem State.length_carry (s : State) : s.carry.length = s.pblen.toNat := by
  simp [State.carry]; omega

@[simp] theorem State.length_workString (s : State) (len : Nat) : (s.workString len).length = s.pblen.toNat + len := by
  simp [State.workString]

theorem State.workLength_eq (s : State) (len : Nat) : s.workLength len = (s.workString len).length := by
  simp [State.workLength]

theorem length_condKey (l : List Byte) (n k : Nat) (h : k ≤ l.length) : (condKey l n k).length = k := by
  simp [condKey]; omega

@[simp] theorem State.length_stagedKey (s : State) (t : Tag) : (s.stagedKey t).length = keySize t :=
  length_condKey _ _ _ (by simpa [Config.KS_MAX] using keySize_le t)

/-! ### One block -/

theorem Prim.length_encBlock {P : Prim} {c : Tag} {k x y : List Byte} (h : Prim.encBlock P c k x = some y) :
    y.length = blockSize c := by
  simp only [Prim.encBlock, Option.map_eq_some_iff] at h
  obtain ⟨v, -, rfl⟩ := h
  simp [blockSize_le]

theorem Prim.length_decBlock {P : Prim} {c : Tag} {k x y : List Byte} (h : Prim.decBlock P c k x = some y) :
    y.length = blockSize c := by
  simp only [Prim.decBlock, Option.map_eq_some_iff] at h
  obtain ⟨v, -, rfl⟩ := h
  simp [blockSize_le]

@[simp] theorem length_xorBytes (a b : List Byte) : (xorBytes a b).length = min a.length b.length := by simp [xorBytes]

/-- Adding a string twice gives back the other, for strings of equal length. -/
theorem xorBytes_cancel (a b : List Byte) (h : a.length = b.length) : xorBytes (xorBytes a b) b = a := by
  apply List.ext_getElem
  · simp; omega
  · intro i h1 h2
    simp [xorBytes]

/-- The output of a transform is one block, and so is the next chaining value. -/
theorem xform_length {P : Prim} {c : CipherSpec} {k x cv y cv' : List Byte} (h : xform P c k x cv = some (y, cv'))
    (hx : x.length = c.bs) (hcv : cv.length = c.bs) : y.length = c.bs ∧ cv'.length = c.bs := by
  unfold xform at h
  split at h <;> simp only [Option.map_eq_some_iff, Prod.mk.injEq] at h <;> obtain ⟨z, hz, rfl, rfl⟩ := h
  · exact ⟨Prim.length_encBlock hz, hcv⟩
  · exact ⟨Prim.length_decBlock hz, hcv⟩
  · exact ⟨Prim.length_encBlock hz, Prim.length_encBlock hz⟩
  · have := Prim.length_decBlock hz
    simp only [length_xorBytes, hx, hcv, this]
    simp [CipherSpec.bs]

/-! ### The blocks of a string -/

theorem length_blockAt {T : List Byte} {bs j : Nat} (h : (j + 1) * bs ≤ T.length) : (blockAt T bs j).length = bs := by
  simp only [blockAt, List.length_take, List.length_drop]
  have : (j + 1) * bs = j * bs + bs := by ring
  omega

theorem blockAt_append_left {A B : List Byte} {bs j : Nat} (h : (j + 1) * bs ≤ A.length) :
    blockAt (A ++ B) bs j = blockAt A bs j := by
  have : (j + 1) * bs = j * bs + bs := by ring
  simp only [blockAt]
  rw [List.drop_append_of_le_length (by omega), List.take_append_of_le_length (by simp; omega)]

theorem blockAt_append_right {A B : List Byte} {bs a j : Nat} (h : A.length = a * bs) :
    blockAt (A ++ B) bs (a + j) = blockAt B bs j := by
  simp only [blockAt]
  congr 1
  rw [show (a + j) * bs = A.length + j * bs by rw [h]; ring, List.drop_append]
  simp

theorem blockAt_drop {T : List Byte} {bs a j : Nat} : blockAt (T.drop (a * bs)) bs j = blockAt T bs (a + j) := by
  simp only [blockAt, List.drop_drop]
  congr 2
  ring

/-! ### The loop -/

@[simp] theorem runBlocks_zero (P : Prim) (c : CipherSpec) (k T cv : List Byte) : runBlocks P c k T cv 0 = some ([], cv) := rfl

/-- The loop's last turn (R67). -/
theorem runBlocks_succ {P : Prim} {c : CipherSpec} {k T cv out cv' : List Byte} {j : Nat} :
    runBlocks P c k T cv (j + 1) = some (out, cv') ↔
      ∃ o v y, runBlocks P c k T cv j = some (o, v) ∧ xform P c k (blockAt T c.bs j) v = some (y, cv') ∧ out = o ++ y := by
  simp only [runBlocks]
  rcases runBlocks P c k T cv j with - | ⟨o, v⟩
  · simp
  · simp only [Option.some.injEq, Prod.mk.injEq]
    rcases hx : xform P c k (blockAt T c.bs j) v with - | ⟨y, w⟩
    · simp only [reduceCtorEq, false_iff]
      rintro ⟨o', v', y, ⟨rfl, rfl⟩, h, -⟩
      simp [hx] at h
    · simp only [Option.some.injEq, Prod.mk.injEq]
      constructor
      · rintro ⟨rfl, rfl⟩
        exact ⟨o, v, y, ⟨rfl, rfl⟩, hx, rfl⟩
      · rintro ⟨o', v', y', ⟨rfl, rfl⟩, h, rfl⟩
        simp only [hx, Option.some.injEq, Prod.mk.injEq] at h
        exact ⟨by rw [h.1], h.2⟩

/-- The output of `nb` blocks has `nb * bs` bytes, and the chaining value one block. -/
theorem runBlocks_length {P : Prim} {c : CipherSpec} {k T cv out cv' : List Byte} {n : Nat}
    (h : runBlocks P c k T cv n = some (out, cv')) (hT : n * c.bs ≤ T.length) (hcv : cv.length = c.bs) :
    out.length = n * c.bs ∧ cv'.length = c.bs := by
  induction n generalizing out cv' with
  | zero =>
    simp only [runBlocks_zero, Option.some.injEq, Prod.mk.injEq] at h
    obtain ⟨rfl, rfl⟩ := h
    exact ⟨by simp, hcv⟩
  | succ n ih =>
    obtain ⟨o, v, y, ho, hy, rfl⟩ := runBlocks_succ.mp h
    have hs : (n + 1) * c.bs = n * c.bs + c.bs := by ring
    obtain ⟨h1, h2⟩ := ih ho (by omega)
    obtain ⟨h3, h4⟩ := xform_length hy (length_blockAt hT) h2
    exact ⟨by rw [List.length_append, h1, h3]; omega, h4⟩

/-- The loop depends only on the blocks it reads. -/
theorem runBlocks_congr {P : Prim} {c : CipherSpec} {k T T' cv : List Byte} {n : Nat}
    (h : ∀ j, j < n → blockAt T c.bs j = blockAt T' c.bs j) : runBlocks P c k T cv n = runBlocks P c k T' cv n := by
  induction n with
  | zero => rfl
  | succ n ih =>
    simp only [runBlocks]
    rw [ih (fun j hj => h j (by omega)), h n (by omega)]

/-- Running `a + b` blocks is running the first `a` and then the `b` blocks that follow them (R76). -/
theorem runBlocks_add (P : Prim) (c : CipherSpec) (k T cv : List Byte) (a b : Nat) :
    runBlocks P c k T cv (a + b) =
      match runBlocks P c k T cv a with
      | none => none
      | some (out, v) =>
        match runBlocks P c k (T.drop (a * c.bs)) v b with
        | none => none
        | some (out', w) => some (out ++ out', w) := by
  induction b with
  | zero =>
    rcases runBlocks P c k T cv a with - | ⟨o, v⟩ <;> simp
  | succ b ih =>
    rw [← Nat.add_assoc, runBlocks, ih]
    rcases runBlocks P c k T cv a with - | ⟨o, v⟩
    · rfl
    · simp only [runBlocks, blockAt_drop]
      rcases runBlocks P c k (T.drop (a * c.bs)) v b with - | ⟨o', w⟩
      · rfl
      · simp only
        rcases xform P c k (blockAt T c.bs (a + b)) w with - | ⟨y, u⟩
        · rfl
        · simp

/-- The loop over a string that begins with `a` whole blocks. -/
theorem runBlocks_append (P : Prim) (c : CipherSpec) (k A B cv : List Byte) (a b : Nat) (h : A.length = a * c.bs) :
    runBlocks P c k (A ++ B) cv (a + b) =
      match runBlocks P c k A cv a with
      | none => none
      | some (out, v) =>
        match runBlocks P c k B v b with
        | none => none
        | some (out', w) => some (out ++ out', w) := by
  rw [runBlocks_add, show (A ++ B).drop (a * c.bs) = B by rw [← h]; simp]
  rw [runBlocks_congr (T := A ++ B) (T' := A)]
  intro j hj
  apply blockAt_append_left
  rw [h]
  exact Nat.mul_le_mul_right _ hj

/-- Every turn of a loop that ran to its end: the output so far, and the transform of its block (R67). -/
theorem runBlocks_turn {P : Prim} {c : CipherSpec} {k T cv out cv' : List Byte} {n : Nat} 
    (hT : n * c.bs ≤ T.length) (hcv : cv.length = c.bs) (h : runBlocks P c k T cv n = some (out, cv')) :
    ∀ j, j < n → ∃ o v w, runBlocks P c k T cv j = some (o, v) ∧ o = out.take (j * c.bs) ∧ v.length = c.bs ∧
      xform P c k (blockAt T c.bs j) v = some (blockAt out c.bs j, w) ∧ (j + 1 = n → w = cv') ∧
      runBlocks P c k T cv (j+1) = some (out.take ((j+1) * c.bs), w) := by
  induction n generalizing out cv' with
  | zero => intro j hj; omega
  | succ n ih =>
    intro j hj
    obtain ⟨o, v, y, ho, hy, rfl⟩ := runBlocks_succ.mp h
    have hs : (n + 1) * c.bs = n * c.bs + c.bs := by ring
    obtain ⟨l1, l2⟩ := runBlocks_length ho (by omega) hcv
    obtain ⟨l3, l4⟩ := xform_length hy (length_blockAt hT) l2
    by_cases hjn : j = n
    · subst hjn
      refine ⟨o, v, cv', ho, ?_, l2, ?_, fun _ => rfl, ?_⟩
      · rw [← l1, List.take_append_of_le_length (le_refl _)]; simp
      · rw [hy]; congr 2
        unfold blockAt
        rw [← l1]; simp [← l3]
      · rw [h]; congr 2
        rw [List.take_of_length_le]; rw [List.length_append, l1, l3, hs]
    · obtain ⟨o', v', w, a, b, l, d, e, f⟩ := ih (by omega) ho j (by omega)
      have hjb : (j + 1) * c.bs ≤ o.length := by rw [l1]; exact Nat.mul_le_mul_right _ (by omega)
      have hjb' : j * c.bs ≤ o.length := le_trans (Nat.mul_le_mul_right _ (by omega)) hjb
      refine ⟨o', v', w, a, ?_, l, ?_, by omega, ?_⟩
      · rw [b, List.take_append_of_le_length hjb']
      · rw [d, blockAt_append_left hjb]
      · rw [f, List.take_append_of_le_length hjb]

/-! ### The tail and the padding -/

theorem length_tailOf (T : List Byte) (bs : Nat) : (tailOf T bs).length = T.length % bs := by
  simp only [tailOf, blockCount, List.length_drop]
  have := Nat.div_add_mod T.length bs
  rw [Nat.mul_comm] at this
  omega

theorem length_padApply {tail : List Byte} {bs : Nat} (h : tail.length ≤ bs) : (padApply tail bs).length = bs := by
  simp [padApply]; omega

/-- The strip succeeds exactly on a last byte in `1 .. bs` that the output can lose (R87). -/
theorem padStrip_eq_some {out o : List Byte} {bs p : Nat} :
    padStrip out bs = some (o, p) ↔
      ∃ last, out.getLast? = some last ∧ p = last.toNat ∧ 1 ≤ p ∧ p ≤ bs ∧ p ≤ out.length ∧ o = out.take (out.length - p) := by
  unfold padStrip
  rcases hl : out.getLast? with - | last
  · simp
  · simp only [Option.some.injEq]
    split
    · rename_i h
      simp only [reduceCtorEq, false_iff]
      rintro ⟨l, rfl, rfl, h1, h2, h3, -⟩
      omega
    · rename_i h
      simp only [Option.some.injEq, Prod.mk.injEq]
      constructor
      · rintro ⟨rfl, rfl⟩
        exact ⟨last, rfl, rfl, by omega, by omega, by omega, rfl⟩
      · rintro ⟨l, rfl, rfl, -, -, -, rfl⟩
        exact ⟨rfl, rfl⟩

/-! ### The result of an UPDATE -/

/-- What a successful result is, in each of the three cases of R67. -/
theorem updateResult_ok {P : Prim} {c : CipherSpec} {k T cv : List Byte} {final : Bool} {r : Staged}
    (h : updateResult P c k T cv final = .ok r) :
    ∃ out v, runBlocks P c k T cv (T.length / c.bs) = some (out, v) ∧
      ((final = false ∧ r = ⟨out, v, tailOf T c.bs, T.length / c.bs, 0⟩) ∨
       (final = true ∧ c.dir = .encrypt ∧ ∃ y w, xform P c k (padApply (tailOf T c.bs) c.bs) v = some (y, w) ∧
          r = ⟨out ++ y, w, [], T.length / c.bs + 1, c.bs - T.length % c.bs⟩) ∨
       (final = true ∧ c.dir = .decrypt ∧ ∃ o p, padStrip out c.bs = some (o, p) ∧
          r = ⟨o, v, [], T.length / c.bs, p⟩)) := by
  simp only [updateResult, blockCount] at h
  rcases hb : runBlocks P c k T cv (T.length / c.bs) with - | ⟨out, v⟩
  · simp [hb] at h
  · refine ⟨out, v, rfl, ?_⟩
    simp only [hb] at h
    cases final with
    | false =>
      simp only [tailResult, Bool.false_eq_true, if_false, Except.ok.injEq] at h
      exact .inl ⟨rfl, h.symm⟩
    | true =>
      right
      simp only [tailResult, if_true] at h
      cases hd : c.dir with
      | encrypt =>
        left
        refine ⟨rfl, rfl, ?_⟩
        simp only [hd, padResult] at h
        rcases hx : xform P c k (padApply (tailOf T c.bs) c.bs) v with - | ⟨y, w⟩
        · simp [hx] at h
        · simp only [hx, Except.ok.injEq, length_tailOf] at h
          exact ⟨y, w, rfl, h.symm⟩
      | decrypt =>
        right
        refine ⟨rfl, rfl, ?_⟩
        simp only [hd, stripResult] at h
        rcases hx : padStrip out c.bs with - | ⟨o, p⟩
        · simp [hx] at h
        · simp only [hx, Except.ok.injEq] at h
          exact ⟨o, p, rfl, h.symm⟩

/-- The sizes of a successful result: its output is at most one block longer than the work string, its carry shorter than
a block, its chaining value one block. -/
theorem updateResult_sizes {P : Prim} {c : CipherSpec} {k T cv : List Byte} {final : Bool} {r : Staged}
    (h : updateResult P c k T cv final = .ok r) (hcv : cv.length = c.bs) :
    r.out.length ≤ T.length + c.bs ∧ r.carry.length < c.bs ∧ r.cv.length = c.bs ∧ r.pad ≤ c.bs ∧
      (final = false → r.pad = 0) ∧ (final = true → 1 ≤ r.pad ∧ r.carry = []) := by
  obtain ⟨out, v, hb, hr⟩ := updateResult_ok h
  have hpos := c.bs_pos
  have hm : T.length / c.bs * c.bs ≤ T.length := Nat.div_mul_le_self _ _
  have hmod := Nat.mod_lt T.length hpos
  obtain ⟨h1, h2⟩ := runBlocks_length hb hm hcv
  rcases hr with ⟨rfl, rfl⟩ | ⟨rfl, -, y, w, hx, rfl⟩ | ⟨rfl, -, o, p, hs, rfl⟩
  · refine ⟨by simp only; omega, by simp only [length_tailOf]; omega, h2, by simp, fun _ => rfl, by simp⟩
  · obtain ⟨h3, h4⟩ := xform_length hx (length_padApply (by rw [length_tailOf]; omega)) h2
    refine ⟨by simp only [List.length_append]; omega, by simpa using hpos, h4, by simp, by simp, fun _ => ⟨by simp only; omega, rfl⟩⟩
  · obtain ⟨last, -, rfl, hp1, hp2, hp3, rfl⟩ := padStrip_eq_some.mp hs
    refine ⟨by simp only [List.length_take]; omega, by simpa using hpos, h2, hp2, by simp, fun _ => ⟨hp1, rfl⟩⟩

/-! ### The commit -/

theorem State.commitCv_mem_ecb (s : State) (c : CipherSpec) (l : List Byte) (h : c.mode = .ecb) : (s.commitCv c l).mem = s.mem := by
  simp [State.commitCv, h]

theorem State.commitCv_mem_cbc (s : State) (c : CipherSpec) (l : List Byte) (h : c.mode = .cbc) :
    (s.commitCv c l).mem = (s.setArr .cv (l.take c.bs)).mem := by
  simp [State.commitCv, h]

/-- `DOUT` after a commit: the output and then zeros (R79). -/
theorem State.commit_dout (s : State) (c : CipherSpec) (r : Staged) (f : Bool) (h : r.out.length ≤ 1056) :
    (s.commit c r f).firstBytes .dout 1056 = r.out ++ zeros (1056 - r.out.length) := by
  rw [State.firstBytes_of_mem (State.commit_mem s c r f), ← State.firstBytes_setArr_full s .dout r.out 1056 (by decide) h]
  cases hm : c.mode
  · exact State.firstBytes_of_mem (State.commitCv_mem_ecb _ _ _ hm) _ _
  · rw [State.firstBytes_of_mem (State.commitCv_mem_cbc _ _ _ hm)]
    exact State.firstBytes_setArr_ne _ .cv .dout _ _ (by decide) (by decide)

/-- `CV` after a commit in CBC: the chaining value and then zeros (R79). -/
theorem State.commit_cv_cbc (s : State) (c : CipherSpec) (r : Staged) (f : Bool) (hm : c.mode = .cbc) (h : r.cv.length = c.bs) :
    (s.commit c r f).firstBytes .cv 16 = r.cv ++ zeros (16 - c.bs) := by
  rw [State.firstBytes_of_mem (State.commit_mem s c r f), State.firstBytes_of_mem (State.commitCv_mem_cbc _ _ _ hm),
    List.take_of_length_le (by omega), State.firstBytes_setArr_full _ .cv _ 16 (by decide) (by rw [h]; exact c.bs_le), h]

/-- `CV` after a commit in ECB is as before (R73, R79). -/
theorem State.commit_cv_ecb (s : State) (c : CipherSpec) (r : Staged) (f : Bool) (hm : c.mode = .ecb) (n : Nat) (hn : n ≤ 16) :
    (s.commit c r f).firstBytes .cv n = s.firstBytes .cv n := by
  rw [State.firstBytes_of_mem (State.commit_mem s c r f), State.firstBytes_of_mem (State.commitCv_mem_ecb _ _ _ hm)]
  exact State.firstBytes_setArr_ne _ .dout .cv _ _ (by decide) hn

/-- Every byte outside `DOUT`, and in CBC outside `CV`, is as before a commit. -/
theorem State.commit_read_other (s : State) (c : CipherSpec) (r : Staged) (f : Bool) (o : Nat) (h1 : ¬ Arr.dout.holds o)
    (h2 : ¬ (Arr.cv.holds o ∧ c.mode = .cbc)) : Memory.read (s.commit c r f).mem o = Memory.read s.mem o := by
  rw [State.commit_mem]
  cases hm : c.mode
  · rw [State.commitCv_mem_ecb _ _ _ hm]
    exact State.read_setArr_other _ _ _ _ h1
  · rw [State.commitCv_mem_cbc _ _ _ hm, State.read_setArr_other _ _ _ _ (fun h => h2 ⟨h, hm⟩)]
    exact State.read_setArr_other _ _ _ _ h1

/-- The result of an `UPDATE` whose checks passed fits the registers it is committed to. -/
theorem updateResult_fits {P : Prim} {s : State} {c : CipherSpec} {len : Nat} {f : Bool} {r : Staged} (hl : len ≤ 1024)
    (hr : updateResult P c (s.key c) (s.workString len) (s.firstBytes .cv c.bs) f = .ok r) :
    r.out.length ≤ 1056 ∧ r.carry.length < c.bs ∧ r.cv.length = c.bs ∧ r.pad ≤ c.bs := by
  obtain ⟨h1, h2, h3, h4, -, -⟩ := updateResult_sizes hr (by simp)
  simp only [State.length_workString] at h1
  have := c.bs_le
  have := s.pblen.isLt
  exact ⟨by omega, h2, h3, h4⟩

end Sys2Proof.Machine
end

