-- ==== Sys2Proof/Laws/Bus.lean ====
section
/-! SUPPORT. What a bus access can do, said once: its outcomes, what it never changes, the bytes of a word, and that
memories in canonical form are equal when they read alike. -/

namespace Sys2Proof.Machine

/-- The three outcomes of an access at an offset (R37, R41, R42). -/
theorem State.busAccess_cases (s : State) (a : Access) (off : Nat) :
    (s.takenAt a off = none ∧ s.busAccess a off = { s with reply := some ⟨true, 0⟩ }) ∨
    (∃ p, s.takenAt a off = some p ∧ a.kind = .read ∧
      s.busAccess a off = { s with reply := some ⟨false, s.readPlace p off⟩ }) ∨
    (∃ p w, s.takenAt a off = some p ∧ a.kind = .write w ∧
      s.busAccess a off = { s.writePlace p off w with reply := some ⟨false, 0⟩ }) := by
  unfold State.busAccess
  rcases h : s.takenAt a off with - | p
  · exact .inl ⟨rfl, rfl⟩
  · right
    rcases hk : a.kind with - | w
    · exact .inl ⟨p, rfl, rfl, rfl⟩
    · exact .inr ⟨p, w, rfl, rfl, rfl⟩

/-- The two outcomes of a host access (R35, R36). -/
theorem State.hostAccess_cases (s : State) (a : Access) :
    (s.hostAccess a = { s with reply := none }) ∨ (∃ off, s.hostAccess a = s.busAccess a off) := by
  unfold State.hostAccess
  split
  · exact .inl rfl
  · exact .inr ⟨_, rfl⟩

/-- The four outcomes of a taken write: ignored, dropped, an acceptance, or a change of the named fields (R42, R43). -/
theorem State.writePlace_cases (s : State) (p : Place) (off : Nat) (w : Word) :
    s.writePlace p off w = s ∨ (s.busy = true ∧ s.writePlace p off w = s.dropWrite) ∨
    (p = .reg .cmd ∧ s.busy = false ∧ s.writePlace p off w = s.accept w) ∨
    (p = .reg .status ∧ s.writePlace p off w = { s with
      done := if w.getLsbD 1 then false else s.done
      ovr := if w.getLsbD 3 then false else s.ovr }) ∨
    (p = .reg .ie ∧ s.writePlace p off w = { s with doneIe := w.getLsbD 1, ovrIe := w.getLsbD 3 }) ∨
    (p = .reg .keylen ∧ s.busy = false ∧ s.writePlace p off w = { s with keylen := w }) ∨
    ((p = .arr .keystage ∨ p = .arr .ivstage ∨ p = .arr .din) ∧ s.busy = false ∧
      s.writePlace p off w = { s with mem := Memory.writeBytes s.mem off (wordBytes w) }) := by
  rcases p with r | x
  · cases r <;> cases hb : s.busy <;> simp [State.writePlace, State.writeReg, hb]
  · cases x <;> cases hb : s.busy <;> simp [State.writePlace, State.writeArr, hb]

/-- What a host access never changes. -/
theorem State.hostAccess_frame (s : State) (a : Access) :
    (s.hostAccess a).err = s.err ∧ (s.hostAccess a).session = s.session ∧ (s.hostAccess a).outlen = s.outlen ∧
      (s.hostAccess a).blkcnt = s.blkcnt ∧ (s.hostAccess a).padval = s.padval ∧ (s.hostAccess a).skey = s.skey ∧
      (s.hostAccess a).pbuf = s.pbuf ∧ (s.hostAccess a).pblen = s.pblen ∧ (s.hostAccess a).rst = s.rst ∧
      (s.hostAccess a).agenda = s.agenda := by
  rcases s.hostAccess_cases a with h | ⟨off, h⟩
  · simp [h]
  · rcases s.busAccess_cases a off with ⟨-, h'⟩ | ⟨p, -, -, h'⟩ | ⟨p, w, -, -, h'⟩ <;> rw [h, h']
    · simp
    · simp
    · rcases s.writePlace_cases p off w with e | ⟨-, e⟩ | ⟨-, -, e⟩ | ⟨-, e⟩ | ⟨-, e⟩ | ⟨-, -, e⟩ | ⟨-, -, e⟩ <;> simp [e]

/-- While a command is in flight a host access changes nothing but `DONE`, `OVR`, `IE` and the reply (R43, R46). -/
theorem State.hostAccess_busy (s : State) (a : Access) (hb : s.busy = true) :
    s.hostAccess a = { s with
      done := (s.hostAccess a).done, ovr := (s.hostAccess a).ovr, doneIe := (s.hostAccess a).doneIe,
      ovrIe := (s.hostAccess a).ovrIe, reply := (s.hostAccess a).reply } := by
  rcases s.hostAccess_cases a with h | ⟨off, h⟩
  · simp [h]
  · rcases s.busAccess_cases a off with ⟨-, h'⟩ | ⟨p, -, -, h'⟩ | ⟨p, w, -, -, h'⟩ <;> rw [h, h']
    rcases s.writePlace_cases p off w with e | ⟨-, e⟩ | ⟨-, h0, e⟩ | ⟨-, e⟩ | ⟨-, e⟩ | ⟨-, h0, e⟩ | ⟨-, h0, e⟩
    · simp [e]
    · simp [e, State.dropWrite]
    · simp [hb] at h0
    · simp [e]
    · simp [e]
    · simp [hb] at h0
    · simp [hb] at h0

/-- The place an access is taken at is the place of its offset (R37). -/
theorem State.takenAt_eq_some {s : State} {a : Access} {off : Nat} {p : Place} :
    s.takenAt a off = some p ↔
      s.rst = false ∧ a.size = .word ∧ a.lanes = 0xF ∧ off % 4 = 0 ∧ placeOf off = some p := by
  unfold State.takenAt
  split
  · rename_i h; simp [h]
  · rename_i h
    simp only [reduceCtorEq, false_iff]
    rintro ⟨h1, h2, h3, h4, -⟩
    exact h ⟨h1, h2, h3, h4⟩

/-- Byte `j` of a packed word (R39). -/
theorem packWord_byte (m : Memory) (o j : Nat) (hj : j < 4) :
    (packWord m o).extractLsb' (8 * j) 8 = Memory.read m (o + j) := by
  apply BitVec.eq_of_getLsbD_eq
  intro i hi
  have h : 8 * j + i < 32 := by omega
  simp only [packWord, BitVec.getLsbD_extractLsb', hi, decide_true, Bool.true_and, BitVec.getLsbD_append]
  interval_cases j
  · simp [hi]
  · rw [if_neg (by omega), if_pos (by omega)]; congr 1; omega
  · rw [if_neg (by omega), if_neg (by omega), if_pos (by omega)]; congr 1; omega
  · rw [if_neg (by omega), if_neg (by omega), if_neg (by omega)]; congr 1; omega

/-- A packed word depends only on its four bytes. -/
theorem packWord_congr {m m' : Memory} {o : Nat} (h : ∀ j, j < 4 → Memory.read m (o + j) = Memory.read m' (o + j)) :
    packWord m o = packWord m' o := by
  have h0 := h 0 (by omega)
  have h1 := h 1 (by omega)
  have h2 := h 2 (by omega)
  have h3 := h 3 (by omega)
  simp only [Nat.add_zero] at h0
  simp [packWord, h0, h1, h2, h3]

@[simp] theorem length_wordBytes (w : Word) : (wordBytes w).length = 4 := rfl

theorem wordBytes_getD (w : Word) (j : Nat) (hj : j < 4) : (wordBytes w).getD j 0 = w.extractLsb' (8 * j) 8 := by
  interval_cases j <;> rfl

/-- Two memories in canonical form that read alike are the same. -/
theorem Memory.ext_of_wf (m m' : Memory) (h : Memory.wf m = true) (h' : Memory.wf m' = true)
    (he : ∀ o, Memory.read m o = Memory.read m' o) : m = m' := by
  rw [Memory.wf_iff] at h h'
  have key : ∀ m : Memory, m.Pairwise (fun c d => c.1 < d.1) → (∀ c ∈ m, c.2 ≠ 0) → ∀ c, c ∈ m ↔ c.2 ≠ 0 ∧ Memory.read m c.1 = c.2 := by
    intro m hp hz c
    induction m with
    | nil =>
      simp only [List.not_mem_nil, Memory.read_nil, false_iff, not_and]
      exact fun h e => h e.symm
    | cons d m ih =>
      rw [List.pairwise_cons] at hp
      have ih := ih hp.2 (fun c hc => hz c (by simp [hc]))
      rw [Memory.read_cons, List.mem_cons]
      constructor
      · rintro (rfl | hc)
        · exact ⟨hz c (by simp), by simp⟩
        · have := hp.1 c hc
          rw [if_neg (by omega)]
          exact ih.mp hc
      · rintro ⟨h1, h2⟩
        split at h2
        · left; exact Prod.ext (by simpa using (by assumption : d.1 = c.1).symm) h2.symm
        · right; exact ih.mpr ⟨h1, h2⟩
  refine List.Perm.eq_of_pairwise (le := fun c d => c.1 < d.1) ?_ h.1 h'.1 ?_
  · intro a b _ _ h1 h2; omega
  · apply (List.perm_ext_iff_of_nodup ?_ ?_).mpr
    · intro c; rw [key m h.1 h.2, key m' h'.1 h'.2, he]
    · exact h.1.imp (fun hlt e => by rw [e] at hlt; omega)
    · exact h'.1.imp (fun hlt e => by rw [e] at hlt; omega)

end Sys2Proof.Machine
end

