-- ==== Sys2Proof/Laws/Commands.lean ====
section
/-! SUPPORT. What each command's completion step can do, said once: the outcome is always a next state, the errors in their
order, and the two cases of each command that may fail. -/

namespace Sys2Proof.Machine

/-- `exec` is the completion step at `Config.PRIM`. -/
theorem exec_eq (i : Instr) (s : State) : exec i s = .next (completion Config.PRIM i s) := by cases i <;> rfl

theorem exec_eq_next {i : Instr} {s t : State} : exec i s = .next t ↔ t = completion Config.PRIM i s := by
  rw [exec_eq]; simp only [Host.Outcome.next.injEq]; exact eq_comm

theorem execWith_eq_next {P : Prim} {i : Instr} {s t : State} : execWith P i s = .next t ↔ t = completion P i s := by
  simp only [execWith, Host.Outcome.next.injEq]; exact eq_comm

/-! ### INIT -/

/-- The two outcomes of `INIT` (R63). -/
theorem completeInit_cases (P : Prim) (cipher : Nat) (m : Mode) (d : Dir) (v : Bool) (s : State) :
    (∃ e, initCheck P s cipher d = .error e ∧ completeInit P cipher m d v s = (s.finish (some e)).scrubKeystage) ∨
    (∃ c, initCheck P s cipher d = .ok c ∧
      completeInit P cipher m d v s = ((initWrites s c m d v).finish none).scrubKeystage) := by
  unfold completeInit runInit
  rcases h : initCheck P s cipher d with e | c
  · exact .inl ⟨e, rfl, rfl⟩
  · exact .inr ⟨c, rfl, rfl⟩

/-- When the checks of `INIT` pass (R63). -/
theorem initCheck_ok {P : Prim} {s : State} {cipher : Nat} {d : Dir} {c : Tag} :
    initCheck P s cipher d = .ok c ↔
      s.session = .idle ∧ tagOf cipher = some c ∧ s.keylen ≠ 0 ∧ Prim.keyAccepted P c d (s.stagedKey c) = true := by
  unfold initCheck initPreCheck
  rcases hs : s.session with - | x | x <;> simp only [reduceCtorEq, false_and]
  rcases ht : tagOf cipher with - | t
  · simp
  · by_cases hk : s.keylen = 0
    · simp [hk]
    · simp only [hk, if_false, true_and, Option.some.injEq, ne_eq, not_false_eq_true]
      by_cases hp : Prim.keyAccepted P t d (s.stagedKey t) = true
      · simp only [hp, if_true, Except.ok.injEq]
        constructor
        · rintro rfl; exact ⟨rfl, hp⟩
        · exact fun h => h.1
      · simp only [hp, if_false, reduceCtorEq, false_iff, not_and]
        rintro rfl
        simpa using hp

/-! ### UPDATE -/

/-- When the checks of `UPDATE` pass (R68). -/
theorem updateCheck_ok {s : State} {len : Nat} {f : Bool} {c : CipherSpec} :
    updateCheck s len f = .ok c ↔
      s.session = .active c ∧ len ≤ 1024 ∧ ¬(f = true ∧ c.dir = .decrypt ∧ (s.pblen.toNat + len) % c.bs ≠ 0) := by
  have h1024 : Config.CHUNK_MAX < len ↔ ¬ len ≤ 1024 := not_le.symm
  unfold updateCheck
  rcases hs : s.session with - | x | x <;> simp only [reduceCtorEq, false_and]
  split
  · rename_i hl
    simp only [reduceCtorEq, false_iff]
    exact fun h => h1024.mp hl h.2.1
  · rename_i hl
    rw [h1024, not_not] at hl
    split
    · rename_i h
      simp only [reduceCtorEq, false_iff]
      rintro ⟨he, -, h'⟩
      obtain rfl := Session.active.inj he
      exact h' h
    · rename_i h
      simp only [Except.ok.injEq, Session.active.injEq]
      constructor
      · rintro rfl; exact ⟨rfl, hl, h⟩
      · exact fun h => h.1

/-- The three outcomes of `UPDATE`: a failed check, a failure in the blocks or the padding, or a commit (R67). -/
theorem completeUpdate_cases (P : Prim) (len : Nat) (f : Bool) (s : State) :
    (∃ e, updateCheck s len f = .error e ∧ completeUpdate P len f s = s.finish (some e)) ∨
    (∃ c, updateCheck s len f = .ok c ∧
      ((∃ e, updateResult P c (s.key c) (s.workString len) (s.firstBytes .cv c.bs) f = .error e ∧
          completeUpdate P len f s = s.finish (some e)) ∨
       (∃ r, updateResult P c (s.key c) (s.workString len) (s.firstBytes .cv c.bs) f = .ok r ∧
          completeUpdate P len f s = (s.commit c r f).finish none))) := by
  unfold completeUpdate runUpdate
  rcases h : updateCheck s len f with e | c
  · exact .inl ⟨e, rfl, rfl⟩
  · refine .inr ⟨c, rfl, ?_⟩
    rcases h2 : updateResult P c (s.key c) (s.workString len) (s.firstBytes .cv c.bs) f with e | r
    · left; refine ⟨e, rfl, ?_⟩; simp [h2]
    · right; refine ⟨r, rfl, ?_⟩; simp [h2]

/-- A successful `UPDATE` is a commit (R79). -/
theorem completeUpdate_success {P : Prim} {len : Nat} {f : Bool} {s : State} (h : (completeUpdate P len f s).err = none) :
    ∃ c r, s.session = .active c ∧ len ≤ 1024 ∧
      ¬(f = true ∧ c.dir = .decrypt ∧ (s.pblen.toNat + len) % c.bs ≠ 0) ∧
      updateResult P c (s.key c) (s.workString len) (s.firstBytes .cv c.bs) f = .ok r ∧
      completeUpdate P len f s = (s.commit c r f).finish none := by
  rcases completeUpdate_cases P len f s with ⟨e, -, he⟩ | ⟨c, hc, ⟨e, -, he⟩ | ⟨r, hr, he⟩⟩
  · simp [he] at h
  · simp [he] at h
  · obtain ⟨h1, h2, h3⟩ := updateCheck_ok.mp hc
    exact ⟨c, r, h1, h2, h3, hr, he⟩

/-- An `UPDATE` whose checks pass and whose result is `r` commits it. -/
theorem completeUpdate_of_result {P : Prim} {len : Nat} {f : Bool} {s : State} {c : CipherSpec} {r : Staged}
    (hs : s.session = .active c) (hl : len ≤ 1024)
    (hm : ¬(f = true ∧ c.dir = .decrypt ∧ (s.pblen.toNat + len) % c.bs ≠ 0))
    (hr : updateResult P c (s.key c) (s.workString len) (s.firstBytes .cv c.bs) f = .ok r) :
    completeUpdate P len f s = (s.commit c r f).finish none := by
  unfold completeUpdate runUpdate
  rw [updateCheck_ok.mpr ⟨hs, hl, hm⟩]
  simp [hr]

/-! ### What a command never writes -/

@[simp] theorem completion_done (P : Prim) (i : Instr) (s : State) : (completion P i s).done = true := by
  cases i with
  | nop => rfl
  | close => rfl
  | init c m d v => rcases completeInit_cases P c m d v s with ⟨e, -, h⟩ | ⟨e, -, h⟩ <;> simp [completion, h]
  | update l f =>
    rcases completeUpdate_cases P l f s with ⟨e, -, h⟩ | ⟨c, -, ⟨e, -, h⟩ | ⟨r, -, h⟩⟩ <;> simp [completion, h]

@[simp] theorem completion_busy (P : Prim) (i : Instr) (s : State) : (completion P i s).busy = false := by
  cases i with
  | nop => rfl
  | close => rfl
  | init c m d v => rcases completeInit_cases P c m d v s with ⟨e, -, h⟩ | ⟨e, -, h⟩ <;> simp [completion, h]
  | update l f =>
    rcases completeUpdate_cases P l f s with ⟨e, -, h⟩ | ⟨c, -, ⟨e, -, h⟩ | ⟨r, -, h⟩⟩ <;> simp [completion, h]

/-- The fields no command writes, and the ends of the sequencer's micro-state. -/
theorem completion_frame (P : Prim) (i : Instr) (s : State) :
    (completion P i s).seq = .idle ∧ (completion P i s).staged = Staged.empty ∧ (completion P i s).cmd = s.cmd ∧
      (completion P i s).ovr = s.ovr ∧ (completion P i s).doneIe = s.doneIe ∧ (completion P i s).ovrIe = s.ovrIe ∧
      (completion P i s).keylen = s.keylen ∧ (completion P i s).rst = s.rst ∧ (completion P i s).reply = s.reply ∧
      (completion P i s).agenda = s.agenda := by
  cases i with
  | nop => simp [completion]
  | close => simp [completion]
  | init c m d v => rcases completeInit_cases P c m d v s with ⟨e, -, h⟩ | ⟨e, -, h⟩ <;> simp [completion, h]
  | update l f =>
    rcases completeUpdate_cases P l f s with ⟨e, -, h⟩ | ⟨c, -, ⟨e, -, h⟩ | ⟨r, -, h⟩⟩ <;> simp [completion, h]

end Sys2Proof.Machine
end

