-- ==== Sys2Proof/Laws/Decode.lean ====
section
/-! SUPPORT. The bits of an encoded word, and which words each row of the opcode map matches. -/

namespace Sys2Proof

theorem fieldAt_getLsbD (v n i : Nat) :
    (fieldAt v n).getLsbD i = (decide (n ≤ i) && decide (i < 32) && v.testBit (i - n)) := by
  simp only [fieldAt, BitVec.getLsbD_shiftLeft, BitVec.getLsbD_ofNat]
  by_cases h : i < n <;> by_cases h2 : i < 32 <;> simp [h, h2]
  rw [decide_eq_true (show i - n < 32 by omega), decide_eq_true (show n ≤ i by omega)]

theorem bitAt_getLsbD (b : Bool) (n i : Nat) (hn : n < 32) : (bitAt b n).getLsbD i = (b && decide (i = n)) := by
  unfold bitAt
  cases b
  · simp
  · simp only [if_true, BitVec.getLsbD_twoPow, Bool.true_and, hn, decide_true]
    exact decide_eq_decide.mpr ⟨Eq.symm, Eq.symm⟩

@[simp] theorem modeField_bit (w : Word) : (modeField w).bit = w.getLsbD 7 := by
  unfold modeField; cases w.getLsbD 7 <;> rfl

@[simp] theorem dirField_bit (w : Word) : (dirField w).bit = w.getLsbD 8 := by
  unfold dirField; cases w.getLsbD 8 <;> rfl

theorem Mode.bit_eq_true (m : Mode) : m.bit = true ↔ m = .cbc := by cases m <;> simp [Mode.bit]

theorem Dir.bit_eq_true (d : Dir) : d.bit = true ↔ d = .decrypt := by cases d <;> simp [Dir.bit]

theorem cipherField_lt (w : Word) : cipherField w < 8 := (w.extractLsb' 4 3).isLt

theorem lenField_lt (w : Word) : lenField w < 65536 := (w.extractLsb' 16 16).isLt

theorem Row.matches_iff (r : Row) (w : Word) : r.matches w = true ↔ w &&& r.mask = r.pattern := by simp [Row.matches]

theorem and_eq_iff (w m p : Word) :
    w &&& m = p ↔ ∀ i, i < 32 → (w.getLsbD i && m.getLsbD i) = p.getLsbD i := by
  constructor
  · rintro rfl i _; simp
  · intro h; apply BitVec.eq_of_getLsbD_eq; intro i hi; simp [h i hi]

theorem rowNop_matches (w : Word) : w &&& rowNop.mask = rowNop.pattern ↔ w = encode .nop := by
  simp only [rowNop, encode]
  rw [show (0xFFFFFFFF : Word) = BitVec.allOnes 32 by rfl, BitVec.and_allOnes]

theorem rowClose_matches (w : Word) : w &&& rowClose.mask = rowClose.pattern ↔ w = encode .close := by
  simp only [rowClose, encode]
  rw [show (0xFFFFFFFF : Word) = BitVec.allOnes 32 by rfl, BitVec.and_allOnes]

theorem rowInit_matches (w : Word) :
    w &&& rowInit.mask = rowInit.pattern ↔
      w = encode (.init (cipherField w) (modeField w) (dirField w) (ivsrcField w)) := by
  constructor
  · intro h
    have h' := (and_eq_iff _ _ _).mp h
    apply BitVec.eq_of_getLsbD_eq
    intro i hi
    have hb := h' i hi
    simp only [encode, BitVec.getLsbD_or, fieldAt_getLsbD, bitAt_getLsbD _ 7 _ (by omega : 7 < 32),
      bitAt_getLsbD _ 8 _ (by omega : 8 < 32), bitAt_getLsbD _ 9 _ (by omega : 9 < 32), cipherField,
      BitVec.testBit_toNat, BitVec.getLsbD_extractLsb', modeField_bit, dirField_bit, ivsrcField]
    simp only [rowInit] at hb
    interval_cases i <;> (simp at hb ⊢; try simp [hb])
  · intro h
    rw [h]
    have hc := cipherField_lt w
    generalize cipherField w = c at *
    generalize modeField w = m at *
    generalize dirField w = d at *
    generalize ivsrcField w = v at *
    clear h
    interval_cases c <;> cases m <;> cases d <;> cases v <;> decide

theorem rowUpdate_matches (w : Word) :
    w &&& rowUpdate.mask = rowUpdate.pattern ↔ w = encode (.update (lenField w) (finalField w)) := by
  constructor
  · intro h
    have h' := (and_eq_iff _ _ _).mp h
    apply BitVec.eq_of_getLsbD_eq
    intro i hi
    have hb := h' i hi
    simp only [encode, BitVec.getLsbD_or, fieldAt_getLsbD, bitAt_getLsbD _ 4 _ (by omega : 4 < 32), lenField,
      BitVec.testBit_toNat, BitVec.getLsbD_extractLsb', finalField]
    simp only [rowUpdate] at hb
    interval_cases i <;> (simp at hb ⊢; try simp [hb])
  · intro h
    rw [h, and_eq_iff]
    intro i hi
    simp only [encode, BitVec.getLsbD_or, fieldAt_getLsbD, bitAt_getLsbD _ 4 _ (by omega : 4 < 32), rowUpdate]
    interval_cases i <;> simp

/-- The fields of an encoded command are its operands. -/
theorem fields_encode_init (c : Nat) (m : Mode) (d : Dir) (v : Bool) (h : c < 8) :
    cipherField (encode (.init c m d v)) = c ∧ modeField (encode (.init c m d v)) = m ∧
      dirField (encode (.init c m d v)) = d ∧ ivsrcField (encode (.init c m d v)) = v := by
  interval_cases c <;> cases m <;> cases d <;> cases v <;> decide

theorem fields_encode_update (len : Nat) (f : Bool) (h : len < 65536) :
    lenField (encode (.update len f)) = len ∧ finalField (encode (.update len f)) = f := by
  constructor
  · have : (encode (.update len f)).extractLsb' 16 16 = BitVec.ofNat 16 len := by
      apply BitVec.eq_of_getLsbD_eq
      intro i hi
      simp only [encode, BitVec.getLsbD_extractLsb', BitVec.getLsbD_or, fieldAt_getLsbD,
        bitAt_getLsbD _ 4 _ (by omega : 4 < 32), BitVec.getLsbD_ofNat]
      interval_cases i <;> simp
    rw [lenField, this, BitVec.toNat_ofNat]
    omega
  · simp only [finalField, encode, BitVec.getLsbD_or, fieldAt_getLsbD, bitAt_getLsbD _ 4 _ (by omega : 4 < 32)]
    simp

/-- Whatever a row matches is the word of one command, which `decode` gives (R55, R56). -/
theorem decodeWord_cases (w : Word) :
    (rowNop.matches w = true ∧ decodeWord w = .ok .nop) ∨
    (rowInit.matches w = true ∧
      decodeWord w = .ok (.init (cipherField w) (modeField w) (dirField w) (ivsrcField w))) ∨
    (rowUpdate.matches w = true ∧ decodeWord w = .ok (.update (lenField w) (finalField w))) ∨
    (rowClose.matches w = true ∧ decodeWord w = .ok .close) ∨
    (rowNop.matches w = false ∧ rowInit.matches w = false ∧ rowUpdate.matches w = false ∧ rowClose.matches w = false ∧
      decodeWord w = .error (illegalReason w)) := by
  unfold decodeWord
  cases h1 : rowNop.matches w
  · cases h2 : rowInit.matches w
    · cases h3 : rowUpdate.matches w
      · cases h4 : rowClose.matches w <;> simp
      · simp
    · simp
  · simp

/-- The low four bits of a word a row matches are the row's opcode. -/
theorem opField_of_matches (r : Row) (hr : r ∈ opcodeMap) (w : Word) (h : r.matches w = true) :
    w.extractLsb' 0 4 = r.pattern.extractLsb' 0 4 := by
  rw [Row.matches_iff, and_eq_iff] at h
  have hm : ∀ i, i < 4 → r.mask.getLsbD i = true := by
    simp only [opcodeMap, List.mem_cons, List.not_mem_nil, or_false] at hr
    intro i hi
    rcases hr with rfl | rfl | rfl | rfl <;> interval_cases i <;> rfl
  apply BitVec.eq_of_getLsbD_eq
  intro i hi
  have := h i (by omega)
  rw [hm i hi] at this
  simpa [hi] using this

/-- Two rows match no common word (R55). -/
theorem rows_disjoint (r r' : Row) (hr : r ∈ opcodeMap) (hr' : r' ∈ opcodeMap) (w : Word) (h : r.matches w = true)
    (h' : r'.matches w = true) : r = r' := by
  have e := (opField_of_matches r hr w h).symm.trans (opField_of_matches r' hr' w h')
  simp only [opcodeMap, List.mem_cons, List.not_mem_nil, or_false] at hr hr'
  rcases hr with rfl | rfl | rfl | rfl <;> rcases hr' with rfl | rfl | rfl | rfl <;> first | rfl | exact absurd e (by decide)

/-- A word a row matches decodes to a command of that row, whose operands are the word's fields (R55, R56). -/
theorem decodeWord_of_matches (w : Word) :
    (rowNop.matches w = true → decodeWord w = .ok .nop) ∧
    (rowInit.matches w = true →
      decodeWord w = .ok (.init (cipherField w) (modeField w) (dirField w) (ivsrcField w))) ∧
    (rowUpdate.matches w = true → decodeWord w = .ok (.update (lenField w) (finalField w))) ∧
    (rowClose.matches w = true → decodeWord w = .ok .close) := by
  have d1 := fun h h' => rows_disjoint rowNop rowInit (by simp [opcodeMap]) (by simp [opcodeMap]) w h h'
  have d2 := fun h h' => rows_disjoint rowNop rowUpdate (by simp [opcodeMap]) (by simp [opcodeMap]) w h h'
  have d3 := fun h h' => rows_disjoint rowNop rowClose (by simp [opcodeMap]) (by simp [opcodeMap]) w h h'
  have d4 := fun h h' => rows_disjoint rowInit rowUpdate (by simp [opcodeMap]) (by simp [opcodeMap]) w h h'
  have d5 := fun h h' => rows_disjoint rowInit rowClose (by simp [opcodeMap]) (by simp [opcodeMap]) w h h'
  have d6 := fun h h' => rows_disjoint rowUpdate rowClose (by simp [opcodeMap]) (by simp [opcodeMap]) w h h'
  simp only [rowNop, rowInit, rowUpdate, rowClose, Row.mk.injEq, String.reduceEq, false_and] at d1 d2 d3 d4 d5 d6
  refine ⟨fun h => ?_, fun h => ?_, fun h => ?_, fun h => ?_⟩ <;>
    rcases decodeWord_cases w with ⟨a, b⟩ | ⟨a, b⟩ | ⟨a, b⟩ | ⟨a, b⟩ | ⟨a1, a2, a3, a4, b⟩ <;>
    first
      | exact b
      | exact (d1 h a).elim
      | exact (d1 a h).elim
      | exact (d2 h a).elim
      | exact (d2 a h).elim
      | exact (d3 h a).elim
      | exact (d3 a h).elim
      | exact (d4 h a).elim
      | exact (d4 a h).elim
      | exact (d5 h a).elim
      | exact (d5 a h).elim
      | exact (d6 h a).elim
      | exact (d6 a h).elim
      | simp_all

end Sys2Proof
end

