-- ==== Sys2Proof/Laws/PerInstr.lean ====
section
/-! SUPPORT. What is said of every command as syntax, one lemma per constructor: its word matches its row of the opcode map
(30_encoding.md R55). -/

namespace Sys2Proof.Laws.EncodeMatchesRow

/-- A well-formed command's word matches the row of the command. -/
def Statement (i : Instr) : Prop := i.wf = true → (rowOf i).matches (encode i) = true

theorem nop : Statement .nop := fun _ => by decide

theorem init (cipher : Nat) (mode : Mode) (dir : Dir) (ivsrc : Bool) : Statement (.init cipher mode dir ivsrc) := by
  intro h
  obtain ⟨h1, h2, h3, h4⟩ := fields_encode_init cipher mode dir ivsrc (by simpa [Instr.wf] using h)
  show rowInit.matches _ = true
  rw [Row.matches_iff, rowInit_matches, h1, h2, h3, h4]

theorem update (len : Nat) (final : Bool) : Statement (.update len final) := by
  intro h
  obtain ⟨h1, h2⟩ := fields_encode_update len final (by simpa [Instr.wf] using h)
  show rowUpdate.matches _ = true
  rw [Row.matches_iff, rowUpdate_matches, h1, h2]

theorem close : Statement .close := fun _ => by decide

end Sys2Proof.Laws.EncodeMatchesRow
end

