-- ==== Sys2Proof/Laws/Port.lean ====
section
/-! SUPPORT. The port's buses: what a byte of a packed bus is, and that unpacking undoes packing
(44_primitive_adapter.md R106). -/

namespace Sys2Proof.Machine

/-- Byte `i` of a packed bus (R106). -/
theorem packBytes_byte (n : Nat) (l : List Byte) (i : Nat) (h : 8 * i + 8 ≤ n) : 
    (packBytes n l).extractLsb' (8 * i) 8 = l.getD i 0 := by
  induction l generalizing i with
  | nil => simp [packBytes]
  | cons b l ih =>
    apply BitVec.eq_of_getLsbD_eq
    intro j hj
    simp only [packBytes, BitVec.getLsbD_extractLsb', hj, decide_true, Bool.true_and, BitVec.getLsbD_or,
      BitVec.getLsbD_setWidth, BitVec.getLsbD_shiftLeft]
    cases i with
    | zero =>
      simp [show j < n by omega, hj]
    | succ i =>
      have := congrArg (fun x => x.getLsbD j) (ih i (by omega))
      simp only [BitVec.getLsbD_extractLsb', hj, decide_true, Bool.true_and] at this
      rw [List.getD_cons_succ, ← this, show 8 * (i + 1) + j - 8 = 8 * i + j by omega]
      have : b.getLsbD (8 * (i + 1) + j) = false := BitVec.getLsbD_of_ge _ _ (by omega)
      simp [this, show 8 * (i+1) + j < n by omega, show ¬ 8 * (i+1) + j < 8 by omega]

/-- Unpacking what was packed gives the bytes back (R106). -/
theorem unpackBytes_packBytes (n : Nat) (l : List Byte) (m : Nat) (h : 8 * m ≤ n) (hm : m ≤ l.length) :
    unpackBytes (packBytes n l) m = l.take m := by
  apply List.ext_getElem
  · simp [unpackBytes]; omega
  · intro i h1 h2
    simp [unpackBytes] at h1
    simp only [unpackBytes, List.getElem_map, List.getElem_range]
    rw [packBytes_byte _ _ _ (by omega)]; simp [List.getElem?_eq_getElem (show i < l.length by omega)]

/-- The tag on the port names the session's cipher (R106). -/
theorem tagOf_tagNum (c : Tag) : tagOf (BitVec.ofNat 3 (tagNum c)).toNat = some c := by cases c <;> rfl

end Sys2Proof.Machine
end

