-- ==== Sys2Proof/Laws/Sequencer.lean ====
section
/-! SUPPORT. What the sequencer's micro-steps can do, said once (42_padding.md R91): the micro-states a command reaches, and
that its completion micro-step leaves what the atomic completion step leaves. -/

namespace Sys2Proof.Machine

/-- What the completion step of the command in flight leaves (R108). -/
theorem completeWith_exec (s : State) : completeWith exec s = .next
    (match decodeWord s.cmd with
      | .ok i => completion Config.PRIM i s
      | .error _ => s.rejectIllegal) := by
  unfold completeWith
  rcases decodeWord s.cmd with e | i
  · rfl
  · exact exec_eq i s

/-- `seqNext` sees the micro-state it is given and the frozen state only. -/
theorem seqIter_succ (P : Prim) (s : State) (k : Nat) : seqIter P s (k + 1) = seqNext P (s.moveSeq (seqIter P s k)) := rfl

theorem seqIter_one (P : Prim) (s : State) : seqIter P s 1 = seqDecode (s.moveSeq (.decode, Staged.empty)) := rfl

theorem seqNext_block (P : Prim) (s : State) (j : Nat) (st : Staged) {len : Nat} {f : Bool} {c : CipherSpec}
    (h : s.updateInFlight = some (len, f, c)) :
    seqNext P (s.moveSeq (.block j, st)) =
      match xform P c (s.key c) (blockAt (s.workString len) c.bs j) st.cv with
      | none => (.abort .primitiveFailure, st)
      | some (y, cv) =>
        (if j + 1 < (s.workString len).length / c.bs then .block (j + 1) else .tail,
          { st with out := st.out ++ y, cv := cv, cnt := st.cnt + 1 }) := by
  show seqBlock P (s.moveSeq (.block j, st)) j = _
  unfold seqBlock
  have : (s.moveSeq (.block j, st)).updateInFlight = some (len, f, c) := h
  rw [this]; rfl

theorem seqNext_tail (P : Prim) (s : State) (st : Staged) {len : Nat} {f : Bool} {c : CipherSpec}
    (h : s.updateInFlight = some (len, f, c)) :
    seqNext P (s.moveSeq (.tail, st)) =
      if f then (match c.dir with | .encrypt => (.pad, st) | .decrypt => (.unpad, st))
      else (.commit, { st with carry := tailOf (s.workString len) c.bs, pad := 0 }) := by
  show seqTail (s.moveSeq (.tail, st)) = _
  unfold seqTail
  have : (s.moveSeq (.tail, st)).updateInFlight = some (len, f, c) := h
  rw [this]; rfl

theorem seqNext_pad (P : Prim) (s : State) (st : Staged) {len : Nat} {f : Bool} {c : CipherSpec}
    (h : s.updateInFlight = some (len, f, c)) :
    seqNext P (s.moveSeq (.pad, st)) =
      match padResult P c (s.key c) (tailOf (s.workString len) c.bs) st with
      | .ok r => (.commit, r)
      | .error e => (.abort e, st) := by
  show seqPad P (s.moveSeq (.pad, st)) = _
  unfold seqPad
  have : (s.moveSeq (.pad, st)).updateInFlight = some (len, f, c) := h
  rw [this]; rfl

theorem seqNext_unpad (P : Prim) (s : State) (st : Staged) {len : Nat} {f : Bool} {c : CipherSpec}
    (h : s.updateInFlight = some (len, f, c)) :
    seqNext P (s.moveSeq (.unpad, st)) =
      match stripResult c st with
      | .ok r => (.commit, r)
      | .error e => (.abort e, st) := by
  show seqUnpad (s.moveSeq (.unpad, st)) = _
  unfold seqUnpad
  have : (s.moveSeq (.unpad, st)).updateInFlight = some (len, f, c) := h
  rw [this]; rfl

/-- From `Q_ABORT` the sequencer is done with that code one micro-step later. -/
theorem seqIter_abort {P : Prim} {s : State} {k : Nat} {e : CmdError} {st : Staged} (h : seqIter P s k = (.abort e, st)) :
    seqIter P s (k + 1) = (.done (some e), Staged.empty) := by rw [seqIter_succ, h]; rfl

theorem seqIter_commit {P : Prim} {s : State} {k : Nat} {st : Staged} (h : seqIter P s k = (.commit, st)) :
    seqIter P s (k + 1) = (.done none, st) := by rw [seqIter_succ, h]; rfl

/-- Once the sequencer is done its micro-state stays until the completion. -/
theorem seqIter_done {P : Prim} {s : State} {k : Nat} {code : Option CmdError} {st : Staged}
    (h : seqIter P s k = (.done code, st)) (d : Nat) : seqIter P s (k + d) = (.done code, st) := by
  induction d with
  | zero => exact h
  | succ d ih => rw [← Nat.add_assoc, seqIter_succ, ih]; rfl

/-- The loop of `Q_BLOCK` follows `runBlocks` (R67, R91): after `j` answered blocks, or stopped at the first failing one. -/
theorem seqIter_blocks {P : Prim} {s : State} {len : Nat} {f : Bool} {c : CipherSpec}
    (hu : s.updateInFlight = some (len, f, c))
    (h2 : seqIter P s 2 = (if (s.workString len).length / c.bs = 0 then .tail else .block 0,
      ⟨[], s.firstBytes .cv c.bs, [], 0, 0⟩))
    (j : Nat) (hj : j ≤ (s.workString len).length / c.bs) :
    match runBlocks P c (s.key c) (s.workString len) (s.firstBytes .cv c.bs) j with
    | some (o, v) => seqIter P s (2 + j) =
        (if j < (s.workString len).length / c.bs then .block j else .tail, ⟨o, v, [], j, 0⟩)
    | none => ∃ k st, k ≤ 2 + j ∧ seqIter P s k = (.abort .primitiveFailure, st) := by
  induction j with
  | zero =>
    simp only [runBlocks_zero, Nat.add_zero, h2]
    by_cases h : (s.workString len).length / c.bs = 0
    · rw [if_pos h, if_neg (by omega)]
    · rw [if_neg h, if_pos (Nat.pos_of_ne_zero h)]
  | succ j ih =>
    have ih := ih (by omega)
    simp only [runBlocks]
    rcases hr : runBlocks P c (s.key c) (s.workString len) (s.firstBytes .cv c.bs) j with - | ⟨o, v⟩
    · rw [hr] at ih
      obtain ⟨k, st, hk, h⟩ := ih
      exact ⟨k, st, by omega, h⟩
    · rw [hr] at ih
      simp only at ih
      rw [if_pos (by omega)] at ih
      have hn := seqIter_succ P s (2 + j)
      rw [ih, seqNext_block P s j _ hu, Nat.add_assoc] at hn
      simp only at hn ⊢
      rcases hx : xform P c (s.key c) (blockAt (s.workString len) c.bs j) v with - | ⟨y, w⟩
      · rw [hx] at hn; exact ⟨_, _, le_refl _, hn⟩
      · rw [hx] at hn; exact hn

/-- A command whose checks have passed or failed: the sequencer is done within a bounded number of micro-steps, and the
completion micro-step leaves what the atomic completion leaves. -/
theorem seqIter_completes (P : Prim) (s : State) :
    ∃ n code st, n ≤ 137 ∧ seqIter P s n = (.done code, st) ∧ microStep P (s.moveSeq (.done code, st)) =
      (match decodeWord s.cmd with
        | .ok i => completion P i s
        | .error _ => s.rejectIllegal) := by
  have h1 : seqIter P s 1 = seqDecode (s.moveSeq (.decode, Staged.empty)) := rfl
  simp only [seqDecode, State.moveSeq_cmd, State.moveSeq_staged] at h1
  have h2' := seqIter_succ P s 1
  rcases hd : decodeWord s.cmd with e | i
  · rw [hd] at h1
    refine ⟨2, _, _, by omega, seqIter_abort h1, ?_⟩
    simp only [microStep, State.moveSeq_seq, seqFail, State.moveSeq_cmd, hd]; rfl
  · rw [hd] at h1
    simp only at h1
    rw [h1] at h2'
    have h2 : seqIter P s 2 = seqCheck P (s.moveSeq (.check, Staged.empty)) := h2'
    unfold seqCheck at h2
    simp only [State.moveSeq_cmd, hd, State.moveSeq_staged] at h2
    cases i with
    | nop =>
      refine ⟨3, _, _, by omega, seqIter_commit h2, ?_⟩
      simp only [microStep, State.moveSeq_seq, seqSucceed, State.moveSeq_cmd, hd]; rfl
    | close =>
      refine ⟨3, _, _, by omega, seqIter_commit h2, ?_⟩
      simp only [microStep, State.moveSeq_seq, seqSucceed, State.moveSeq_cmd, hd]; rfl
    | init ci m d v =>
      simp only at h2
      have hc : initCheck P (s.moveSeq (.check, Staged.empty)) ci d = initCheck P s ci d := rfl
      rw [hc] at h2
      rcases hi : initCheck P s ci d with e | t
      · rw [hi] at h2
        refine ⟨3, _, _, by omega, seqIter_abort h2, ?_⟩
        simp only [microStep, State.moveSeq_seq, seqFail, State.moveSeq_cmd, hd, completion, completeInit, runInit, hi]; rfl
      · rw [hi] at h2
        refine ⟨3, _, _, by omega, seqIter_commit h2, ?_⟩
        have ht := (initCheck_ok.mp hi).2.1
        simp only [microStep, State.moveSeq_seq, seqSucceed, State.moveSeq_cmd, hd, ht, completion, completeInit, runInit, hi]; rfl
    | update len f =>
      simp only at h2
      have hc : updateCheck (s.moveSeq (.check, Staged.empty)) len f = updateCheck s len f := rfl
      rw [hc] at h2
      rcases hi : updateCheck s len f with e | c
      · rw [hi] at h2
        refine ⟨3, _, _, by omega, seqIter_abort h2, ?_⟩
        simp only [microStep, State.moveSeq_seq, seqFail, State.moveSeq_cmd, hd, completion, completeUpdate, runUpdate, hi]; rfl
      · rw [hi] at h2
        obtain ⟨hs, hl, hm⟩ := updateCheck_ok.mp hi
        have hu : s.updateInFlight = some (len, f, c) := by simp [State.updateInFlight, hd, hs, Session.cfg?]
        have hnb : (s.workString len).length / c.bs ≤ 129 := by
          rw [State.length_workString]
          have := s.pblen.isLt
          rcases c.bs_eq with h | h <;> rw [h] <;> omega
        have fail : ∀ (k : Nat) (e : CmdError) (st : Staged), k ≤ 136 → seqIter P s k = (.abort e, st) →
            updateResult P c (s.key c) (s.workString len) (s.firstBytes .cv c.bs) f = .error e →
            ∃ n code st, n ≤ 137 ∧ seqIter P s n = (.done code, st) ∧ microStep P (s.moveSeq (.done code, st)) = completeUpdate P len f s := by
          intro k e st hk h hr
          refine ⟨_, _, _, by omega, seqIter_abort h, ?_⟩
          simp only [microStep, State.moveSeq_seq, seqFail, State.moveSeq_cmd, hd, completeUpdate, runUpdate, hi, hr]; rfl
        have succ : ∀ (k : Nat) (st : Staged), k ≤ 136 → seqIter P s k = (.commit, st) →
            updateResult P c (s.key c) (s.workString len) (s.firstBytes .cv c.bs) f = .ok st →
            ∃ n code st, n ≤ 137 ∧ seqIter P s n = (.done code, st) ∧ microStep P (s.moveSeq (.done code, st)) = completeUpdate P len f s := by
          intro k st hk h hr
          refine ⟨_, _, _, by omega, seqIter_commit h, ?_⟩
          have : s.session.cfg? = some c := by rw [hs]; rfl
          simp only [microStep, State.moveSeq_seq, seqSucceed, State.moveSeq_cmd, hd, State.moveSeq_session, this, completeUpdate, runUpdate, hi, hr, State.conclude_ok, State.moveSeq_staged]
          apply State.ext
          all_goals first | rfl | simp
          · cases hm : c.mode <;> simp [State.commitCv, hm] <;> rfl
        have hb := seqIter_blocks (P := P) hu h2 _ (le_refl _)
        simp only [completion]
        rcases hr : runBlocks P c (s.key c) (s.workString len) (s.firstBytes .cv c.bs) ((s.workString len).length / c.bs) with - | ⟨o, v⟩
        · rw [hr] at hb
          obtain ⟨k, st, hk, h⟩ := hb
          exact fail k _ st (by omega) h (by simp only [updateResult, blockCount, hr])
        · rw [hr] at hb
          simp only [lt_irrefl, if_false] at hb
          have ht := seqIter_succ P s (2 + (s.workString len).length / c.bs)
          rw [hb, seqNext_tail P s _ hu] at ht
          cases f with
          | false =>
            exact succ _ _ (by omega) ht (by simp only [updateResult, blockCount, hr, tailResult, Bool.false_eq_true, if_false])
          | true =>
            simp only [if_true] at ht
            cases hdir : c.dir with
            | encrypt =>
              rw [hdir] at ht
              have hp := seqIter_succ P s (2 + (s.workString len).length / c.bs + 1)
              rw [ht, seqNext_pad P s _ hu] at hp
              rcases hres : padResult P c (s.key c) (tailOf (s.workString len) c.bs) ⟨o, v, [], (s.workString len).length / c.bs, 0⟩ with e | r
              · rw [hres] at hp
                exact fail _ _ _ (by omega) hp (by simp only [updateResult, blockCount, hr, tailResult, if_true, hdir, hres])
              · rw [hres] at hp
                exact succ _ _ (by omega) hp (by simp only [updateResult, blockCount, hr, tailResult, if_true, hdir, hres])
            | decrypt =>
              rw [hdir] at ht
              have hp := seqIter_succ P s (2 + (s.workString len).length / c.bs + 1)
              rw [ht, seqNext_unpad P s _ hu] at hp
              rcases hres : stripResult c ⟨o, v, [], (s.workString len).length / c.bs, 0⟩ with e | r
              · rw [hres] at hp
                exact fail _ _ _ (by omega) hp (by simp only [updateResult, blockCount, hr, tailResult, if_true, hdir, hres])
              · rw [hres] at hp
                exact succ _ _ (by omega) hp (by simp only [updateResult, blockCount, hr, tailResult, if_true, hdir, hres])

/-- The reached micro-states depend on the frozen state only through `seqNext`. -/
theorem seqIter_congr (P : Prim) (s t : State) (h : ∀ n, seqNext P (s.moveSeq n) = seqNext P (t.moveSeq n)) (k : Nat) : seqIter P s k = seqIter P t k := by
  induction k with
  | zero => rfl
  | succ k ih => rw [seqIter_succ, seqIter_succ, ih, h]

/-- A micro-step that is not the completion moves the micro-state and nothing else (R91). -/
theorem microStep_not_done {P : Prim} {s : State} (h : ∀ code, s.seq ≠ .done code) : microStep P s = s.moveSeq (seqNext P s) := by
  unfold microStep
  split
  · rename_i hq; exact absurd hq (h _)
  · rename_i hq; exact absurd hq (h _)
  all_goals rfl

/-- The step of a sequencer event while a command is in flight. -/
theorem step_sequencer {s : State} {rest : List Event} (hf : s.inFlight = true) (ha : s.agenda = .sequencer :: rest) :
    step s = .next (microStep Config.PRIM { s with agenda := rest }) := by
  have : State.inFlight { s with agenda := rest } = true := hf
  simp [step, advance, ha, eventStep, this]

/-- A micro-step that leaves the command in flight changes the micro-state only (R12, R91). -/
theorem microStep_busy (P : Prim) (s : State) (h : (microStep P s).busy = true) : 
    microStep P s = { s with seq := (microStep P s).seq, staged := (microStep P s).staged } := by
  unfold microStep at h ⊢
  split at h
  · unfold seqSucceed at h ⊢
    rcases hd : decodeWord s.cmd with e | i
    · rfl
    · rw [hd] at h
      cases i with
      | nop => simp at h
      | close => simp at h
      | init c m d v => simp only at h ⊢; rcases ht : tagOf c with - | t <;> rw [ht] at h <;> simp at h ⊢; rfl
      | update l f => simp only at h ⊢; rcases ht : s.session.cfg? with - | t <;> rw [ht] at h <;> simp at h ⊢; rfl
  · unfold seqFail at h
    rcases hd : decodeWord s.cmd with e | i <;> rw [hd] at h
    · simp at h
    · cases i <;> simp at h
  all_goals rfl

end Sys2Proof.Machine
end

