-- ==== Sys2Proof/Laws/Stream.lean ====
section
/-! SUPPORT. What one delivered chunk does, said once (41_update.md R67, R69, R79): the outcome of `feed` as a function of the
carry, the chunk and the chaining value. -/

namespace Sys2Proof.Machine

/-- The work string of a staged chunk is the carry and then the chunk (R69). -/
theorem State.workString_stageDin (s : State) (chunk : List Byte) (h : chunk.length ≤ 1024) :
    (s.stageDin chunk).workString chunk.length = s.carry ++ chunk := by
  have ht : chunk.take Arr.din.size = chunk := List.take_of_length_le h
  have hd : (s.stageDin chunk).firstBytes .din chunk.length = chunk := by
    show Memory.readBytes (Memory.writeBytes s.mem Arr.din.base (chunk.take Arr.din.size)) Arr.din.base chunk.length = chunk
    rw [ht, Memory.readBytes_writeBytes]
  show (s.stageDin chunk).carry ++ _ = _
  rw [hd]; rfl

/-- Staging a chunk leaves the chaining value. -/
theorem State.cv_stageDin (s : State) (chunk : List Byte) (n : Nat) (hn : n ≤ 16) :
    (s.stageDin chunk).firstBytes .cv n = s.firstBytes .cv n := by
  apply State.firstBytes_congr
  intro i hi
  show Memory.read (Memory.writeBytes s.mem Arr.din.base (chunk.take Arr.din.size)) _ = _
  rw [Memory.read_writeBytes, if_neg]
  · rfl
  · have h1 : Arr.cv.base = 0x70 := rfl
    have h2 : Arr.din.base = 0x400 := rfl
    omega

/-- The carry after a commit (R79). -/
theorem State.carry_commit (s : State) (c : CipherSpec) (r : Staged) (f : Bool) (h : r.carry.length < c.bs) :
    (s.commit c r f).carry = r.carry := by
  have hb := c.bs_le
  have e : (s.commit c r f).pblen.toNat = r.carry.length := by
    simp only [State.commit_pblen, BitVec.toNat_ofNat]; omega
  show (s.commit c r f).pbuf.toList.take (s.commit c r f).pblen.toNat = _
  rw [e, State.commit_pbuf, regOf_take _ _ (by omega)]

/-- In ECB the loop leaves the chaining value (R73). -/
theorem runBlocks_ecb_cv {P : Prim} {c : CipherSpec} {k T cv out cv' : List Byte} {n : Nat} (hm : c.mode = .ecb)
    (h : runBlocks P c k T cv n = some (out, cv')) : cv' = cv := by
  induction n generalizing out cv' with
  | zero => simp at h; exact h.2.symm
  | succ n ih =>
    obtain ⟨o, v, y, ho, hy, rfl⟩ := runBlocks_succ.mp h
    have := ih ho; subst this
    unfold xform at hy; rw [hm] at hy
    cases hd : c.dir <;> rw [hd] at hy <;> simp at hy <;> exact hy.2.symm

/-- In ECB a result's chaining value is the one it began with (R73). -/
theorem updateResult_ecb_cv {P : Prim} {c : CipherSpec} {k T cv : List Byte} {f : Bool} {r : Staged} (hm : c.mode = .ecb)
    (h : updateResult P c k T cv f = .ok r) : r.cv = cv := by
  obtain ⟨out, v, hb, hr⟩ := updateResult_ok h
  have hv := runBlocks_ecb_cv hm hb
  rcases hr with ⟨rfl, rfl⟩ | ⟨rfl, hd, y, w, hx, rfl⟩ | ⟨rfl, -, o, p, -, rfl⟩
  · exact hv
  · unfold xform at hx; rw [hm, hd] at hx; simp at hx
    simp only; rw [← hx.2, hv]
  · exact hv

/-- The chaining value after a commit of a result, in both modes (R73, R79). -/
theorem State.cv_commit {P : Prim} {s : State} {c : CipherSpec} {T : List Byte} {f : Bool} {r : Staged}
    (h : updateResult P c (s.key c) T (s.firstBytes .cv c.bs) f = .ok r) (hl : r.cv.length = c.bs) :
    (s.commit c r f).firstBytes .cv c.bs = r.cv := by
  cases hm : c.mode
  · rw [State.commit_cv_ecb _ _ _ _ hm _ c.bs_le, updateResult_ecb_cv hm h]
  · have e := congrArg (List.take c.bs) (State.commit_cv_cbc s c r f hm hl)
    rw [State.firstBytes_take _ _ _ _ c.bs_le] at e
    rw [e, ← hl]; simp

/-- When a delivered chunk succeeds, and what the state after it holds: the outcome is a function of the session's key, carry
and chaining value and of the chunk (R67, R69, R79). -/
theorem feed_eq_some {P : Prim} {s : State} {c : CipherSpec} {chunk : List Byte} {f : Bool} (hs : s.session = .active c) :
    (∃ t out, feed P s chunk f = some (t, out)) ↔
      chunk.length ≤ 1024 ∧ ¬(f = true ∧ c.dir = .decrypt ∧ (s.pblen.toNat + chunk.length) % c.bs ≠ 0) ∧
        ∃ r, updateResult P c (s.key c) (s.carry ++ chunk) (s.firstBytes .cv c.bs) f = .ok r := by
  constructor
  · rintro ⟨t, out, h⟩
    simp only [feed, execWith] at h
    split at h
    · rename_i he
      obtain ⟨c', r, hs', hl, hm, hr, -⟩ := completeUpdate_success he
      obtain rfl : c = c' := Session.active.inj (hs.symm.trans hs')
      rw [State.workString_stageDin _ _ hl, State.cv_stageDin _ _ _ c.bs_le] at hr
      exact ⟨hl, hm, r, hr⟩
    · simp at h
  · rintro ⟨hl, hm, r, hr⟩
    rw [← State.workString_stageDin _ _ hl, ← State.cv_stageDin s chunk _ c.bs_le] at hr
    have e := completeUpdate_of_result (s := s.stageDin chunk) hs hl hm hr
    simp only [feed, execWith, completion, e]
    exact ⟨_, _, rfl⟩

/-- What the state after a delivered chunk holds, and its output (R79). -/
theorem feed_next {P : Prim} {s t : State} {c : CipherSpec} {chunk out : List Byte} {f : Bool} (hs : s.session = .active c)
    (h : feed P s chunk f = some (t, out)) :
    ∃ r, updateResult P c (s.key c) (s.carry ++ chunk) (s.firstBytes .cv c.bs) f = .ok r ∧ out = r.out ∧
      t.session = (if f then .finished c else .active c) ∧ t.key c = s.key c ∧ t.carry = r.carry ∧
      t.pblen.toNat = r.carry.length ∧ t.firstBytes .cv c.bs = r.cv := by
  simp only [feed, execWith] at h
  split at h
  · rename_i he
    simp only [Option.some.injEq, Prod.mk.injEq] at h
    obtain ⟨rfl, rfl⟩ := h
    obtain ⟨c', r, hs', hl, hm, hr, e⟩ := completeUpdate_success he
    obtain rfl : c = c' := Session.active.inj (hs.symm.trans hs')
    obtain ⟨h1, h2, h3, -⟩ := updateResult_fits hl hr
    have hb := c.bs_le
    have hr' := hr
    rw [State.workString_stageDin _ _ hl, State.cv_stageDin _ _ _ c.bs_le] at hr'
    refine ⟨r, hr', ?_⟩
    simp only [completion, e]
    have ho : (((s.stageDin chunk).commit c r f).finish none).outlen.toNat = r.out.length := by
      simp only [State.finish_outlen, State.commit_outlen, BitVec.toNat_ofNat]; omega
    refine ⟨?_, ?_, ?_, State.carry_commit (s.stageDin chunk) c r f h2, ?_, State.cv_commit hr h3⟩
    · rw [ho, State.firstBytes_finish]
      have d := congrArg (List.take r.out.length) (State.commit_dout (s.stageDin chunk) c r f h1)
      rw [State.firstBytes_take _ _ _ _ h1] at d
      rw [d]; simp
    · cases f <;> simp [hs]
    · simp [State.key]
    · simp only [State.finish_pblen, State.commit_pblen, BitVec.toNat_ofNat]; omega
  · simp at h

/-! ### A work string cut after whole blocks -/

theorem blockCount_append {A B : List Byte} {bs a : Nat} (hA : A.length = a * bs) (hb : 0 < bs) :
    (A ++ B).length / bs = a + B.length / bs := by
  rw [List.length_append, hA, Nat.add_comm, Nat.add_mul_div_right _ _ hb, Nat.add_comm]

theorem tailOf_append {A B : List Byte} {bs a : Nat} (hA : A.length = a * bs) (hb : 0 < bs) :
    tailOf (A ++ B) bs = tailOf B bs := by
  simp only [tailOf, blockCount, blockCount_append hA hb]
  rw [show (a + B.length / bs) * bs = A.length + B.length / bs * bs by rw [hA]; ring, List.drop_append]
  simp

/-- Stripping the end of an output strips the same from any longer output with that end (R87, R88). -/
theorem padStrip_append {o out o' : List Byte} {bs p : Nat} (h : padStrip out bs = some (o', p)) :
    padStrip (o ++ out) bs = some (o ++ o', p) := by
  obtain ⟨last, hl, rfl, h1, h2, h3, rfl⟩ := padStrip_eq_some.mp h
  refine padStrip_eq_some.mpr ⟨last, ?_, rfl, h1, h2, by rw [List.length_append]; omega, ?_⟩
  · rw [List.getLast?_append, hl]; rfl
  · rw [List.length_append, Nat.add_sub_assoc h3, List.take_append]
    simp

theorem padStrip_of_append {o out o' : List Byte} {bs p : Nat} (hlen : bs ≤ out.length) (h : padStrip (o ++ out) bs = some (o', p)) :
    ∃ o'', padStrip out bs = some (o'', p) ∧ o' = o ++ o'' := by
  obtain ⟨last, hl, rfl, h1, h2, h3, rfl⟩ := padStrip_eq_some.mp h
  rcases hx : out.getLast? with - | x
  · rw [List.getLast?_eq_none_iff] at hx
    subst hx; simp at hlen; omega
  · rw [List.getLast?_append, hx] at hl
    obtain rfl : x = last := by simpa using hl
    refine ⟨_, padStrip_eq_some.mpr ⟨x, hx, rfl, h1, h2, by omega, rfl⟩, ?_⟩
    rw [List.length_append, Nat.add_sub_assoc (by omega), List.take_append]
    simp

/-- The result over a work string whose first `a` blocks give `o` and the chaining value `v` is the result over the rest,
with `o` before its output (R76, R80). -/
theorem updateResult_append {P : Prim} {c : CipherSpec} {k A B cv o v : List Byte} {a : Nat} {f : Bool} {r : Staged}
    (hA : A.length = a * c.bs) (hb : runBlocks P c k A cv a = some (o, v)) (h : updateResult P c k B v f = .ok r) :
    updateResult P c k (A ++ B) cv f = .ok { r with out := o ++ r.out, cnt := a + r.cnt } := by
  obtain ⟨out, w, hr, hc⟩ := updateResult_ok h
  have e := runBlocks_append P c k A B cv a (B.length / c.bs) hA
  rw [hb] at e
  simp only [hr] at e
  simp only [updateResult, blockCount, blockCount_append hA c.bs_pos, e, tailOf_append hA c.bs_pos]
  rcases hc with ⟨rfl, rfl⟩ | ⟨rfl, hd, y, u, hx, rfl⟩ | ⟨rfl, hd, o', p, hx, rfl⟩
  · simp [tailResult]
  · simp [tailResult, hd, padResult, hx, length_tailOf, Nat.add_assoc]
  · simp [tailResult, hd, stripResult, padStrip_append hx]

/-- The other way, when the final decrypt chunk still holds a whole block (R82). -/
theorem updateResult_of_append {P : Prim} {c : CipherSpec} {k A B cv o v : List Byte} {a : Nat} {f : Bool} {r : Staged}
    (hA : A.length = a * c.bs) (hb : runBlocks P c k A cv a = some (o, v)) (hv : v.length = c.bs)
    (hf : f = true → c.dir = .decrypt → c.bs ≤ B.length) (h : updateResult P c k (A ++ B) cv f = .ok r) :
    ∃ r', updateResult P c k B v f = .ok r' ∧ r = { r' with out := o ++ r'.out, cnt := a + r'.cnt } := by
  obtain ⟨out, w, hr, hc⟩ := updateResult_ok h
  have e := runBlocks_append P c k A B cv a (B.length / c.bs) hA
  rw [blockCount_append hA c.bs_pos] at hr hc
  rw [hb, hr] at e
  simp only at e
  rcases hB : runBlocks P c k B v (B.length / c.bs) with - | ⟨out', w'⟩
  · simp [hB] at e
  · simp only [hB, Option.some.injEq, Prod.mk.injEq] at e
    obtain ⟨rfl, rfl⟩ := e
    simp only [updateResult, blockCount, hB]
    rw [tailOf_append hA c.bs_pos] at hc
    rcases hc with ⟨rfl, rfl⟩ | ⟨rfl, hd, y, u, hx, rfl⟩ | ⟨rfl, hd, o', p, hx, rfl⟩
    · exact ⟨_, rfl, rfl⟩
    · refine ⟨⟨out' ++ y, u, [], B.length / c.bs + 1, c.bs - (tailOf B c.bs).length⟩,
        by simp only [tailResult, if_true, hd, padResult, hx], ?_⟩
      simp only [length_tailOf, List.append_assoc, Nat.add_assoc, List.length_append, hA, Nat.mul_add_mod_self_right]
    · have hl := (runBlocks_length hB (Nat.div_mul_le_self _ _) hv).1
      have hBl : c.bs ≤ out'.length := by
        rw [hl]
        exact Nat.le_mul_of_pos_left _ (Nat.div_pos (hf rfl hd) c.bs_pos)
      obtain ⟨o'', hs, rfl⟩ := padStrip_of_append hBl hx
      exact ⟨⟨o'', w, [], B.length / c.bs, p⟩, by simp only [tailResult, if_true, hd, stripResult, hs], rfl⟩

end Sys2Proof.Machine
end

