-- ==== Sys2Proof/Tests/Slice0.lean ====
section
/-! SUPPORT. Tests: ill-formed terms, words written out from the encoding tables, the vectors of 95_test_vectors.md and the
worked examples of the rules, and a witness for the hypotheses of every obligation that has any. -/

namespace Sys2Proof.Tests

open Sys2Proof.Machine

/-! ### The primitives of the vectors -/

/-- `fold(k, bs)` (95_test_vectors.md §1). -/
def fold (k : List Byte) (bs : Nat) : List Byte :=
  (List.range bs).map fun i =>
    ((List.range k.length).filter (fun j => j % bs == i)).foldl (fun a j => a + k.getD j 0) 0

/-- `TP.enc` (95_test_vectors.md §1). -/
def tpEnc (c : Tag) (k b : List Byte) : List Byte :=
  (List.range (blockSize c)).map fun i => b.getD ((i + 1) % blockSize c) 0 + (fold k (blockSize c)).getD i 0

/-- `TP.dec` (95_test_vectors.md §1). -/
def tpDec (c : Tag) (k y : List Byte) : List Byte :=
  (List.range (blockSize c)).map fun i =>
    let j := (i + blockSize c - 1) % blockSize c
    y.getD j 0 - (fold k (blockSize c)).getD j 0

/-- The test primitive TP. -/
def TP : Prim :=
  { enc := fun c k b => some (regOf 16 (tpEnc c k b))
    dec := fun c k b => some (regOf 16 (tpDec c k b))
    keyOk := fun _ _ _ => true }

/-- The failing variant TPF. -/
def TPF : Prim :=
  { enc := fun c k b => if b.getD 0 0 = 0xEE then none else some (regOf 16 (tpEnc c k b))
    dec := fun c k b => if b.getD 0 0 = 0xEE then none else some (regOf 16 (tpDec c k b))
    keyOk := fun _ _ k => decide (k.getD 0 0 ≠ 0xEE) }

/-- A primitive that answers its input block, which meets the round-trip law. -/
def Echo : Prim :=
  { enc := fun _ _ b => some (regOf 16 b), dec := fun _ _ b => some (regOf 16 b), keyOk := fun _ _ _ => true }

/-! ### Small states -/

/-- `a .. a+n-1`. -/
def run (a n : Nat) : List Byte := (List.range n).map fun i => BitVec.ofNat 8 (a + i)

/-- A staging array holding a string from its first byte. -/
def staged (s : State) (a : Arr) (l : List Byte) : State := { s with mem := Memory.writeBytes s.mem a.base l }

/-- The reset state with `K8` staged. -/
def keyed : State := { staged State.reset .keystage (run 1 8) with keylen := 8 }

def ecbEnc : CipherSpec := ⟨.legacy8, .ecb, .encrypt, false⟩
def ecbDec : CipherSpec := ⟨.legacy8, .ecb, .decrypt, false⟩
def cbcEnc : CipherSpec := ⟨.legacy8, .cbc, .encrypt, false⟩
def cbcDec : CipherSpec := ⟨.legacy8, .cbc, .decrypt, false⟩
def wideEnc : CipherSpec := ⟨.modern128, .cbc, .encrypt, false⟩

/-- A session of key `K8` (or its first 16 bytes of `run 1 16`), with the chunk staged. -/
def opened (c : CipherSpec) (chunk : List Byte) : State :=
  { staged State.reset .din chunk with session := .active c, skey := regOf 32 (run 1 c.ks) }

/-- The same with `carry` carried. -/
def carrying (c : CipherSpec) (carry chunk : List Byte) : State :=
  { opened c chunk with pbuf := regOf 16 carry, pblen := BitVec.ofNat 4 carry.length }

/-- The command word accepted, its step not yet taken. -/
def inFlightWith (s : State) (w : Word) (agenda : List Event) : State := { s.accept w with agenda := agenda }

/-- A full-width read at an offset. -/
def readAccess : Access := ⟨0, .word, 0xF, .read⟩

/-- A full-width write at an offset. -/
def writeAccess (w : Word) : Access := ⟨0, .word, 0xF, .write w⟩

/-- What a read at an offset returns. -/
def readAt (s : State) (off : Nat) : Option Reply := (s.busAccess readAccess off).reply

/-- The output of the last `UPDATE`. -/
def output (s : State) : List Byte := s.firstBytes .dout s.outlen.toNat

/-! ### Ill-formed terms -/

theorem test_wf_refuses_tag_above_seven : (Instr.init 8 .ecb .encrypt false).wf = false := by decide
theorem test_wf_refuses_len_above_field : (Instr.update 65536 true).wf = false := by decide
theorem test_wf_admits_the_bounds : (Instr.init 7 .cbc .decrypt true).wf = true ∧ (Instr.update 65535 true).wf = true := by decide
theorem test_memory_wf_refuses_disorder : Memory.wf [(3, 1), (2, 1)] = false ∧ Memory.wf [(2, 1), (2, 3)] = false := by decide
theorem test_memory_wf_refuses_zero : Memory.wf [(2, 0)] = false := by decide
theorem test_reset_memory_is_wf : Memory.wf State.reset.mem = true := by decide

/-! ### Words written out bit by bit (30_encoding.md R53) -/

/-- Format N, `OP = 0`. -/
theorem test_decode_nop : decodeWord 0b0000_0000_0000_0000_0000_0000_0000_0000 = .ok .nop := by decide

/-- Format I, `ccc = 010`, `M = 1`, `D = 0`, `S = 1`, `oooo = 0001`. -/
theorem test_decode_init : decodeWord 0b0000_0000_0000_0000_0000_0010_1010_0001 = .ok (.init 2 .cbc .encrypt true) := by decide

/-- `D` alone, and the tag field at 4. -/
theorem test_decode_init_dir : decodeWord 0b0000_0000_0000_0000_0000_0001_0100_0001 = .ok (.init 4 .ecb .decrypt false) := by decide

/-- Format U, `L = 7`, `F = 1`, `oooo = 0010`. -/
theorem test_decode_update : decodeWord 0b0000_0000_0000_0111_0000_0000_0001_0010 = .ok (.update 7 true) := by decide

/-- `LEN` 1025 decodes (R58). -/
theorem test_decode_update_long : decodeWord 0b0000_0100_0000_0001_0000_0000_0000_0010 = .ok (.update 1025 false) := by decide

/-- Format N, `OP = 3`. -/
theorem test_decode_close : decodeWord 0b0000_0000_0000_0000_0000_0000_0000_0011 = .ok .close := by decide

/-- Reserved opcodes and reserved bits are refused by name (R57). -/
theorem test_decode_refuses :
    decodeWord 0x00000004 = .error (.reservedOpcode 4) ∧ decodeWord 0xFFFFFFFF = .error (.reservedOpcode 15) ∧
      decodeWord 0x00000010 = .error (.reservedBits 0) ∧ decodeWord 0x00000401 = .error (.reservedBits 1) ∧
      decodeWord 0x00000022 = .error (.reservedBits 2) ∧ decodeWord 0x00000013 = .error (.reservedBits 3) := by decide

/-- The assembler syntax (R59). -/
theorem test_assembler_text :
    asmText (.init 0 .cbc .encrypt true) = "INIT LEGACY8, CBC, ENC, IV" ∧ asmText (.init 5 .ecb .decrypt false) = "INIT #5, ECB, DEC" ∧
      asmText (.update 7 true) = "UPDATE 7, FINAL" := by decide

/-! ### The commands -/

/-- R62's example: `ERR.CODE = 4` becomes 0 and `DONE` 1. -/
theorem test_nop_clears_the_code :
    let s := completion TP .nop { State.reset with err := some .invalidPadding }
    s.err = none ∧ s.done = true := by decide

/-- R63's example: a 5-byte key for `LEGACY8, CBC, ENC`. -/
theorem test_init_example :
    let s := completion TP (.init 0 .cbc .encrypt false) { staged State.reset .keystage (run 1 5) with keylen := 5 }
    s.err = none ∧ s.session.cfgWord = 0x08080080 ∧ s.skey.toList.take 8 = [1, 2, 3, 4, 5, 0, 0, 0] ∧
      s.firstBytes .cv 16 = zeros 16 ∧ s.firstBytes .keystage 32 = zeros 32 := by decide

/-- I5 of 95_test_vectors.md: with `bs = 8` the IV is `IVSTAGE[0..8)` and the rest of `CV` is zero. -/
theorem test_init_takes_the_staged_iv :
    let s := completion TP (.init 0 .cbc .decrypt true) (staged keyed .ivstage (run 0xC0 16))
    s.firstBytes .cv 16 = run 0xC0 8 ++ zeros 8 ∧ s.session.cfgWord = 0x08080380 := by decide

/-- R67's example. -/
theorem test_update_example :
    let s := completion TP (.update 7 true) (opened ecbEnc (rep 7 0x41))
    output s = [0x42, 0x43, 0x44, 0x45, 0x46, 0x47, 0x08, 0x49] ∧ s.padval = 1 ∧ s.blkcnt = 1 ∧ phaseCode s.session = 2 := by
  decide

/-- A primitive failure in the second block leaves the first uncommitted (R80; TPF of 95_test_vectors.md). -/
theorem test_update_fails_whole :
    let s := opened ecbEnc (rep 8 1 ++ [0xEE])
    completion TPF (.update 16 false) s = s.finish (some .primitiveFailure) := by decide

/-- R65's example. -/
theorem test_close_example :
    let s := completion TP .close (carrying cbcEnc [1, 2, 3] [9])
    phaseCode s.session = 0 ∧ s.pblen = 0 ∧ s.session.cfgWord = 0 ∧ s.outlen = 0 ∧ s.err = none ∧ s.firstBytes .din 1 = [0] := by
  decide

/-- Rows of R92. -/
theorem test_padding_table :
    padApply [] 8 = rep 8 8 ∧ padApply [0x01, 0x02, 0x03] 8 = [1, 2, 3, 5, 5, 5, 5, 5] ∧ padApply [] 16 = rep 16 16 ∧
      padStrip (zeros 7 ++ [1]) 8 = some (zeros 7, 1) ∧ padStrip (zeros 7 ++ [8]) 8 = some ([], 8) ∧
      padStrip (zeros 8) 8 = none ∧ padStrip (zeros 7 ++ [9]) 8 = none ∧ padStrip [] 8 = none ∧
      padStrip (zeros 15 ++ [16]) 16 = some ([], 16) := by decide

/-! ### The bus, the interrupt, the port -/

theorem test_id_reads : readAt State.reset 0x024 = some ⟨false, 0x53430100⟩ := by decide
theorem test_reserved_offset_is_an_error : readAt State.reset 0x028 = some ⟨true, 0⟩ := by decide

/-- A word packs its bytes lowest first (R39), and `KEYSTAGE` reads 0 (R24). -/
theorem test_byte_order :
    let s := State.reset.busAccess (writeAccess 0x04030201) 0x400
    s.firstBytes .din 4 = [1, 2, 3, 4] ∧ readAt s 0x400 = some ⟨false, 0x04030201⟩ ∧ readAt keyed 0x040 = some ⟨false, 0⟩ := by
  decide

/-- A dropped write raises the interrupt it is enabled for (R43, R113). -/
theorem test_dropped_write_interrupts :
    let s := (inFlightWith { State.reset with ovrIe := true } 0 []).busAccess (writeAccess 1) 0x014
    s.ovr = true ∧ s.keylen = 0 ∧ s.irq = true := by decide

/-- The expansion of `LOADB` fills its last word with zeros (R60). -/
theorem test_loadb_expands : loadb .din [1, 2, 3, 4, 5] = [wr 0x400 0x04030201, wr 0x404 0x00000005] := rfl

/-- In `Q_BLOCK(0)` of a CBC encryption the port offers `T[0..8) XOR CV` with the key on its bus (R106). -/
theorem test_port_offers_the_block :
    let s := { inFlightWith { staged (opened cbcEnc (run 0 8)) .cv (rep 8 0xFF) with skey := regOf 32 (run 1 8) } 0x00080002 []
      with seq := .block 0, staged := { Staged.empty with cv := rep 8 0xFF } }
    s.port = some ⟨1, 0, false, 0x0807060504030201, 0xF8F9FAFBFCFDFEFF⟩ := by decide

/-! ### Witnesses: what the hypotheses of each obligation ask is met -/

/-- The offset of every register. -/
def everyReg : List (Nat × Place) :=
  [(0x000, .reg .cmd), (0x004, .reg .status), (0x008, .reg .err), (0x00C, .reg .ie), (0x010, .reg .cfg), (0x014, .reg .keylen),
    (0x018, .reg .outlen), (0x01C, .reg .blkcnt), (0x020, .reg .padval), (0x024, .reg .id)]

/-- The first and the last word of every array. -/
def everyArr : List (Nat × Place) :=
  [(0x040, .arr .keystage), (0x05C, .arr .keystage), (0x060, .arr .ivstage), (0x06C, .arr .ivstage), (0x070, .arr .cv),
    (0x07C, .arr .cv), (0x400, .arr .din), (0x7FC, .arr .din), (0x800, .arr .dout), (0xC1C, .arr .dout)]

/-- The first and the last word of every place of the window. -/
def everyPlace : List (Nat × Place) := everyReg ++ everyArr

/-- A final chunk of exactly one block whose last decrypted byte under `Echo` is `b`. -/
def lastByteIs (b : Byte) : State := opened ecbDec (zeros 7 ++ [b])

/-- A command in flight with the rest of the agenda empty. -/
def flying (w : Word) : State := inFlightWith State.reset w []

theorem witness_DecodeOfEncodeIsTheCommand :
    Instr.nop.wf = true ∧ (Instr.init 7 .cbc .decrypt true).wf = true ∧ (Instr.update 65535 true).wf = true ∧
      Instr.close.wf = true := by decide

theorem witness_EncodeOfDecodeIsTheWord :
    decodeWord 0x00000000 = .ok .nop ∧ decodeWord 0x000003F1 = .ok (.init 7 .cbc .decrypt true) ∧
      decodeWord 0xFFFF0012 = .ok (.update 65535 true) ∧ decodeWord 0x00000003 = .ok .close := by decide

theorem witness_WordDecodesExactlyToItsRow :
    (∀ r ∈ opcodeMap, r ∈ opcodeMap ∧ r.pattern &&& r.mask = r.pattern) ∧
      (0x000003F1 : Word) &&& rowInit.mask = rowInit.pattern ∧ (0xFFFF0012 : Word) &&& rowUpdate.mask = rowUpdate.pattern := by
  decide

theorem witness_OperandsAreTheFieldsOfTheWord :
    decodeWord 0x000003F1 = .ok (.init 7 .cbc .decrypt true) ∧ decodeWord 0x00000001 = .ok (.init 0 .ecb .encrypt false) ∧
      decodeWord 0xFFFF0012 = .ok (.update 65535 true) ∧ decodeWord 0x00000002 = .ok (.update 0 false) := by decide

theorem witness_IllegalWordCompletesWithCodeSeven :
    (∀ w : Word, (inFlightWith State.reset w [.complete]).inFlight = true ∧
      (inFlightWith State.reset w [.complete]).agenda = .complete :: []) ∧
    (decodeWord 0x00000004 = .error (.reservedOpcode 4) ∧ decodeWord 0x0000000F = .error (.reservedOpcode 15) ∧
      decodeWord 0x00000010 = .error (.reservedBits 0) ∧ decodeWord 0x80000003 = .error (.reservedBits 3) ∧
      decodeWord 0x00000401 = .error (.reservedBits 1) ∧ decodeWord 0x00000022 = .error (.reservedBits 2)) :=
  ⟨fun _ => ⟨rfl, rfl⟩, by decide⟩

theorem witness_StepRunsTheCommandInFlight :
    ((flying 0).inFlight = true ∧ decodeWord (flying 0).cmd = .ok .nop ∧ (flying 0).agenda = []) ∧
    (inFlightWith State.reset 3 [.complete]).agenda = .complete :: [] ∧
    (State.reset.inFlight = false ∧ State.reset.agenda = []) ∧
    ({ State.reset with agenda := [.sequencer, .complete] }.agenda = .sequencer :: [.complete]) := by decide

theorem witness_FailedCommandChangesNothingElse :
    (∃ t, exec (.update 0 false) State.reset = .next t ∧ t.err ≠ none) ∧
    (∃ t, exec (.init 0 .ecb .encrypt false) State.reset = .next t ∧ t.err ≠ none) ∧
    (∃ t, completeWith exec (flying 4) = .next t ∧ ∃ e, decodeWord (flying 4).cmd = .error e) :=
  ⟨⟨_, rfl, by decide⟩, ⟨_, rfl, by decide⟩, ⟨_, rfl, _, rfl⟩⟩

/-- With every kind of key: `LEGACY8` under every primitive, the largest tag with an IV under `TP`. -/
theorem witness_InitOpensTheSession :
    (keyed.session = .idle ∧ tagOf 0 = some .legacy8 ∧ keyed.keylen ≠ 0 ∧
      Prim.keyAccepted Config.PRIM .legacy8 .encrypt (condKey (keyed.firstBytes .keystage 32) keyed.keylen.toNat 8) = true) ∧
    (tagOf 4 = some .modern256 ∧
      Prim.keyAccepted TP .modern256 .decrypt (condKey (keyed.firstBytes .keystage 32) keyed.keylen.toNat 32) = true) :=
  ⟨⟨rfl, rfl, by decide, rfl⟩, rfl, rfl⟩

theorem witness_KeyIsTruncatedOrZeroPadded :
    (run 1 32).length = 32 ∧ (0 < keySize .legacy8 ∧ 31 < keySize .modern256) ∧
      (run 1 5 ++ zeros 27).take 5 = (run 1 32).take 5 := by decide

theorem witness_PhaseChangesOnlyByItsTransitions :
    (∃ t, exec .close (opened ecbEnc []) = .next t) ∧ (∃ t, exec (.init 0 .ecb .encrypt false) keyed = .next t ∧ t.err = none) ∧
    (∃ t, exec (.update 3 false) (opened ecbEnc (run 1 3)) = .next t ∧ t.err = none) ∧
    ((microStep TP (flying 0)).busy = true ∧ (flying 0).busy = true) :=
  ⟨⟨_, rfl⟩, ⟨_, rfl, by rfl⟩, ⟨_, rfl, by rfl⟩, by decide⟩

/-- Each case of the commit: a carry, a pad block, a strip. -/
theorem witness_UpdateCommitsItsResult :
    (∃ r, updateResult Config.PRIM ecbEnc ((opened ecbEnc []).key ecbEnc) ((opened ecbEnc []).workString 0)
      ((opened ecbEnc []).firstBytes .cv 8) false = .ok r) ∧
    (∃ r, updateResult TP cbcEnc ((opened cbcEnc []).key cbcEnc) ((opened cbcEnc []).workString 0)
      ((opened cbcEnc []).firstBytes .cv 8) true = .ok r) ∧
    (∃ r, updateResult Echo ecbDec ((lastByteIs 8).key ecbDec) ((lastByteIs 8).workString 8)
      ((lastByteIs 8).firstBytes .cv 8) true = .ok r) ∧
    ((opened ecbEnc []).session = .active ecbEnc ∧ (opened cbcEnc []).session = .active cbcEnc ∧
      (lastByteIs 8).session = .active ecbDec ∧ ((lastByteIs 8).pblen.toNat + 8) % ecbDec.bs = 0) :=
  ⟨⟨_, rfl⟩, ⟨_, rfl⟩, ⟨_, rfl⟩, by decide⟩

theorem witness_ShortNonFinalChunkIsCarried :
    (opened ecbEnc (run 1 7)).session = .active ecbEnc ∧ (opened ecbEnc (run 1 7)).pblen.toNat + 7 < ecbEnc.bs ∧
      (carrying wideEnc (run 1 15) []).pblen.toNat + 0 < wideEnc.bs := by decide

theorem witness_FinalEncryptChunkIsPadded :
    (opened cbcEnc []).session = .active cbcEnc ∧ cbcEnc.dir = .encrypt ∧ 1024 ≤ 1024 ∧
      (∀ x, Prim.encBlock TP cbcEnc.cipher ((opened cbcEnc []).key cbcEnc) x ≠ none) :=
  ⟨rfl, rfl, le_refl _, fun x => by simp [Prim.encBlock, TP]⟩

/-- Both ends of the pad's range and one value past each. -/
theorem witness_FinalDecryptChunkIsStripped :
    ((opened ecbDec []).session = .active ecbDec ∧ ecbDec.dir = .decrypt ∧ ((opened ecbDec []).pblen.toNat + 7) % ecbDec.bs ≠ 0 ∧
      (opened ecbDec []).pblen.toNat + 0 = 0) ∧
    (∀ b ∈ [(0 : Byte), 1, 8, 9], ((lastByteIs b).pblen.toNat + 8) % ecbDec.bs = 0 ∧
      runBlocks Echo ecbDec ((lastByteIs b).key ecbDec) ((lastByteIs b).workString 8) ((lastByteIs b).firstBytes .cv 8)
        (((lastByteIs b).pblen.toNat + 8) / ecbDec.bs) = some (zeros 7 ++ [b], zeros 8) ∧
      (zeros 7 ++ [b]).getLast? = some b) := by decide

theorem witness_OutputLengthOfUpdate :
    (completion TP (.update 9 false) (opened ecbEnc (run 1 9))).err = none ∧
    (completion TP (.update 9 true) (opened ecbEnc (run 1 9))).err = none ∧
    (completion Echo (.update 8 true) (lastByteIs 8)).err = none ∧ (opened ecbEnc (run 1 9)).pblen.toNat < ecbEnc.bs := by decide

theorem witness_BlockCounterCountsCommittedCalls :
    (completion TP (.update 9 true) (opened ecbEnc (run 1 9))).err = none ∧
    (completion TP (.update 0 true) State.reset).err ≠ none ∧
    (completion TP (.init 0 .ecb .encrypt false) keyed).err = none ∧
    (completion TP (.init 5 .ecb .encrypt false) keyed).err ≠ none := by decide

theorem witness_PadValueReportsTheLastFinalChunk :
    (completion TP (.update 9 true) (opened ecbEnc (run 1 9))).err = none ∧
    (completion Echo (.update 8 true) (lastByteIs 1)).err = none ∧
    (completion TP (.update 9 false) (opened ecbEnc (run 1 9))).err = none ∧
    (completion TP (.init 0 .ecb .encrypt false) keyed).err = none := by decide

theorem witness_NothingFollowsTheFinalChunk :
    ∃ t, execWith TP (.update 9 true) (opened ecbEnc (run 1 9)) = .next t ∧ t.err = none := ⟨_, rfl, by decide⟩

/-- Two states that differ in `KEYSTAGE`, `KEYLEN` and past the chunk. -/
theorem witness_UpdateReadsOnlyItsOperands :
    let s := opened ecbEnc (run 1 3)
    let s' := { staged (staged s .keystage [9]) .din (run 1 5) with keylen := 7 }
    s'.session = s.session ∧ s'.skey = s.skey ∧ s'.pbuf = s.pbuf ∧ s'.pblen = s.pblen ∧
      s'.firstBytes .cv 16 = s.firstBytes .cv 16 ∧ s'.firstBytes .din 3 = s.firstBytes .din 3 ∧
      (∃ t, exec (.update 3 false) s = .next t ∧ t.err = none) ∧ ∃ t', exec (.update 3 false) s' = .next t' :=
  ⟨rfl, rfl, rfl, rfl, by decide, by decide, ⟨_, rfl, by rfl⟩, ⟨_, rfl⟩⟩

theorem witness_EcbTransformsEachBlockAlone :
    ecbEnc.mode = .ecb ∧ 2 * ecbEnc.bs ≤ (rep 16 5).length ∧ (runBlocks TP ecbEnc (run 1 8) (rep 16 5) [] 2).isSome = true ∧
      (runBlocks TP ecbDec (run 1 8) (rep 16 5) [] 2).isSome = true ∧ blockAt (rep 16 5) 8 0 = blockAt (rep 16 5) 8 1 := by decide

theorem witness_CbcEncryptChainsCiphertext :
    cbcEnc.mode = .cbc ∧ cbcEnc.dir = .encrypt ∧ 2 * cbcEnc.bs ≤ (run 0 16).length ∧ (zeros 8).length = cbcEnc.bs ∧
      (runBlocks TP cbcEnc (run 1 8) (run 0 16) (zeros 8) 2).isSome = true ∧
      (runBlocks TP cbcEnc (run 1 8) (run 0 16) (zeros 8) 0).isSome = true := by decide

theorem witness_CbcDecryptChainsInput :
    cbcDec.mode = .cbc ∧ cbcDec.dir = .decrypt ∧ 2 * cbcDec.bs ≤ (run 0 16).length ∧ (zeros 8).length = cbcDec.bs ∧
      (runBlocks TP cbcDec (run 1 8) (run 0 16) (zeros 8) 2).isSome = true ∧
      (runBlocks TP cbcDec (run 1 8) (run 0 16) (zeros 8) 0).isSome = true := by decide

/-- The primitive's vectors of 95_test_vectors.md §1. -/
theorem witness_PrimitiveAnswersWholeBlocks :
    Prim.encBlock TP .legacy8 (run 1 8) (run 0 8) = some [0x02, 0x04, 0x06, 0x08, 0x0A, 0x0C, 0x0E, 0x08] ∧
      Prim.decBlock TP .legacy8 (run 1 8) [0x02, 0x04, 0x06, 0x08, 0x0A, 0x0C, 0x0E, 0x08] = some (run 0 8) := by decide

theorem witness_PortCarriesThePrimitiveCalls :
    (run 0 8).length = ecbEnc.bs ∧ (run 0 16).length = wideEnc.bs ∧ (run 1 32).length = keySize .modern256 := by decide

theorem witness_PadLengthIsInOneToBlock : ((8 : Nat) = 8 ∨ (8 : Nat) = 16) ∧ ((16 : Nat) = 8 ∨ (16 : Nat) = 16) := by decide

theorem witness_PadBlockEndsInItsLength :
    ([] : List Byte).length < 8 ∧ (run 0 7).length < 8 ∧ (run 0 15).length < 16 := by decide

theorem witness_StripTakesTheLastByte :
    padStrip (rep 7 5 ++ [3]) 8 = some (rep 5 5, 3) ∧ (rep 7 5).length = (run 0 7).length ∧ padStrip (zeros 7 ++ [8]) 8 = some ([], 8) := by
  decide

theorem witness_StripUndoesPad : (run 0 7).length < 8 ∧ ([] : List Byte).length < 16 := by decide

theorem witness_EncryptOutputIgnoresChunking :
    (feedAll TP [run 0 3, run 3 9, []] (opened cbcEnc [])).isSome = true ∧
      [run 0 3, run 3 9, []].flatten = [run 0 12].flatten ∧ (∀ d ∈ [run 0 12], d.length ≤ 1024) ∧
      (opened cbcEnc []).session = .active cbcEnc ∧ cbcEnc.dir = .encrypt := by decide

/-- A final chunk that leaves exactly one block in the final work string. -/
theorem witness_DecryptOutputIgnoresChunking :
    (feedAll Echo [zeros 15 ++ [3]] (opened cbcDec [])).isSome = true ∧
      [zeros 15 ++ [3]].flatten = [zeros 8, zeros 3, zeros 4 ++ [3]].flatten ∧
      (∀ d ∈ [zeros 8, zeros 3, zeros 4 ++ [3]], d.length ≤ 1024) ∧
      cbcDec.bs ≤ finalWork cbcDec.bs (opened cbcDec []).pblen.toNat [zeros 8, zeros 3, zeros 4 ++ [3]] ∧
      (opened cbcDec []).session = .active cbcDec := by decide

theorem echo_roundTrip : RoundTripLaw Echo := by
  intro c k x y _ hx h
  have hb : (regOf 16 x).toList.take x.length = x := regOf_take 16 x (by rw [hx]; exact blockSize_le c)
  simp only [Prim.encBlock, Prim.decBlock, Echo, Option.map_some, Option.some.injEq] at h ⊢
  rw [← hx] at h ⊢
  rw [hb] at h
  rw [← h, hb]

theorem witness_DecryptUndoesEncrypt :
    RoundTripLaw Echo ∧ (opened cbcEnc []).session = .active cbcEnc ∧
      (opened cbcDec []).session = .active { cbcEnc with dir := .decrypt } ∧ (opened cbcEnc []).pblen = 0 ∧
      (opened cbcDec []).pblen = 0 ∧ (opened cbcDec []).key cbcEnc = (opened cbcEnc []).key cbcEnc ∧
      (opened cbcDec []).firstBytes .cv 8 = (opened cbcEnc []).firstBytes .cv 8 ∧
      (feedAll Echo [[1, 2], [3]] (opened cbcEnc [])).map Prod.snd = some [1, 2, 3, 5, 5, 5, 5, 5] ∧
      [[1, 2], [3, 5, 5, 5, 5, 5]].flatten = ([1, 2, 3, 5, 5, 5, 5, 5] : List Byte) ∧
      cbcEnc.bs ≤ finalWork cbcEnc.bs 0 [[1, 2], [3, 5, 5, 5, 5, 5]] :=
  ⟨echo_roundTrip, rfl, rfl, rfl, rfl, by decide, by decide, by decide, by decide, by decide⟩

theorem witness_EveryOffsetHasOneRow : 0 < 4096 ∧ 4095 < 4096 := by decide

theorem witness_AccessNotTakenIsABusError : State.reset.rst = false := rfl

theorem witness_ReadReturnsItsPlaceAndChangesNothing :
    ∀ x ∈ everyPlace, State.reset.takenAt readAccess x.1 = some x.2 := by decide

theorem witness_CfgFieldsAtTheirBits :
    State.reset.session = .idle ∧ (opened ecbEnc []).session.cfg? = some ecbEnc := by decide

theorem witness_TakenWriteByRegion :
    ∀ x ∈ everyPlace, State.reset.takenAt (writeAccess 0xFFFFFFFF) x.1 = some x.2 ∧
      (flying 0).takenAt (writeAccess 0xFFFFFFFF) x.1 = some x.2 := by decide

theorem witness_DroppedWriteOnlySetsOverrun :
    (flying 0).busy = true ∧ ∀ x ∈ everyPlace, x.2 ∈ [Place.reg .cmd, .reg .keylen, .arr .keystage, .arr .ivstage, .arr .din] →
      (flying 0).takenAt (writeAccess 1) x.1 = some x.2 := by decide

theorem witness_StagingWritesAreIdempotent :
    Memory.wf keyed.mem = true ∧ ∀ x ∈ everyPlace, x.2 ∈ [Place.reg .keylen, .reg .ie, .arr .keystage, .arr .ivstage, .arr .din] →
      keyed.takenAt (writeAccess 1) x.1 = some x.2 := by decide

theorem witness_WindowStandsAtBase :
    (4095 < 4096 ∧ (⟨Config.BASE + 4095, .word, 0xF, .read⟩ : Access).addr = Config.BASE + 4095) ∧
    ¬ (Config.BASE ≤ (⟨Config.BASE + 4096, .word, 0xF, .read⟩ : Access).addr ∧
      (⟨Config.BASE + 4096, .word, 0xF, .read⟩ : Access).addr < Config.BASE + 4096) :=
  ⟨⟨by decide, rfl⟩, fun h => absurd h.2 (lt_irrefl _)⟩

theorem witness_BusyStateIsFrozen :
    (inFlightWith State.reset 0 [.sequencer]).busy = true ∧
      ∃ t, step (inFlightWith State.reset 0 [.sequencer]) = .next t ∧ t.busy = true := ⟨rfl, _, rfl, rfl⟩

/-- Two states with other keys, carries and staged keys. -/
theorem witness_SecretsNeverReachTheBus :
    SameButSecrets State.reset { State.reset with skey := regOf 32 [1], pbuf := regOf 16 [2], mem := [(0x40, 3)] } where
  fields := rfl
  bytes := by
    intro o ho
    have : o ≠ 0x40 := by rintro rfl; exact ho (by unfold Arr.holds; decide)
    simp [Memory.read, State.reset, Ne.symm this]

theorem witness_LoadbStoresTheBytes :
    Arr.ivstage ∈ [Arr.keystage, .ivstage, .din] ∧ (run 1 16).length ≤ Arr.ivstage.size ∧ ([] : List Byte).length ≤ Arr.din.size ∧
      (run 1 5).length ≤ Arr.keystage.size ∧ (Arr.keystage.base + 5 ≤ 0x047 ∧ 0x047 < Arr.keystage.base + (5 + 3) / 4 * 4) ∧
      State.reset.busy = false ∧ State.reset.rst = false := by decide

theorem witness_IssueThenCompletionRunsTheCommand :
    (Instr.update 65535 true).wf = true ∧ State.reset.busy = false ∧ State.reset.rst = false := by decide

theorem witness_InterruptFollowsStatusAndEnables : (opened ecbEnc []).rst = false := rfl

theorem witness_ResetStateReadsZero : ∀ x ∈ everyPlace, placeOf x.1 = some x.2 := by decide

theorem witness_ResetAbandonsEverything :
    ({ flying 0 with agenda := [.reset true] }.agenda = .reset true :: []) ∧
      ({ State.reset with rst := true, agenda := [.sequencer] }.rst = true) ∧
      ({ State.reset with rst := true, agenda := [.sequencer] }.agenda = .sequencer :: []) := by decide

/-- A state other than the reset state that meets the invariants, and its step. -/
theorem witness_StepKeepsTheInvariants :
    let s := { State.reset with keylen := 8, agenda := [.complete] }
    Inv s ∧ ∃ t, step s = .next t := by
  refine ⟨⟨by decide, by simp [State.reset], fun _ => by decide, fun _ => by decide, fun _ => by decide, fun _ => by decide,
    ?_, ?_, ?_, ?_, ?_, ?_, ?_, ?_, ?_, by decide, ?_, fun _ => ⟨rfl, rfl⟩, ?_, ?_⟩, _, rfl⟩
  all_goals simp [State.reset, Session.cfg?, State.byte]

theorem witness_NoRunStopsWhileThePrimitiveAnswers : primitiveAnswers (inFlightWith State.reset 0 [.sequencer, .complete]) := by
  simp [primitiveAnswers, inFlightWith]

theorem witness_CommandInFlightCompletes :
    (inFlightWith State.reset 0 [.sequencer]).inFlight = true ∧ primitiveAnswers (inFlightWith State.reset 0 [.sequencer]) ∧
      (∀ b, Event.reset b ∉ (inFlightWith State.reset 0 [.sequencer]).agenda) :=
  ⟨rfl, by simp [primitiveAnswers, inFlightWith], by simp [inFlightWith]⟩

/-- From acceptance, and from a micro-state the command reaches. -/
theorem witness_SequencerRefinesTheCompletionStep :
    ((flying 0).inFlight = true ∧ (flying 0).seq = .decode) ∧
    (let s := { flying 0 with seq := .check }
     s.inFlight = true ∧ Inv s) := by
  refine ⟨by decide, rfl, ⟨by decide, by simp [flying, inFlightWith, State.reset], fun _ => by decide, fun _ => by decide,
    fun _ => by decide, fun _ => by decide, ?_, ?_, ?_, ?_, ?_, ?_, ?_, ?_, ?_, by decide, ?_, ?_, fun _ => ⟨1, rfl⟩, ?_⟩⟩
  all_goals simp [flying, inFlightWith, State.reset, Session.cfg?, State.byte]

end Sys2Proof.Tests
end

section
/-! PROOFS of the scope family (00_scope.md). While neither a reset nor a silent primitive comes next, the step of a command in
flight either completes it or keeps it in flight and consumes one event of the agenda; O59 is the induction over the agenda. -/

namespace Sys2Proof.Machine

/-! ### The step of a command in flight -/

theorem State.inFlight_eq_true {s : State} : s.inFlight = true ↔ s.busy = true ∧ s.rst = false := by
  simp [State.inFlight]

/-- `Q_DONE` with code 0 completes the command, or it is a micro-state that does not belong to it (R91; log 11). -/
theorem seqSucceed_cases (s : State) :
    seqSucceed s = s.moveSeq seqRestart ∨ ((seqSucceed s).busy = false ∧ (seqSucceed s).done = true) := by
  unfold seqSucceed
  rcases decodeWord s.cmd with e | i
  · exact .inl rfl
  · cases i with
    | nop => exact .inr ⟨rfl, rfl⟩
    | close => exact .inr ⟨rfl, rfl⟩
    | init cipher mode dir ivsrc =>
      dsimp only
      rcases tagOf cipher with - | t
      · exact .inl rfl
      · exact .inr ⟨rfl, rfl⟩
    | update len final =>
      dsimp only
      rcases s.session.cfg? with - | c
      · exact .inl rfl
      · exact .inr ⟨rfl, rfl⟩

/-- `Q_DONE` with an error code always completes the command (R91, R108). -/
theorem seqFail_completes (s : State) (e : CmdError) : (seqFail s e).busy = false ∧ (seqFail s e).done = true := by
  unfold seqFail
  rcases decodeWord s.cmd with e' | i
  · exact ⟨rfl, rfl⟩
  · cases i <;> exact ⟨rfl, rfl⟩

/-- The two outcomes of a micro-step: it moves the micro-state alone, or it completes the command (R91). -/
theorem microStep_cases (P : Prim) (s : State) :
    (∃ n, microStep P s = s.moveSeq n) ∨ ((microStep P s).busy = false ∧ (microStep P s).done = true) := by
  by_cases hq : ∃ code, s.seq = .done code
  · obtain ⟨code, hq⟩ := hq
    cases code with
    | none =>
      have hm : microStep P s = seqSucceed s := by simp only [microStep, hq]
      rw [hm]
      exact (seqSucceed_cases s).imp_left fun h => ⟨_, h⟩
    | some e =>
      have hm : microStep P s = seqFail s e := by simp only [microStep, hq]
      rw [hm]
      exact .inr (seqFail_completes s e)
  · exact .inl ⟨_, microStep_not_done (not_exists.mp hq)⟩

/-- The completion step of a command in flight leaves `BUSY = 0` and `DONE = 1`, for every command word (R108). -/
theorem sequencerTurn_completes {s : State} (hf : s.inFlight = true) :
    ∃ u, sequencerTurn exec s = .next u ∧ u.busy = false ∧ u.done = true := by
  rw [sequencerTurn, if_pos hf, completeWith_exec]
  refine ⟨_, rfl, ?_⟩
  rcases decodeWord s.cmd with e | i
  · exact ⟨rfl, rfl⟩
  · exact ⟨completion_busy _ i s, completion_done _ i s⟩

/-- A host access keeps the command in flight, its word and the agenda (R43, R46). -/
theorem State.hostAccess_keepsInFlight {s : State} (a : Access) (hf : s.inFlight = true) :
    (s.hostAccess a).inFlight = true ∧ (s.hostAccess a).cmd = s.cmd ∧ (s.hostAccess a).agenda = s.agenda := by
  rw [s.hostAccess_busy a (State.inFlight_eq_true.mp hf).1]
  exact ⟨hf, rfl, rfl⟩

/-- With nothing on the agenda the command in flight completes (R9; log 1). -/
theorem step_completes_of_agenda_nil {s : State} (hf : s.inFlight = true) (ha : s.agenda = []) :
    ∃ u, step s = .next u ∧ u.busy = false ∧ u.done = true := by
  simpa only [step, advance, ha] using sequencerTurn_completes hf

/-- The two outcomes of an event that is neither a reset nor a silent primitive while a command is in flight: it completes
the command, or the same command is still in flight with the rest of the agenda to come (R9, R108). -/
theorem step_inFlight_cases {s : State} {e : Event} {rest : List Event} (hf : s.inFlight = true)
    (ha : s.agenda = e :: rest) (hsilent : e ≠ .primitiveSilent) (hreset : ∀ b, e ≠ .reset b) :
    ∃ t, step s = .next t ∧
      ((t.busy = false ∧ t.done = true) ∨ (t.inFlight = true ∧ t.cmd = s.cmd ∧ t.agenda = rest)) := by
  have hstep : step s = eventStep Config.PRIM exec e { s with agenda := rest } := by simp only [step, advance, ha]
  have hf' : State.inFlight { s with agenda := rest } = true := hf
  cases e with
  | host a => exact ⟨_, hstep, .inr (State.hostAccess_keepsInFlight a hf')⟩
  | sequencer =>
    refine ⟨_, step_sequencer hf ha, ?_⟩
    rcases microStep_cases Config.PRIM { s with agenda := rest } with ⟨n, h⟩ | h
    · rw [h]
      exact .inr ⟨hf, rfl, rfl⟩
    · exact .inl h
  | complete =>
    obtain ⟨u, hu, hdone⟩ := sequencerTurn_completes hf'
    exact ⟨u, hstep.trans hu, .inl hdone⟩
  | reset b => exact absurd rfl (hreset b)
  | primitiveSilent => exact absurd rfl hsilent

/-! ### Runs -/

/-- A run is its first step and the run from there. -/
theorem run_succ_of_step {s t : State} (h : step s = .next t) (k : Nat) :
    Host.Core.run Sys2Proof.core (k + 1) s = Host.Core.run Sys2Proof.core k t := by
  have h' : Sys2Proof.core.step s = .next t := h
  simp only [Host.Core.run, h']

/-- Settles O59, by induction on the agenda: each event completes the command or keeps it in flight, and on the empty agenda
the next step completes it. -/
theorem commandInFlightCompletes : Obligations.CommandInFlightCompletes := by
  unfold Obligations.CommandInFlightCompletes
  intro s hf hsilent hreset
  unfold primitiveAnswers at hsilent
  induction hq : s.agenda generalizing s with
  | nil =>
    obtain ⟨u, hu, hdone⟩ := step_completes_of_agenda_nil hf hq
    exact ⟨0, s, u, le_rfl, rfl, (State.inFlight_eq_true.mp hf).1, rfl, hu, hdone⟩
  | cons e rest ih =>
    obtain ⟨hsilentHead, hsilentRest⟩ : Event.primitiveSilent ≠ e ∧ Event.primitiveSilent ∉ rest := by simpa [hq] using hsilent
    obtain ⟨hresetHead, hresetRest⟩ : (∀ b, Event.reset b ≠ e) ∧ ∀ b, Event.reset b ∉ rest := by
      simpa [hq, forall_and] using hreset
    obtain ⟨t, ht, hdone | ⟨htf, htcmd, hta⟩⟩ :=
      step_inFlight_cases hf hq hsilentHead.symm (fun b => (hresetHead b).symm)
    · exact ⟨0, s, t, Nat.zero_le _, rfl, (State.inFlight_eq_true.mp hf).1, rfl, ht, hdone⟩
    · obtain ⟨k, v, u, hk, hrun, hbusy, hcmd, hu⟩ :=
        ih t htf (hta ▸ hsilentRest) (hta ▸ hresetRest) hta
      exact ⟨k + 1, v, u, Nat.succ_le_succ hk, (run_succ_of_step ht k).trans hrun, hbusy, hcmd.trans htcmd, hu⟩

end Sys2Proof.Machine
end

section
/-! PROOFS of the state family (10_state.md). The invariants have a session's part, which only the completion of a command
changes, and a sequencer's part, which says that the micro-state in flight is one the command reaches; O57 follows event by
event. The other obligations read the commands' outcomes and the bits of the status words. -/

namespace Sys2Proof.Machine

/-! ### The window's memory -/

/-- The part of `Inv` that speaks of the memory (log 9): canonical, and listing bytes of the five arrays only. -/
def Memory.Sound (m : Memory) : Prop := Memory.wf m = true ∧ ∀ c ∈ m, ∃ a : Arr, a.holds c.1

theorem Memory.Sound.clear {m : Memory} (h : Memory.Sound m) (lo n : Nat) : Memory.Sound (Memory.clear m lo n) :=
  ⟨Memory.clear_wf m lo n h.1, fun c hc => h.2 c (Memory.mem_clear m lo n c hc)⟩

theorem Memory.Sound.writeBytes {m : Memory} (h : Memory.Sound m) {lo : Nat} {l : List Byte}
    (hl : ∀ o, lo ≤ o → o < lo + l.length → ∃ a : Arr, a.holds o) : Memory.Sound (Memory.writeBytes m lo l) := by
  refine ⟨Memory.writeBytes_wf m lo l h.1, fun c hc => ?_⟩
  rcases Memory.mem_writeBytes m lo l c hc with hold | ⟨hlo, hhi⟩
  · exact h.2 c hold
  · exact hl c.1 hlo hhi

theorem State.setArr_sound {s : State} (h : Memory.Sound s.mem) (a : Arr) (l : List Byte) :
    Memory.Sound (s.setArr a l).mem := by
  refine (h.clear a.base a.size).writeBytes fun o hlo hhi => ⟨a, hlo, ?_⟩
  rw [List.length_take] at hhi
  omega

theorem State.clearArr_sound {s : State} (h : Memory.Sound s.mem) (a : Arr) : Memory.Sound (s.clearArr a).mem :=
  h.clear a.base a.size

theorem initWrites_sound {s : State} (h : Memory.Sound s.mem) (t : Tag) (m : Mode) (d : Dir) (v : Bool) :
    Memory.Sound (initWrites s t m d v).mem := State.setArr_sound h _ _

theorem closeWrites_sound {s : State} (h : Memory.Sound s.mem) : Memory.Sound (closeWrites s).mem := by
  rw [closeWrites_mem]
  exact State.clearArr_sound (State.clearArr_sound (State.clearArr_sound (State.clearArr_sound h _) _) _) _

theorem State.commit_sound {s : State} (h : Memory.Sound s.mem) (c : CipherSpec) (r : Staged) (f : Bool) :
    Memory.Sound (s.commit c r f).mem := by
  rw [State.commit_mem]
  cases hm : c.mode with
  | ecb => rw [State.commitCv_mem_ecb _ _ _ hm]; exact State.setArr_sound h _ _
  | cbc => rw [State.commitCv_mem_cbc _ _ _ hm]; exact State.setArr_sound (State.setArr_sound h _ _) _ _

/-! ### The map and the arrays -/

/-- The rows of the map that belong to an array are the array (R36). -/
theorem windowMap_arr (a : Arr) : ∀ r ∈ windowMap, r.place = some (.arr a) → r.lo = a.base ∧ r.hi + 1 = a.base + a.size := by
  cases a <;> decide

theorem holds_of_placeOf_arr {off : Nat} {a : Arr} (h : placeOf off = some (.arr a)) : a.holds off := by
  unfold placeOf at h
  split at h
  · rename_i r hr
    obtain ⟨hlo, hhi⟩ := windowMap_arr a r (List.mem_of_find?_eq_some hr) h
    obtain ⟨h1, h2⟩ : r.lo ≤ off ∧ off ≤ r.hi := by simpa [MapRow.holds] using List.find?_some hr
    exact ⟨by omega, by omega⟩
  · cases h

/-- An aligned word that begins in an array lies in it. -/
theorem Arr.holds_word {a : Arr} {off o : Nat} (h : a.holds off) (hoff : off % 4 = 0) (hlo : off ≤ o) (hhi : o < off + 4) :
    a.holds o := by
  obtain ⟨hbase, hend⟩ := h
  have hbase4 : a.base % 4 = 0 := by cases a <;> rfl
  have hsize4 : a.size % 4 = 0 := by cases a <;> rfl
  exact ⟨by omega, by omega⟩

/-! ### What a host access can change -/

/-- A host access records a reply on a state that is as before or the outcome of a taken write (R37, R42). -/
theorem State.hostAccess_eq_reply (s : State) (a : Access) :
    ∃ u r, s.hostAccess a = { u with reply := r } ∧
      (u = s ∨ ∃ p off w, s.rst = false ∧ off % 4 = 0 ∧ placeOf off = some p ∧ u = s.writePlace p off w) := by
  rcases s.hostAccess_cases a with h | ⟨off, h⟩
  · exact ⟨s, none, h, .inl rfl⟩
  · rcases s.busAccess_cases a off with ⟨-, h'⟩ | ⟨p, -, -, h'⟩ | ⟨p, w, hp, -, h'⟩
    · exact ⟨s, _, h.trans h', .inl rfl⟩
    · exact ⟨s, _, h.trans h', .inl rfl⟩
    · obtain ⟨hrst, -, -, hoff, hplace⟩ := State.takenAt_eq_some.mp hp
      exact ⟨_, _, h.trans h', .inr ⟨p, off, w, hrst, hoff, hplace, rfl⟩⟩

/-- The memory after a taken write: as before, or with one word stored in a staging array (R42, R43). -/
theorem State.writePlace_mem (s : State) (p : Place) (off : Nat) (w : Word) :
    (s.writePlace p off w).mem = s.mem ∨
    ∃ x, (x = .keystage ∨ x = .ivstage ∨ x = .din) ∧ p = .arr x ∧
      (s.writePlace p off w).mem = Memory.writeBytes s.mem off (wordBytes w) := by
  rcases s.writePlace_cases p off w with e | ⟨-, e⟩ | ⟨-, -, e⟩ | ⟨-, e⟩ | ⟨-, e⟩ | ⟨-, -, e⟩ | ⟨hp, -, e⟩
  · exact .inl (by rw [e])
  · exact .inl (by rw [e, State.dropWrite_mem])
  · exact .inl (by rw [e, State.accept_mem])
  · exact .inl (by rw [e])
  · exact .inl (by rw [e])
  · exact .inl (by rw [e])
  · right
    rcases hp with rfl | rfl | rfl
    · exact ⟨.keystage, by simp, rfl, by rw [e]⟩
    · exact ⟨.ivstage, by simp, rfl, by rw [e]⟩
    · exact ⟨.din, by simp, rfl, by rw [e]⟩

/-- The memory after a host access: as before, or with one word stored in a staging array (R42, R43). -/
theorem State.hostAccess_mem (s : State) (a : Access) :
    (s.hostAccess a).mem = s.mem ∨ ∃ x off w, (x = .keystage ∨ x = .ivstage ∨ x = .din) ∧
      (∀ o, off ≤ o → o < off + 4 → Arr.holds x o) ∧ (s.hostAccess a).mem = Memory.writeBytes s.mem off (wordBytes w) := by
  obtain ⟨u, r, he, rfl | ⟨p, off, w, -, hoff, hplace, rfl⟩⟩ := s.hostAccess_eq_reply a <;> rw [he]
  · exact .inl rfl
  · rcases s.writePlace_mem p off w with hm | ⟨x, hx, rfl, hm⟩
    · exact .inl hm
    · exact .inr ⟨x, off, w, hx, fun _ hlo hhi => Arr.holds_word (holds_of_placeOf_arr hplace) hoff hlo hhi, hm⟩

theorem State.hostAccess_sound {s : State} (h : Memory.Sound s.mem) (a : Access) : Memory.Sound (s.hostAccess a).mem := by
  rcases s.hostAccess_mem a with hm | ⟨x, off, w, -, hx, hm⟩ <;> rw [hm]
  · exact h
  · exact h.writeBytes fun o hlo hhi => ⟨x, hx o hlo hhi⟩

/-- No host access changes a byte of `CV` or `DOUT` (R42). -/
theorem State.hostAccess_read (s : State) (a : Access) (o : Nat) (ho : Arr.cv.holds o ∨ Arr.dout.holds o) :
    Memory.read (s.hostAccess a).mem o = Memory.read s.mem o := by
  rcases s.hostAccess_mem a with hm | ⟨x, off, w, hstaging, hx, hm⟩ <;> rw [hm]
  rw [Memory.read_writeBytes, length_wordBytes, if_neg]
  rintro ⟨hlo, hhi⟩
  rcases ho with ho | ho <;> obtain rfl := Arr.disjoint _ _ o ho (hx o hlo hhi) <;> simp at hstaging

/-- A taken write leaves the sequencer and `BUSY` as they are or is an acceptance (R42, R107). -/
theorem State.writePlace_sequencer (s : State) (p : Place) (off : Nat) (w : Word) :
    ((s.writePlace p off w).busy = s.busy ∧ (s.writePlace p off w).seq = s.seq ∧
      (s.writePlace p off w).staged = s.staged) ∨
    (s.busy = false ∧ s.writePlace p off w = s.accept w) := by
  rcases s.writePlace_cases p off w with e | ⟨-, e⟩ | ⟨-, hb, e⟩ | ⟨-, e⟩ | ⟨-, e⟩ | ⟨-, -, e⟩ | ⟨-, -, e⟩
  · exact .inl (by simp [e])
  · exact .inl (by simp [e])
  · exact .inr ⟨hb, e⟩
  · exact .inl (by simp [e])
  · exact .inl (by simp [e])
  · exact .inl (by simp [e])
  · exact .inl (by simp [e])

/-! ### The sequencer's part of the invariant -/

/-- The part of `Inv` that speaks of the sequencer and the reset line. -/
structure SeqInv (s : State) : Prop where
  idle : s.busy = false → s.seq = .idle ∧ s.staged = Staged.empty
  reached : s.busy = true → ∃ k, (s.seq, s.staged) = seqIter Config.PRIM s k
  quiet : s.rst = true → s.busy = false

theorem Inv.seqInv {s : State} (h : Inv s) : SeqInv s := ⟨h.seqIdle, h.seqReached, h.rstQuiet⟩

theorem SeqInv.of_idle {s : State} (hb : s.busy = false) (hq : s.seq = .idle) (hst : s.staged = Staged.empty) : SeqInv s where
  idle _ := ⟨hq, hst⟩
  reached h := by rw [hb] at h; cases h
  quiet _ := hb

/-- The micro-states a command reaches depend on none of the fields a host access can change while it is in flight. -/
theorem seqIter_of_visible (P : Prim) (s : State) (d o di oi : Bool) (r : Option Reply) (l : List Event) (k : Nat) :
    seqIter P { s with done := d, ovr := o, doneIe := di, ovrIe := oi, reply := r, agenda := l } k = seqIter P s k :=
  seqIter_congr P { s with done := d, ovr := o, doneIe := di, ovrIe := oi, reply := r, agenda := l } s (fun _ => rfl) k

theorem SeqInv.of_visible {s : State} (h : SeqInv s) (d o di oi : Bool) (r : Option Reply) (l : List Event) :
    SeqInv { s with done := d, ovr := o, doneIe := di, ovrIe := oi, reply := r, agenda := l } where
  idle := h.idle
  reached hb := by
    obtain ⟨k, hk⟩ := h.reached hb
    exact ⟨k, hk.trans (seqIter_of_visible Config.PRIM s d o di oi r l k).symm⟩
  quiet := h.quiet

/-- A command just accepted is in the first micro-state it reaches (R107). -/
theorem SeqInv.accept {s : State} (hrst : s.rst = false) (w : Word) (r : Option Reply) :
    SeqInv { s.accept w with reply := r } where
  idle := nofun
  reached _ := ⟨0, rfl⟩
  quiet hr := by cases hrst.symm.trans hr

theorem SeqInv.hostAccess {s : State} (h : SeqInv s) (a : Access) : SeqInv (s.hostAccess a) := by
  cases hb : s.busy with
  | true =>
    rw [s.hostAccess_busy a hb]
    exact h.of_visible _ _ _ _ _ s.agenda
  | false =>
    obtain ⟨hq, hst⟩ := h.idle hb
    obtain ⟨u, r, he, rfl | ⟨p, off, w, hrst, -, -, rfl⟩⟩ := s.hostAccess_eq_reply a <;> rw [he]
    · exact .of_idle hb hq hst
    · rcases s.writePlace_sequencer p off w with ⟨hb', hq', hst'⟩ | ⟨-, e⟩
      · exact .of_idle (hb'.trans hb) (hq'.trans hq) (hst'.trans hst)
      · rw [e]
        exact .accept hrst w r

/-- A micro-step that is not the completion goes to the next micro-state the command reaches (R91). -/
theorem SeqInv.moveSeq {s : State} (h : SeqInv s) (hb : s.busy = true) :
    SeqInv (s.moveSeq (seqNext Config.PRIM s)) where
  idle hb' := by rw [State.moveSeq_busy, hb] at hb'; cases hb'
  reached _ := by
    obtain ⟨k, hk⟩ := h.reached hb
    refine ⟨k + 1, ?_⟩
    rw [seqIter_congr Config.PRIM (s.moveSeq _) s (fun _ => rfl), seqIter_succ, ← hk]
    rfl
  quiet hr := h.quiet hr

/-- The last micro-step of a command in flight leaves what its atomic completion leaves (R91): the micro-states it reaches
from `Q_DECODE` end in one `Q_DONE`, whichever number of steps reached it. -/
theorem SeqInv.microStep_done {s : State} (h : SeqInv s) (hb : s.busy = true) {code : Option CmdError} (hq : s.seq = .done code) :
    .next (microStep Config.PRIM s) = completeWith exec s := by
  obtain ⟨k, hk⟩ := h.reached hb
  obtain ⟨n, code', st, -, hn, hm⟩ := seqIter_completes Config.PRIM s
  have hlast := seqIter_done hn k
  rw [Nat.add_comm, seqIter_done (hk.symm.trans (by rw [hq]))] at hlast
  have hs : s.moveSeq (.done code', st) = s := by
    rw [← hlast, ← hq]
    rfl
  rw [completeWith_exec, ← hm, hs]

/-! ### The session's part of the invariant -/

/-- `t` has the session registers, the chaining value and the output of `s`. -/
structure KeepsSession (s t : State) : Prop where
  registers : t.session = s.session ∧ t.skey = s.skey ∧ t.pbuf = s.pbuf ∧ t.pblen = s.pblen ∧ t.blkcnt = s.blkcnt ∧
    t.padval = s.padval ∧ t.outlen = s.outlen
  cv : t.firstBytes .cv 16 = s.firstBytes .cv 16
  dout : ∀ i, i < Config.DOUT_SIZE → t.byte .dout i = s.byte .dout i

/-- Bytes outside `CV` and `DOUT` are free to change. -/
theorem KeepsSession.of_read {s t : State}
    (hr : t.session = s.session ∧ t.skey = s.skey ∧ t.pbuf = s.pbuf ∧ t.pblen = s.pblen ∧ t.blkcnt = s.blkcnt ∧
      t.padval = s.padval ∧ t.outlen = s.outlen)
    (hm : ∀ o, Arr.cv.holds o ∨ Arr.dout.holds o → Memory.read t.mem o = Memory.read s.mem o) : KeepsSession s t where
  registers := hr
  cv := State.firstBytes_congr _ _ _ _ fun i hi => hm _ (.inl ⟨by omega, Nat.add_lt_add_left hi _⟩)
  dout i hi := hm _ (.inr ⟨by omega, Nat.add_lt_add_left hi _⟩)

/-- The invariant of a state from that of one with the same session. -/
theorem Inv.of_keepsSession {s t : State} (h : Inv s) (hk : KeepsSession s t) (hm : Memory.Sound t.mem) (hq : SeqInv t) : Inv t := by
  obtain ⟨⟨hsession, hskey, hpbuf, hpblen, hblkcnt, hpadval, houtlen⟩, hcv, hdout⟩ := hk
  exact
  { memWf := hm.1
    memArrays := hm.2
    idleSkey := by rw [hsession, hskey]; exact h.idleSkey
    idleCv := by rw [hsession, hcv]; exact h.idleCv
    idlePbuf := by rw [hsession, hpbuf]; exact h.idlePbuf
    idleRegs := by rw [hsession, hpblen, hblkcnt, hpadval]; exact h.idleRegs
    openSkey := by rw [hsession, hskey]; exact h.openSkey
    openCv := by rw [hsession, hcv]; exact h.openCv
    openIvsrc := by rw [hsession]; exact h.openIvsrc
    activeLen := by rw [hsession, hpblen]; exact h.activeLen
    activeCarry := by rw [hsession, hpbuf, hpblen]; exact h.activeCarry
    finishedCarry := by rw [hsession, hpbuf, hpblen]; exact h.finishedCarry
    activePad := by rw [hsession, hpadval]; exact h.activePad
    finishedPad := by rw [hsession, hpadval]; exact h.finishedPad
    ecbCv := by rw [hsession, hcv]; exact h.ecbCv
    outlenLe := by rw [houtlen]; exact h.outlenLe
    doutZero := fun i hlo hhi => (hdout i hhi).trans (h.doutZero i (houtlen ▸ hlo) hhi)
    seqIdle := hq.idle
    seqReached := hq.reached
    rstQuiet := hq.quiet }

theorem Inv.sound {s : State} (h : Inv s) : Memory.Sound s.mem := ⟨h.memWf, h.memArrays⟩

/-! ### The completion of each command -/

theorem Inv.finish {s : State} (h : Inv s) (code : Option CmdError) : Inv (s.finish code) :=
  h.of_keepsSession (.of_read (by simp) fun _ _ => rfl) h.sound (.of_idle rfl rfl rfl)

theorem Inv.scrubKeystage {s : State} (h : Inv s) (hb : s.busy = false) : Inv s.scrubKeystage := by
  obtain ⟨hq, hst⟩ := h.seqIdle hb
  refine h.of_keepsSession (.of_read (by simp) fun o ho => ?_) (State.clearArr_sound h.sound .keystage) (.of_idle hb hq hst)
  refine State.read_clearArr_other s .keystage o fun hks => ?_
  rcases ho with hcv | hdout
  · cases Arr.disjoint _ _ o hks hcv
  · cases Arr.disjoint _ _ o hks hdout

@[simp] theorem State.length_stagedIv (s : State) (b : Bool) (n : Nat) : (s.stagedIv b n).length = n := by
  cases b <;> simp [State.stagedIv]

/-- `CV` after a successful `INIT`: the IV and then zeros (R63, R64). -/
theorem initWrites_cv (s : State) (t : Tag) (m : Mode) (d : Dir) (v : Bool) :
    (initWrites s t m d v).firstBytes .cv 16 = s.stagedIv (effectiveIvsrc m v) (blockSize t) ++ zeros (16 - blockSize t) := by
  rw [State.firstBytes_of_mem (initWrites_mem s t m d v), State.firstBytes_setArr_full _ .cv _ 16 (by decide) (by simp [blockSize_le]),
    State.length_stagedIv]

theorem effectiveIvsrc_eq_true {m : Mode} {v : Bool} (h : effectiveIvsrc m v = true) : m = .cbc := by
  rw [effectiveIvsrc, Bool.and_eq_true, Mode.bit_eq_true] at h
  exact h.2

theorem Inv.initWrites_finish {s : State} (h : Inv s) (t : Tag) (m : Mode) (d : Dir) (v : Bool) :
    Inv ((initWrites s t m d v).finish none) := by
  have hopen : ∀ c, ((initWrites s t m d v).finish none).session.cfg? = some c → c = ⟨t, m, d, effectiveIvsrc m v⟩ :=
    fun c hc => (Option.some.inj hc).symm
  have hsound := initWrites_sound h.sound t m d v
  exact
  { memWf := hsound.1
    memArrays := hsound.2
    idleSkey := nofun
    idleCv := nofun
    idlePbuf := nofun
    idleRegs := nofun
    openSkey := fun c hc => by
      obtain rfl := hopen c hc
      have hdrop := regOf_drop 32 (s.stagedKey t)
      rwa [State.length_stagedKey] at hdrop
    openCv := fun c hc => by
      obtain rfl := hopen c hc
      rw [State.firstBytes_finish, initWrites_cv]
      simp [CipherSpec.bs]
    openIvsrc := fun c hc hv => by
      obtain rfl := hopen c hc
      exact effectiveIvsrc_eq_true hv
    activeLen := fun c _ => c.bs_pos
    activeCarry := fun _ _ => rfl
    finishedCarry := nofun
    activePad := fun _ _ => rfl
    finishedPad := nofun
    ecbCv := fun c hc hm => by
      obtain rfl := hopen c hc
      obtain rfl : m = .ecb := hm
      rw [State.firstBytes_finish, initWrites_cv]
      have hiv : s.stagedIv (effectiveIvsrc .ecb v) (blockSize t) = zeros (blockSize t) := by
        simp [effectiveIvsrc, Mode.bit, State.stagedIv]
      rw [hiv, ← List.replicate_add, Nat.add_sub_cancel' (blockSize_le t)]
    outlenLe := h.outlenLe
    doutZero := fun i hlo hhi =>
      (State.byte_setArr_ne s .cv .dout _ i hhi (by decide)).trans (h.doutZero i hlo hhi)
    seqIdle := fun _ => ⟨rfl, rfl⟩
    seqReached := nofun
    rstQuiet := fun _ => rfl }

theorem Inv.closeWrites_finish {s : State} (h : Inv s) : Inv ((closeWrites s).finish none) where
  memWf := (closeWrites_sound h.sound).1
  memArrays := (closeWrites_sound h.sound).2
  idleSkey _ := rfl
  idleCv _ := by
    rw [State.firstBytes_finish, State.firstBytes_of_mem (closeWrites_mem s),
      State.firstBytes_clearArr_ne _ .dout .cv _ (by decide) (by decide),
      State.firstBytes_clearArr_ne _ .din .cv _ (by decide) (by decide),
      State.firstBytes_clearArr_ne _ .keystage .cv _ (by decide) (by decide),
      State.firstBytes_clearArr _ .cv _ (by decide)]
  idlePbuf _ := rfl
  idleRegs _ := ⟨rfl, rfl, rfl⟩
  openSkey := nofun
  openCv := nofun
  openIvsrc := nofun
  activeLen := nofun
  activeCarry := nofun
  finishedCarry := nofun
  activePad := nofun
  finishedPad := nofun
  ecbCv := nofun
  outlenLe := Nat.zero_le _
  doutZero i _ hhi := State.byte_clearArr _ .dout i hhi
  seqIdle _ := ⟨rfl, rfl⟩
  seqReached := nofun
  rstQuiet _ := rfl

/-! ### The commit of an UPDATE -/

section
variable {s : State} {c x : CipherSpec} {r : Staged} {f : Bool}

theorem State.cfg?_commit (hs : s.session = .active c) : (s.commit c r f).session.cfg? = some c := by
  cases f <;> simp [hs, Session.cfg?]

theorem State.commit_session_eq_active (hs : s.session = .active c) :
    (s.commit c r f).session = .active x ↔ f = false ∧ c = x := by
  cases f <;> simp [hs]

theorem State.commit_session_eq_finished (hs : s.session = .active c) :
    (s.commit c r f).session = .finished x ↔ f = true ∧ c = x := by
  cases f <;> simp [hs]

theorem State.commit_session_ne_idle (hs : s.session = .active c) : (s.commit c r f).session ≠ .idle := by
  cases f <;> simp [hs]

theorem State.toNat_commit_outlen (h : r.out.length ≤ 1056) : (s.commit c r f).outlen.toNat = r.out.length := by
  rw [State.commit_outlen, BitVec.toNat_ofNat, Nat.mod_eq_of_lt (by omega)]

theorem State.toNat_commit_pblen (h : r.carry.length < c.bs) : (s.commit c r f).pblen.toNat = r.carry.length := by
  have hbs := c.bs_le
  rw [State.commit_pblen, BitVec.toNat_ofNat, Nat.mod_eq_of_lt (by omega)]

theorem State.toNat_commit_padval (h : r.pad ≤ c.bs) : (s.commit c r f).padval.toNat = r.pad := by
  have hbs := c.bs_le
  rw [State.commit_padval, BitVec.toNat_ofNat, Nat.mod_eq_of_lt (by omega)]

/-- `DOUT` from the committed length up is zero (R79). -/
theorem State.commit_dout_zero (hr : r.out.length ≤ 1056) {i : Nat} (hlo : r.out.length ≤ i) (hhi : i < 1056) :
    (s.commit c r f).byte .dout i = 0 := by
  have hbytes := (State.firstBytes_eq_iff _ .dout 1056 _ (by simp; omega)).mp (s.commit_dout c r f hr) i hhi
  rw [hbytes, List.getD_append_right _ _ _ _ hlo, List.getD_eq_getElem?_getD, List.getElem?_replicate]
  split <;> rfl

end

/-- The commit of a successful `UPDATE` keeps the invariants (R79). -/
theorem Inv.commit_finish {P : Prim} {s : State} (h : Inv s) {c : CipherSpec} {len : Nat} {f : Bool} {r : Staged}
    (hs : s.session = .active c) (hl : len ≤ 1024)
    (hr : updateResult P c (s.key c) (s.workString len) (s.firstBytes .cv c.bs) f = .ok r) :
    Inv ((s.commit c r f).finish none) := by
  obtain ⟨hout, hcarry, hcv, hpad⟩ := updateResult_fits hl hr
  obtain ⟨-, -, -, -, hpadNot, hpadFinal⟩ := updateResult_sizes hr (by simp)
  have hcfg : s.session.cfg? = some c := by rw [hs]; rfl
  have hopen : ∀ x, (s.commit c r f).session.cfg? = some x → c = x :=
    fun x hx => Option.some.inj ((State.cfg?_commit hs).symm.trans hx)
  have hsound := State.commit_sound h.sound c r f
  have hidle : (s.commit c r f).session ≠ .idle := State.commit_session_ne_idle hs
  have hactive : ∀ x, (s.commit c r f).session = .active x → f = false ∧ c = x :=
    fun x => (State.commit_session_eq_active hs).mp
  have hfinished : ∀ x, (s.commit c r f).session = .finished x → f = true ∧ c = x :=
    fun x => (State.commit_session_eq_finished hs).mp
  exact
  { memWf := hsound.1
    memArrays := hsound.2
    idleSkey := fun hi => absurd hi hidle
    idleCv := fun hi => absurd hi hidle
    idlePbuf := fun hi => absurd hi hidle
    idleRegs := fun hi => absurd hi hidle
    openSkey := fun x hx => by
      obtain rfl := hopen x hx
      simpa using h.openSkey c hcfg
    openCv := fun x hx => by
      obtain rfl := hopen x hx
      rw [State.firstBytes_finish]
      cases hm : c.mode with
      | ecb => rw [State.commit_cv_ecb _ _ _ _ hm _ le_rfl]; exact h.openCv c hcfg
      | cbc => rw [State.commit_cv_cbc _ _ _ _ hm hcv, ← hcv, List.drop_left]
    openIvsrc := fun x hx => by
      obtain rfl := hopen x hx
      exact h.openIvsrc c hcfg
    activeLen := fun x hx => by
      obtain ⟨-, rfl⟩ := hactive x hx
      rwa [State.finish_pblen, State.toNat_commit_pblen hcarry]
    activeCarry := fun x hx => by
      rw [State.finish_pblen, State.toNat_commit_pblen hcarry, State.finish_pbuf, State.commit_pbuf, regOf_drop]
    finishedCarry := fun x hx => by
      obtain ⟨hf, -⟩ := hfinished x hx
      obtain ⟨-, hnone⟩ := hpadFinal hf
      simp [hnone]
    activePad := fun x hx => by
      obtain ⟨hf, -⟩ := hactive x hx
      simp [hpadNot hf]
    finishedPad := fun x hx => by
      obtain ⟨hf, rfl⟩ := hfinished x hx
      rw [State.finish_padval, State.toNat_commit_padval hpad]
      exact ⟨(hpadFinal hf).1, hpad⟩
    ecbCv := fun x hx hm => by
      obtain rfl := hopen x hx
      rw [State.firstBytes_finish, State.commit_cv_ecb _ _ _ _ hm _ le_rfl]
      exact h.ecbCv c hcfg hm
    outlenLe := by rwa [State.finish_outlen, State.toNat_commit_outlen hout]
    doutZero := fun i hlo hhi => by
      rw [State.finish_outlen, State.toNat_commit_outlen hout] at hlo
      exact State.commit_dout_zero (f := f) hout hlo hhi
    seqIdle := fun _ => ⟨rfl, rfl⟩
    seqReached := nofun
    rstQuiet := fun _ => rfl }

/-! ### The completion of every command -/

theorem Inv.completion {s : State} (h : Inv s) (P : Prim) (i : Instr) : Inv (completion P i s) := by
  cases i with
  | nop => exact h.finish none
  | close => exact h.closeWrites_finish
  | init cipher m d v =>
    show Inv (completeInit P cipher m d v s)
    rcases completeInit_cases P cipher m d v s with ⟨e, -, he⟩ | ⟨t, -, he⟩ <;> rw [he]
    · exact (h.finish (some e)).scrubKeystage rfl
    · exact (h.initWrites_finish t m d v).scrubKeystage rfl
  | update len f =>
    show Inv (completeUpdate P len f s)
    rcases completeUpdate_cases P len f s with ⟨e, -, he⟩ | ⟨c, hc, ⟨e, -, he⟩ | ⟨r, hr, he⟩⟩ <;> rw [he]
    · exact h.finish (some e)
    · exact h.finish (some e)
    · obtain ⟨hs, hl, -⟩ := updateCheck_ok.mp hc
      exact h.commit_finish hs hl hr

theorem Inv.completeWith {s t : State} (h : Inv s) (ht : completeWith exec s = .next t) : Inv t := by
  rw [completeWith_exec, Host.Outcome.next.injEq] at ht
  subst ht
  cases decodeWord s.cmd with
  | error e => exact h.finish (some .illegalCommand)
  | ok i => exact h.completion Config.PRIM i

/-! ### The step of each event -/

/-- The fields a host access or the agenda can change while a command is in flight are in no invariant. -/
theorem Inv.of_visible {s : State} (h : Inv s) (d o di oi : Bool) (r : Option Reply) (l : List Event) :
    Inv { s with done := d, ovr := o, doneIe := di, ovrIe := oi, reply := r, agenda := l } :=
  h.of_keepsSession (.of_read (by simp) fun _ _ => rfl) h.sound (h.seqInv.of_visible d o di oi r l)

theorem Inv.hostAccess {s : State} (h : Inv s) (a : Access) : Inv (s.hostAccess a) := by
  obtain ⟨-, hsession, houtlen, hblkcnt, hpadval, hskey, hpbuf, hpblen, -, -⟩ := s.hostAccess_frame a
  exact h.of_keepsSession
    (.of_read ⟨hsession, hskey, hpbuf, hpblen, hblkcnt, hpadval, houtlen⟩ (s.hostAccess_read a))
    (State.hostAccess_sound h.sound a) (h.seqInv.hostAccess a)

/-- Settles O56: every session register, array and hidden register is zero in the reset state. -/
theorem resetMeetsTheInvariants : Obligations.ResetMeetsTheInvariants where
  memWf := rfl
  memArrays := nofun
  idleSkey _ := rfl
  idleCv _ := rfl
  idlePbuf _ := rfl
  idleRegs _ := ⟨rfl, rfl, rfl⟩
  openSkey := nofun
  openCv := nofun
  openIvsrc := nofun
  activeLen := nofun
  activeCarry := nofun
  finishedCarry := nofun
  activePad := nofun
  finishedPad := nofun
  ecbCv := nofun
  outlenLe := Nat.zero_le _
  doutZero _ _ _ := rfl
  seqIdle _ := ⟨rfl, rfl⟩
  seqReached := nofun
  rstQuiet _ := rfl

theorem Inv.resetPin (s : State) (b : Bool) : Inv (s.resetPin b) := by
  have hreset : Inv State.reset := resetMeetsTheInvariants
  exact hreset.of_keepsSession (.of_read (by simp [State.reset]) fun _ _ => rfl) hreset.sound (.of_idle rfl rfl rfl)

theorem Inv.microStep {s : State} (h : Inv s) (hb : s.busy = true) : Inv (microStep Config.PRIM s) := by
  by_cases hq : ∃ code, s.seq = .done code
  · obtain ⟨code, hq⟩ := hq
    exact h.completeWith (h.seqInv.microStep_done hb hq).symm
  · rw [microStep_not_done (not_exists.mp hq)]
    exact h.of_keepsSession (.of_read (by simp) fun _ _ => rfl) h.sound (h.seqInv.moveSeq hb)

theorem Inv.sequencerTurn {s t : State} (h : Inv s) (ht : sequencerTurn exec s = .next t) : Inv t := by
  unfold Machine.sequencerTurn at ht
  split at ht
  · exact h.completeWith ht
  · cases ht
    exact h

theorem Inv.eventStep {s t : State} (h : Inv s) (e : Event) (ht : eventStep Config.PRIM exec e s = .next t) : Inv t := by
  cases e with
  | host a =>
    cases ht
    exact h.hostAccess a
  | sequencer =>
    cases ht
    split
    · rename_i hf
      exact h.microStep (State.inFlight_eq_true.mp hf).1
    · exact h
  | complete => exact h.sequencerTurn ht
  | reset b =>
    cases ht
    exact Inv.resetPin s b
  | primitiveSilent =>
    simp only [Machine.eventStep] at ht
    split at ht
    · cases ht
    · cases ht
      exact h

/-- Settles O57: the step of the next event keeps the invariants, from the state with the rest of the agenda to come. -/
theorem stepKeepsTheInvariants : Obligations.StepKeepsTheInvariants := by
  unfold Obligations.StepKeepsTheInvariants
  intro s t h ht
  unfold step advance at ht
  split at ht
  · exact h.sequencerTurn ht
  · rename_i e rest _
    exact (h.of_visible s.done s.ovr s.doneIe s.ovrIe s.reply rest).eventStep e ht

/-! ### The phase -/

/-- Settles O17, by the cases of each command's completion. -/
theorem phaseChangesOnlyByItsTransitions : Obligations.PhaseChangesOnlyByItsTransitions := by
  unfold Obligations.PhaseChangesOnlyByItsTransitions
  refine ⟨fun i s t h => ?_, fun a s => (s.hostAccess_frame a).2.1, fun P s hb _ => by rw [microStep_busy P s hb],
    fun b s => rfl⟩
  rw [exec_eq_next] at h
  subst h
  cases i with
  | nop => rfl
  | close => rfl
  | init cipher m d v =>
    rcases completeInit_cases Config.PRIM cipher m d v s with ⟨e, -, he⟩ | ⟨c, hc, he⟩
    · right
      simp [completion, he]
    · left
      obtain ⟨hidle, -⟩ := initCheck_ok.mp hc
      simp [completion, he, hidle]
  | update len f =>
    rcases completeUpdate_cases Config.PRIM len f s with ⟨e, -, he⟩ | ⟨c, hc, ⟨e, -, he⟩ | ⟨r, -, he⟩⟩
    · right
      simp [completion, he]
    · right
      simp [completion, he]
    · obtain ⟨hs, -⟩ := updateCheck_ok.mp hc
      cases f with
      | false =>
        right
        simp [completion, he]
      | true =>
        left
        simp [completion, he, hs]

/-! ### The block counter -/

/-- The primitive calls of a successful `UPDATE`: its whole blocks, and the pad block of a final encrypt chunk (R77). -/
theorem updateResult_cnt {P : Prim} {c : CipherSpec} {k T cv : List Byte} {f : Bool} {r : Staged}
    (h : updateResult P c k T cv f = .ok r) :
    r.cnt = T.length / c.bs + if f = true ∧ c.dir = .encrypt then 1 else 0 := by
  obtain ⟨out, v, -, ⟨rfl, rfl⟩ | ⟨rfl, hd, y, w, -, rfl⟩ | ⟨rfl, hd, o, p, -, rfl⟩⟩ := updateResult_ok h
  · simp
  · simp [hd]
  · simp [hd]

/-- Settles O24: a committed `UPDATE` adds the calls its result counted, and no failed command reaches the counter. -/
theorem blockCounterCountsCommittedCalls : Obligations.BlockCounterCountsCommittedCalls := by
  unfold Obligations.BlockCounterCountsCommittedCalls
  refine ⟨fun P s t len f h => ?_, fun P s t cipher m d v h => ?_, fun P s t h => ?_, fun b s => rfl⟩
  · rw [execWith_eq_next] at h
    subst h
    rcases completeUpdate_cases P len f s with ⟨e, -, he⟩ | ⟨c, hc, ⟨e, -, he⟩ | ⟨r, hr, he⟩⟩
    · simp [completion, he]
    · simp [completion, he]
    · obtain ⟨hs, -⟩ := updateCheck_ok.mp hc
      refine ⟨fun hne => absurd (by simp [completion, he]) hne, fun c' hs' _ => ?_⟩
      obtain rfl : c = c' := Session.active.inj (hs.symm.trans hs')
      simp [completion, he, updateResult_cnt hr, Nat.add_assoc]
  · rw [execWith_eq_next] at h
    subst h
    rcases completeInit_cases P cipher m d v s with ⟨e, -, he⟩ | ⟨c, -, he⟩ <;> simp [completion, he]
  · rw [execWith_eq_next] at h
    subst h
    rfl

/-! ### The pad value -/

/-- The pad a final encrypt chunk reports (R77). -/
theorem updateResult_pad_encrypt {P : Prim} {c : CipherSpec} {k T cv : List Byte} {r : Staged}
    (h : updateResult P c k T cv true = .ok r) (hd : c.dir = .encrypt) : r.pad = c.bs - T.length % c.bs := by
  obtain ⟨out, v, -, ⟨hf, -⟩ | ⟨-, -, y, w, -, rfl⟩ | ⟨-, hd', -⟩⟩ := updateResult_ok h
  · cases hf
  · rfl
  · cases hd.symm.trans hd'

/-- The pad a final decrypt chunk reports is the last byte of the decrypted blocks (R78, R87). -/
theorem updateResult_pad_decrypt {P : Prim} {c : CipherSpec} {k T cv : List Byte} {r : Staged}
    (h : updateResult P c k T cv true = .ok r) (hd : c.dir = .decrypt) :
    ∃ out v last, runBlocks P c k T cv (T.length / c.bs) = some (out, v) ∧ out.getLast? = some last ∧ r.pad = last.toNat := by
  obtain ⟨out, v, hb, ⟨hf, -⟩ | ⟨-, hd', -⟩ | ⟨-, -, o, p, hp, rfl⟩⟩ := updateResult_ok h
  · cases hf
  · cases hd.symm.trans hd'
  · obtain ⟨last, hlast, hpad, -⟩ := padStrip_eq_some.mp hp
    exact ⟨out, v, last, hb, hlast, hpad⟩

/-- Settles O25, from the pad a successful result reports in each direction. -/
theorem padValueReportsTheLastFinalChunk : Obligations.PadValueReportsTheLastFinalChunk := by
  unfold Obligations.PadValueReportsTheLastFinalChunk
  refine ⟨fun P s t len c hs herr => ⟨fun h => ?_, fun h => ?_⟩, fun P s t cipher m d v h herr => ?_, fun P s t h => ?_,
    fun b s => rfl, fun s => ?_⟩
  · rw [execWith_eq_next] at h
    subst h
    obtain ⟨c', r, hs', hl, -, hr, he⟩ := completeUpdate_success herr
    obtain rfl : c = c' := Session.active.inj (hs.symm.trans hs')
    obtain ⟨-, -, -, hle⟩ := updateResult_fits hl hr
    obtain ⟨-, -, -, -, -, hfinal⟩ := updateResult_sizes hr (by simp)
    have hpad : (completion P (.update len true) s).padval.toNat = r.pad := by
      rw [completion, he, State.finish_padval, State.toNat_commit_padval hle]
    rw [hpad]
    refine ⟨(hfinal rfl).1, hle, fun hd => ?_, fun hd => ?_⟩
    · rw [updateResult_pad_encrypt hr hd, State.length_workString]
    · obtain ⟨out, v, last, hb, hlast, hp⟩ := updateResult_pad_decrypt hr hd
      rw [State.length_workString] at hb
      exact ⟨out, v, hb, hlast.trans (congrArg some (BitVec.eq_of_toNat_eq (hp.symm.trans hpad.symm)))⟩
  · rw [execWith_eq_next] at h
    subst h
    obtain ⟨c', r, -, -, -, hr, he⟩ := completeUpdate_success herr
    obtain ⟨-, -, -, -, hzero, -⟩ := updateResult_sizes hr (by simp)
    rw [completion, he, State.finish_padval, State.commit_padval, hzero rfl]
    rfl
  · rw [execWith_eq_next] at h
    subst h
    rcases completeInit_cases P cipher m d v s with ⟨e, -, he⟩ | ⟨c, -, he⟩
    · simp [completion, he] at herr
    · simp [completion, he]
  · rw [execWith_eq_next] at h
    subst h
    rfl
  · have hlt := s.padval.isLt
    rw [State.readReg, BitVec.toNat_setWidth, Nat.mod_eq_of_lt (by omega)]

/-! ### STATUS and CFG -/

theorem testBit_eq_false_of_lt {v n i : Nat} (hv : v < 2 ^ n) (hi : n ≤ i) : v.testBit i = false :=
  Nat.testBit_lt_two_pow (lt_of_lt_of_le hv (Nat.pow_le_pow_right (by decide) hi))

/-- A field of a word read as a number, from its bits. -/
theorem toNat_extractLsb'_of_testBit {w : Word} {lo n v : Nat} (hv : v < 2 ^ n)
    (h : ∀ i, i < n → w.getLsbD (lo + i) = v.testBit i) : (w.extractLsb' lo n).toNat = v := by
  apply Nat.eq_of_testBit_eq
  intro i
  rw [BitVec.testBit_toNat, BitVec.getLsbD_extractLsb']
  by_cases hi : i < n
  · simp [hi, h i hi]
  · simp [hi, testBit_eq_false_of_lt hv (not_lt.mp hi)]

theorem extractLsb'_eq_zero {w : Word} {lo n : Nat} (h : ∀ i, i < n → w.getLsbD (lo + i) = false) :
    w.extractLsb' lo n = 0 :=
  BitVec.eq_of_toNat_eq (toNat_extractLsb'_of_testBit (Nat.two_pow_pos n) fun i hi => by simp [h i hi])

theorem phaseCode_lt (x : Session) : phaseCode x < 4 := by
  cases x <;> simp [phaseCode]

theorem errCode_lt (e : Option CmdError) : errCode e < 16 := by
  cases e with
  | none => decide
  | some e => cases e <;> decide

/-- The bits of `STATUS` (R14). -/
theorem State.statusWord_getLsbD (s : State) (i : Nat) : s.statusWord.getLsbD i =
    (s.busy && decide (i = 0) || s.done && decide (i = 1) || s.errf && decide (i = 2) || s.ovr && decide (i = 3) ||
      decide (4 ≤ i) && decide (i < 32) && (phaseCode s.session).testBit (i - 4) ||
      decide (8 ≤ i) && decide (i < 32) && s.pblen.getLsbD (i - 8)) := by
  simp only [State.statusWord, BitVec.getLsbD_or, fieldAt_getLsbD, bitAt_getLsbD _ 0 _ (by decide : 0 < 32),
    bitAt_getLsbD _ 1 _ (by decide : 1 < 32), bitAt_getLsbD _ 2 _ (by decide : 2 < 32),
    bitAt_getLsbD _ 3 _ (by decide : 3 < 32), BitVec.testBit_toNat]

/-- `ERRF` is set exactly when `ERR` reads nonzero (R14). -/
theorem State.errf_eq_true (s : State) : s.errf = true ↔ (s.readReg .err).toNat ≠ 0 := by
  have hlt := errCode_lt s.err
  have herr : (s.readReg .err).toNat = errCode s.err := by
    simp only [State.readReg, fieldAt, BitVec.shiftLeft_zero, BitVec.toNat_ofNat]
    omega
  rw [herr, State.errf, bne_iff_ne]

/-- Settles O43: each field is the value of `STATUS` at its bits, where every other field has only zeros. -/
theorem statusFieldsAtTheirBits : Obligations.StatusFieldsAtTheirBits := by
  unfold Obligations.StatusFieldsAtTheirBits
  intro s
  have hphase : ∀ i, 2 ≤ i → (phaseCode s.session).testBit i = false :=
    fun i hi => testBit_eq_false_of_lt (phaseCode_lt s.session) hi
  rw [← State.errf_eq_true, State.readReg]
  refine ⟨?_, ?_, ?_, ?_, toNat_extractLsb'_of_testBit (phaseCode_lt _) fun i hi => ?_, extractLsb'_eq_zero fun i hi => ?_,
    BitVec.eq_of_getLsbD_eq fun i hi => ?_, extractLsb'_eq_zero fun i hi => ?_⟩
  · rw [s.statusWord_getLsbD]
    simp
  · rw [s.statusWord_getLsbD]
    simp
  · rw [s.statusWord_getLsbD]
    simp
  · rw [s.statusWord_getLsbD]
    simp
  · rw [s.statusWord_getLsbD]
    interval_cases i <;> simp
  · rw [s.statusWord_getLsbD]
    interval_cases i <;> simp [hphase]
  · rw [BitVec.getLsbD_extractLsb', s.statusWord_getLsbD]
    interval_cases i <;> simp [hphase]
  · rw [s.statusWord_getLsbD]
    interval_cases i <;> simp [hphase]

theorem tagNum_lt (t : Tag) : tagNum t < 8 := by cases t <;> decide

theorem tagOf_tagNum_eq (t : Tag) : tagOf (tagNum t) = some t := by cases t <;> rfl

/-- The bits of `CFG` of an open session (R18). -/
theorem CipherSpec.word_getLsbD (c : CipherSpec) (i : Nat) : c.word.getLsbD i =
    (decide (4 ≤ i) && decide (i < 32) && (tagNum c.cipher).testBit (i - 4) || c.mode.bit && decide (i = 7) ||
      c.dir.bit && decide (i = 8) || c.ivsrc && decide (i = 9) ||
      decide (16 ≤ i) && decide (i < 32) && c.bs.testBit (i - 16) ||
      decide (24 ≤ i) && decide (i < 32) && c.ks.testBit (i - 24)) := by
  simp only [CipherSpec.word, BitVec.getLsbD_or, fieldAt_getLsbD, bitAt_getLsbD _ 7 _ (by decide : 7 < 32),
    bitAt_getLsbD _ 8 _ (by decide : 8 < 32), bitAt_getLsbD _ 9 _ (by decide : 9 < 32)]

/-- Settles O44: each field is the value of `CFG` at its bits, where every other field has only zeros. -/
theorem cfgFieldsAtTheirBits : Obligations.CfgFieldsAtTheirBits := by
  unfold Obligations.CfgFieldsAtTheirBits
  refine ⟨fun s hs => by simp [State.readReg, Session.cfgWord, hs, Session.cfg?], fun s c hc => ?_⟩
  have hword : s.readReg .cfg = c.word := by simp only [State.readReg, Session.cfgWord, hc]
  have htag : ∀ i, 3 ≤ i → (tagNum c.cipher).testBit i = false :=
    fun i hi => testBit_eq_false_of_lt (tagNum_lt c.cipher) hi
  have hbs : ∀ i, 8 ≤ i → c.bs.testBit i = false :=
    fun i hi => testBit_eq_false_of_lt (lt_of_le_of_lt c.bs_le (by decide)) hi
  rw [hword]
  have hcipher : (c.word.extractLsb' 4 3).toNat = tagNum c.cipher := by
    refine toNat_extractLsb'_of_testBit (tagNum_lt _) fun i hi => ?_
    rw [c.word_getLsbD]
    interval_cases i <;> simp
  refine ⟨extractLsb'_eq_zero fun i hi => ?_, by rw [hcipher, tagOf_tagNum_eq], ?_, ?_, ?_, extractLsb'_eq_zero fun i hi => ?_,
    toNat_extractLsb'_of_testBit (lt_of_le_of_lt c.bs_le (by decide)) fun i hi => ?_,
    toNat_extractLsb'_of_testBit (lt_of_le_of_lt c.ks_le (by decide)) fun i hi => ?_⟩
  · rw [c.word_getLsbD]
    interval_cases i <;> simp
  · rw [c.word_getLsbD, ← Mode.bit_eq_true]
    simp [htag]
  · rw [c.word_getLsbD, ← Dir.bit_eq_true]
    simp [htag]
  · rw [c.word_getLsbD]
    simp [htag]
  · rw [c.word_getLsbD]
    interval_cases i <;> simp [htag]
  · rw [c.word_getLsbD]
    interval_cases i <;> simp [htag, CipherSpec.bs]
  · rw [c.word_getLsbD]
    interval_cases i <;> simp [htag, hbs, CipherSpec.ks]

/-! ### The frozen state of a command in flight -/

/-- The completion step leaves a command in flight only by not being enabled (R108). -/
theorem sequencerTurn_busy {s t : State} (ht : sequencerTurn exec s = .next t) (hb : t.busy = true) : t = s := by
  cases hf : s.inFlight with
  | true =>
    obtain ⟨u, hu, hidle, -⟩ := sequencerTurn_completes hf
    cases hu.symm.trans ht
    cases hidle.symm.trans hb
  | false =>
    rw [sequencerTurn, hf] at ht
    cases ht
    rfl

/-- An event that leaves the command in flight changes the fields a bus access or a micro-step can change (R15, R46). -/
theorem eventStep_busy {s t : State} {e : Event} (hs : s.busy = true) (ht : eventStep Config.PRIM exec e s = .next t)
    (hb : t.busy = true) :
    t = { s with
      done := t.done, ovr := t.ovr, doneIe := t.doneIe, ovrIe := t.ovrIe, seq := t.seq, staged := t.staged,
      reply := t.reply, agenda := t.agenda } := by
  cases e with
  | host a =>
    cases ht
    rw [s.hostAccess_busy a hs]
  | sequencer =>
    cases ht
    cases hf : s.inFlight with
    | true =>
      simp only [hf, if_true] at hb ⊢
      rw [microStep_busy Config.PRIM s hb]
    | false => simp
  | complete => rw [sequencerTurn_busy ht hb]
  | reset b =>
    cases ht
    cases hb
  | primitiveSilent =>
    simp only [eventStep] at ht
    split at ht
    · cases ht
    · cases ht
      rfl

/-- No place but `STATUS` and `IE` shows those fields (R41). -/
theorem State.readPlace_frozen (s : State) (d o di oi : Bool) (q : SeqState) (st : Staged) (r : Option Reply) (l : List Event)
    {p : Place} (off : Nat) (hstatus : p ≠ .reg .status) (hie : p ≠ .reg .ie) :
    State.readPlace { s with done := d, ovr := o, doneIe := di, ovrIe := oi, seq := q, staged := st, reply := r, agenda := l } p off =
      s.readPlace p off := by
  cases p with
  | arr a => rfl
  | reg x =>
    cases x with
    | status => exact absurd rfl hstatus
    | ie => exact absurd rfl hie
    | cmd | err | cfg | keylen | outlen | blkcnt | padval | id => rfl

/-- Settles O49, by the cases of the step's event. -/
theorem busyStateIsFrozen : Obligations.BusyStateIsFrozen := by
  unfold Obligations.BusyStateIsFrozen
  intro s t hs ht hb
  have hfrozen : t = { s with
      done := t.done, ovr := t.ovr, doneIe := t.doneIe, ovrIe := t.ovrIe, seq := t.seq, staged := t.staged,
      reply := t.reply, agenda := t.agenda } := by
    unfold step advance at ht
    split at ht
    · rw [sequencerTurn_busy ht hb]
    · rename_i e rest _
      exact eventStep_busy (s := { s with agenda := rest }) hs ht hb
  refine ⟨hfrozen, fun p off hstatus hie => ?_⟩
  rw [hfrozen]
  exact s.readPlace_frozen _ _ _ _ _ _ _ _ off hstatus hie

/-! ### The secrets -/

/-- A taken register write reads no secret and changes none. -/
theorem State.writeReg_secrets (s : State) (k : Vector Byte 32) (b : Vector Byte 16) (m : Memory) (x : Reg) (w : Word) :
    State.writeReg { s with skey := k, pbuf := b, mem := m } x w = { s.writeReg x w with skey := k, pbuf := b, mem := m } := by
  cases x with
  | cmd | keylen =>
    simp only [State.writeReg]
    split <;> rfl
  | status | err | ie | cfg | outlen | blkcnt | padval | id => rfl

theorem State.writeReg_mem (s : State) (x : Reg) (w : Word) : (s.writeReg x w).mem = s.mem := by
  cases x with
  | cmd | keylen =>
    simp only [State.writeReg]
    split <;> rfl
  | status | err | ie | cfg | outlen | blkcnt | padval | id => rfl

theorem SameButSecrets.exists_eq {s t : State} (h : SameButSecrets s t) :
    ∃ k b m, t = { s with skey := k, pbuf := b, mem := m } ∧
      ∀ o, ¬ Arr.keystage.holds o → Memory.read m o = Memory.read s.mem o :=
  ⟨t.skey, t.pbuf, t.mem, h.fields, h.bytes⟩

theorem SameButSecrets.setReply {s t : State} (h : SameButSecrets s t) (r : Option Reply) :
    SameButSecrets { s with reply := r } { t with reply := r } := by
  obtain ⟨k, b, m, rfl, hm⟩ := h.exists_eq
  exact ⟨rfl, hm⟩

theorem SameButSecrets.irq_eq {s t : State} (h : SameButSecrets s t) : t.irq = s.irq := by
  obtain ⟨k, b, m, rfl, -⟩ := h.exists_eq
  rfl

theorem SameButSecrets.takenAt_eq {s t : State} (h : SameButSecrets s t) (a : Access) (off : Nat) :
    t.takenAt a off = s.takenAt a off := by
  obtain ⟨k, b, m, rfl, -⟩ := h.exists_eq
  rfl

/-- A taken read shows no secret: `KEYSTAGE` reads 0, and an aligned word of another array has no byte of it (R24, R41). -/
theorem SameButSecrets.readPlace_eq {s t : State} (h : SameButSecrets s t) {p : Place} {off : Nat} (hoff : off % 4 = 0)
    (hp : placeOf off = some p) : t.readPlace p off = s.readPlace p off := by
  obtain ⟨k, b, m, rfl, hm⟩ := h.exists_eq
  cases p with
  | reg x => cases x <;> rfl
  | arr x =>
    cases x with
    | keystage => rfl
    | ivstage | cv | din | dout =>
      refine packWord_congr fun j hj => hm _ fun hks => ?_
      cases Arr.disjoint _ _ _ hks (Arr.holds_word (holds_of_placeOf_arr hp) hoff (Nat.le_add_right off j) (by omega))

theorem SameButSecrets.writeReg {s t : State} (h : SameButSecrets s t) (x : Reg) (w : Word) :
    SameButSecrets (s.writeReg x w) (t.writeReg x w) := by
  obtain ⟨k, b, m, rfl, hm⟩ := h.exists_eq
  rw [s.writeReg_secrets k b m]
  exact ⟨rfl, by rwa [State.writeReg_mem]⟩

theorem SameButSecrets.writeArr {s t : State} (h : SameButSecrets s t) (x : Arr) (off : Nat) (w : Word) :
    SameButSecrets (s.writeArr x off w) (t.writeArr x off w) := by
  obtain ⟨k, b, m, rfl, hm⟩ := h.exists_eq
  cases x with
  | cv | dout => exact h
  | keystage | ivstage | din =>
    simp only [State.writeArr]
    split
    · exact ⟨rfl, hm⟩
    · refine ⟨rfl, fun o ho => ?_⟩
      simp only [Memory.read_writeBytes, hm o ho]

theorem SameButSecrets.writePlace {s t : State} (h : SameButSecrets s t) (p : Place) (off : Nat) (w : Word) :
    SameButSecrets (s.writePlace p off w) (t.writePlace p off w) := by
  cases p with
  | reg x => exact h.writeReg x w
  | arr x => exact h.writeArr x off w

theorem SameButSecrets.busAccess {s t : State} (h : SameButSecrets s t) (a : Access) (off : Nat) :
    (t.busAccess a off).reply = (s.busAccess a off).reply ∧ SameButSecrets (s.busAccess a off) (t.busAccess a off) := by
  simp only [State.busAccess, h.takenAt_eq]
  rcases hp : s.takenAt a off with - | p
  · exact ⟨rfl, h.setReply _⟩
  · obtain ⟨-, -, -, hoff, hplace⟩ := State.takenAt_eq_some.mp hp
    rcases a.kind with - | w
    · dsimp only
      rw [h.readPlace_eq hoff hplace]
      exact ⟨rfl, h.setReply _⟩
    · exact ⟨rfl, (h.writePlace p off w).setReply _⟩

theorem SameButSecrets.hostAccess {s t : State} (h : SameButSecrets s t) (a : Access) :
    (t.hostAccess a).reply = (s.hostAccess a).reply ∧ SameButSecrets (s.hostAccess a) (t.hostAccess a) := by
  unfold State.hostAccess
  rcases offsetOf a.addr with - | off
  · exact ⟨rfl, h.setReply none⟩
  · exact h.busAccess a off

/-- Settles O50: the same place is taken in both states, its read shows no secret, and `irq` is no function of one. -/
theorem secretsNeverReachTheBus : Obligations.SecretsNeverReachTheBus := by
  unfold Obligations.SecretsNeverReachTheBus
  intro s t a h
  obtain ⟨hreply, hsame⟩ := h.hostAccess a
  exact ⟨hreply, hsame.irq_eq, hsame⟩

end Sys2Proof.Machine
end

section
/-! PROOFS of the memory family (20_memory.md). The map's rows are disjoint and leave no gap, so the row of an offset decides its
place (O40). What an access does is read off its rule: a bus error, a read or a write (O41, O42, O45 to O48). -/

namespace Sys2Proof.Machine

/-! ### The map -/

/-- Rows that follow each other without a gap hold every offset from the first to the last. -/
theorem exists_row_of_isChain {off : Nat} : ∀ {r : MapRow} {l : List MapRow},
    List.IsChain (fun r r' => r'.lo = r.hi + 1) (r :: l) → r.lo ≤ off → off ≤ ((r :: l).getLast (List.cons_ne_nil r l)).hi →
      ∃ r' ∈ r :: l, r'.lo ≤ off ∧ off ≤ r'.hi
  | r, [], _, hlo, hhi => ⟨r, List.mem_singleton_self r, hlo, hhi⟩
  | r, r₁ :: l, hchain, hlo, hhi => by
    obtain ⟨hnext, hrest⟩ := List.isChain_cons_cons.mp hchain
    by_cases h : off ≤ r.hi
    · exact ⟨r, List.mem_cons_self, hlo, h⟩
    · obtain ⟨r', hmem, hr'⟩ := exists_row_of_isChain hrest (by omega) hhi
      exact ⟨r', List.mem_cons_of_mem r hmem, hr'⟩

theorem windowMap_isChain : windowMap.IsChain (fun r r' => r'.lo = r.hi + 1) := by decide

theorem windowMap_disjoint : ∀ r ∈ windowMap, ∀ r' ∈ windowMap, r' ≠ r → r.hi < r'.lo ∨ r'.hi < r.lo := by decide

theorem windowMap_place_injective :
    ∀ r ∈ windowMap, ∀ r' ∈ windowMap, r.place ≠ none → r'.place = r.place → r' = r := by decide

theorem windowMap_row_unique {r r' : MapRow} {off : Nat} (hr : r ∈ windowMap) (hoff : r.lo ≤ off ∧ off ≤ r.hi)
    (hr' : r' ∈ windowMap) (hoff' : r'.lo ≤ off ∧ off ≤ r'.hi) : r' = r := by
  by_contra hne
  have := windowMap_disjoint r hr r' hr' hne
  omega

@[simp] theorem MapRow.holds_eq_true {r : MapRow} {off : Nat} : r.holds off = true ↔ r.lo ≤ off ∧ off ≤ r.hi :=
  decide_eq_true_iff

/-- The row found for an offset is the row that holds it. -/
theorem find?_windowMap_eq_some_iff {r : MapRow} {off : Nat} :
    windowMap.find? (fun r => r.holds off) = some r ↔ r ∈ windowMap ∧ r.lo ≤ off ∧ off ≤ r.hi := by
  have found : ∀ {r₀ : MapRow}, windowMap.find? (fun r => r.holds off) = some r₀ →
      r₀ ∈ windowMap ∧ r₀.lo ≤ off ∧ off ≤ r₀.hi := fun {r₀} h =>
    ⟨List.mem_of_find?_eq_some h, by simpa using List.find?_some h⟩
  refine ⟨found, fun ⟨hr, hoff⟩ => ?_⟩
  have hsome : (windowMap.find? (fun r => r.holds off)).isSome := List.find?_isSome.mpr ⟨r, hr, by simpa using hoff⟩
  obtain ⟨r₀, h₀⟩ := Option.isSome_iff_exists.mp hsome
  obtain ⟨hr₀, hoff₀⟩ := found h₀
  rwa [windowMap_row_unique hr hoff hr₀ hoff₀] at h₀

theorem placeOf_eq_place {r : MapRow} {off : Nat} (hr : r ∈ windowMap) (hoff : r.lo ≤ off ∧ off ≤ r.hi) :
    placeOf off = r.place := by
  rw [placeOf, find?_windowMap_eq_some_iff.mpr ⟨hr, hoff⟩]

/-- A place has one row, and stands at the offsets of that row (R36). -/
theorem placeOf_eq_some_iff {r : MapRow} {p : Place} {off : Nat} (hr : r ∈ windowMap) (hp : r.place = some p) :
    placeOf off = some p ↔ r.lo ≤ off ∧ off ≤ r.hi := by
  refine ⟨fun h => ?_, fun h => (placeOf_eq_place hr h).trans hp⟩
  unfold placeOf at h
  split at h
  · rename_i r₀ h₀
    obtain ⟨hr₀, hoff₀⟩ := find?_windowMap_eq_some_iff.mp h₀
    rwa [← windowMap_place_injective r hr r₀ hr₀ (by simp [hp]) (h.trans hp.symm)]
  · cases h

theorem Reg.row_mem_windowMap (x : Reg) : ⟨x.offset, x.offset + 3, some (.reg x)⟩ ∈ windowMap := by
  cases x <;> decide

theorem Arr.row_mem_windowMap (x : Arr) : ⟨x.base, x.base + (x.size - 1), some (.arr x)⟩ ∈ windowMap := by
  cases x <;> decide

/-- Settles O40: the rows cover the window and are disjoint, and each place has its own row. -/
theorem everyOffsetHasOneRow : Obligations.EveryOffsetHasOneRow := by
  unfold Obligations.EveryOffsetHasOneRow
  refine ⟨fun off hoff => ?_, fun off x => ?_, fun off x => ?_⟩
  · obtain ⟨r, hr, hlo, hhi⟩ := exists_row_of_isChain windowMap_isChain (Nat.zero_le off) (Nat.le_of_lt_succ hoff)
    exact ⟨r, hr, hlo, hhi, placeOf_eq_place hr ⟨hlo, hhi⟩,
      fun r' hr' hlo' hhi' => windowMap_row_unique hr ⟨hlo, hhi⟩ hr' ⟨hlo', hhi'⟩⟩
  · rw [placeOf_eq_some_iff x.row_mem_windowMap rfl]
    dsimp only
    omega
  · rw [placeOf_eq_some_iff x.row_mem_windowMap rfl, Arr.holds]
    have hsize : 0 < x.size := by cases x <;> decide
    dsimp only
    omega

/-! ### The rule of an access -/

/-- Settles O41, by the three outcomes of an access and what each asks of it. -/
theorem accessNotTakenIsABusError : Obligations.AccessNotTakenIsABusError := by
  unfold Obligations.AccessNotTakenIsABusError
  intro s a off hrst
  split
  · rename_i h
    obtain ⟨hsize, halign, hlanes, hmapped⟩ := h
    obtain ⟨p, hp⟩ := Option.ne_none_iff_exists'.mp hmapped
    have htaken : s.takenAt a off = some p := State.takenAt_eq_some.mpr ⟨hrst, hsize, hlanes, halign, hp⟩
    rcases s.busAccess_cases a off with ⟨hnone, -⟩ | ⟨p', -, -, h⟩ | ⟨p', w, -, -, h⟩
    · cases htaken.symm.trans hnone
    · exact ⟨_, by rw [h]⟩
    · exact ⟨_, by rw [h]⟩
  · rename_i h
    have hnot : ∀ p, s.takenAt a off ≠ some p := fun p hp => by
      obtain ⟨-, hsize, hlanes, halign, hplace⟩ := State.takenAt_eq_some.mp hp
      exact h ⟨hsize, halign, hlanes, by simp [hplace]⟩
    rcases s.busAccess_cases a off with ⟨-, h⟩ | ⟨p, hp, -, -⟩ | ⟨p, w, hp, -, -⟩
    · exact h
    · exact absurd hp (hnot p)
    · exact absurd hp (hnot p)

theorem State.busAccess_read {s : State} {a : Access} {off : Nat} {p : Place} (hk : a.kind = .read)
    (hp : s.takenAt a off = some p) : s.busAccess a off = { s with reply := some ⟨false, s.readPlace p off⟩ } := by
  simp only [State.busAccess, hp, hk]

theorem State.busAccess_write {s : State} {a : Access} {off : Nat} {p : Place} {w : Word} (hk : a.kind = .write w)
    (hp : s.takenAt a off = some p) : s.busAccess a off = { s.writePlace p off w with reply := some ⟨false, 0⟩ } := by
  simp only [State.busAccess, hp, hk]

/-! ### Reads -/

theorem State.errf_eq_decide (s : State) : s.errf = decide (errCode s.err ≠ 0) := by
  rw [Bool.eq_iff_iff, State.errf, bne_iff_ne, decide_eq_true_iff]

theorem State.toNat_readReg_err (s : State) : (s.readReg .err).toNat = errCode s.err := by
  have hlt := errCode_lt s.err
  rw [State.readReg, fieldAt, BitVec.shiftLeft_zero, BitVec.toNat_ofNat, Nat.mod_eq_of_lt (by omega)]

theorem State.toNat_readReg_padval (s : State) : (s.readReg .padval).toNat = s.padval.toNat := by
  have hlt := s.padval.isLt
  rw [State.readReg, BitVec.toNat_setWidth, Nat.mod_eq_of_lt (by omega)]

/-- Settles O42: the data is what the place reads as, register by register and array by array. -/
theorem readReturnsItsPlaceAndChangesNothing : Obligations.ReadReturnsItsPlaceAndChangesNothing := by
  unfold Obligations.ReadReturnsItsPlaceAndChangesNothing
  intro s a off p hk hp
  refine ⟨s.readPlace p off, State.busAccess_read hk hp, ?_⟩
  cases p with
  | reg x =>
    cases x with
    | status =>
      rw [← s.errf_eq_decide]
      rfl
    | err => exact s.toNat_readReg_err
    | padval => exact s.toNat_readReg_padval
    | cmd | ie | cfg | keylen | outlen | blkcnt | id => rfl
  | arr x =>
    cases x with
    | keystage => rfl
    | ivstage | cv | din | dout => exact fun j hj => packWord_byte s.mem off j hj

/-! ### Writes -/

/-- A write to a place that waits for `BUSY = 0` is dropped while `BUSY = 1` (R43). -/
theorem State.writePlace_of_busy {s : State} (hb : s.busy = true) {p : Place}
    (hp : p ∈ [Place.reg .cmd, .reg .keylen, .arr .keystage, .arr .ivstage, .arr .din]) (off : Nat) (w : Word) :
    s.writePlace p off w = s.dropWrite := by
  simp only [List.mem_cons, List.not_mem_nil, or_false] at hp
  rcases hp with rfl | rfl | rfl | rfl | rfl <;> exact if_pos hb

/-- Settles O46: the write is dropped. -/
theorem droppedWriteOnlySetsOverrun : Obligations.DroppedWriteOnlySetsOverrun := by
  unfold Obligations.DroppedWriteOnlySetsOverrun
  intro s a off p w hk htaken hb hp
  rw [State.busAccess_write hk htaken, State.writePlace_of_busy hb hp]
  rfl

/-- A write to `KEYLEN` while `BUSY = 0` stores the word (R42). -/
theorem State.writePlace_keylen {s : State} (hb : s.busy = false) (off : Nat) (w : Word) :
    s.writePlace (.reg .keylen) off w = { s with keylen := w } := if_neg (by simp [hb])

/-- A write to a staging array while `BUSY = 0` stores the word's bytes (R42). -/
theorem State.writePlace_staging {s : State} (hb : s.busy = false) {x : Arr} (hx : x ∈ [Arr.keystage, .ivstage, .din])
    (off : Nat) (w : Word) :
    s.writePlace (.arr x) off w = { s with mem := Memory.writeBytes s.mem off (wordBytes w) } := by
  have hb' : ¬ s.busy = true := by simp [hb]
  simp only [List.mem_cons, List.not_mem_nil, or_false] at hx
  rcases hx with rfl | rfl | rfl <;> exact if_neg hb'

theorem Memory.read_writeBytes_wordBytes_of_lt (m : Memory) (off : Nat) (w : Word) {j : Nat} (hj : j < 4) :
    Memory.read (Memory.writeBytes m off (wordBytes w)) (off + j) = w.extractLsb' (8 * j) 8 := by
  rw [Memory.read_writeBytes, length_wordBytes, if_pos (by omega), Nat.add_sub_cancel_left, wordBytes_getD w j hj]

theorem Memory.read_writeBytes_wordBytes_of_not (m : Memory) {off o : Nat} (w : Word) (ho : ¬ (off ≤ o ∧ o < off + 4)) :
    Memory.read (Memory.writeBytes m off (wordBytes w)) o = Memory.read m o := by
  rw [Memory.read_writeBytes, length_wordBytes, if_neg ho]

/-- Settles O45, by the region of the place. -/
theorem takenWriteByRegion : Obligations.TakenWriteByRegion := by
  unfold Obligations.TakenWriteByRegion
  intro s a off p w hk hp
  rw [State.busAccess_write hk hp]
  cases p with
  | reg x =>
    cases x with
    | cmd | keylen =>
      dsimp only [State.writePlace, State.writeReg]
      split <;> rfl
    | status =>
      simp [State.writePlace, State.writeReg, Bool.and_comm]
    | ie | err | cfg | outlen | blkcnt | padval | id => rfl
  | arr x =>
    cases x with
    | cv | dout => rfl
    | keystage | ivstage | din =>
      dsimp only
      split
      · rename_i hb
        rw [State.writePlace_of_busy hb (by simp)]
        rfl
      · rename_i hb
        rw [State.writePlace_staging (by simpa using hb) (by simp)]
        exact ⟨rfl, fun j hj => Memory.read_writeBytes_wordBytes_of_lt s.mem off w hj,
          fun o ho => Memory.read_writeBytes_wordBytes_of_not s.mem w ho⟩

/-! ### Repeated writes -/

theorem Memory.writeBytes_writeBytes {m : Memory} (h : Memory.wf m = true) (a : Nat) (l : List Byte) :
    Memory.writeBytes (Memory.writeBytes m a l) a l = Memory.writeBytes m a l := by
  have hwf := Memory.writeBytes_wf m a l h
  refine Memory.ext_of_wf _ _ (Memory.writeBytes_wf _ a l hwf) hwf fun o => ?_
  simp only [Memory.read_writeBytes]
  split <;> rfl

/-- No taken write depends on the recorded reply (log 6). -/
theorem State.writePlace_setReply (s : State) (r : Option Reply) (p : Place) (off : Nat) (w : Word) :
    State.writePlace { s with reply := r } p off w = { s.writePlace p off w with reply := r } := by
  cases p with
  | reg x =>
    cases x with
    | cmd | keylen =>
      dsimp only [State.writePlace, State.writeReg]
      split <;> rfl
    | status | err | ie | cfg | outlen | blkcnt | padval | id => rfl
  | arr x =>
    cases x with
    | cv | dout => rfl
    | keystage | ivstage | din =>
      dsimp only [State.writePlace, State.writeArr]
      split <;> rfl

theorem State.writePlace_rst (s : State) (p : Place) (off : Nat) (w : Word) : (s.writePlace p off w).rst = s.rst := by
  rcases s.writePlace_cases p off w with e | ⟨-, e⟩ | ⟨-, -, e⟩ | ⟨-, e⟩ | ⟨-, e⟩ | ⟨-, -, e⟩ | ⟨-, -, e⟩ <;> simp [e]

/-- A repeated write to `IE`, `KEYLEN` or a staging array stores what is there, or is dropped again (R44). -/
theorem State.writePlace_writePlace {s : State} (hwf : Memory.wf s.mem = true) {p : Place}
    (hp : p ∈ [Place.reg .keylen, .reg .ie, .arr .keystage, .arr .ivstage, .arr .din]) (off : Nat) (w : Word) :
    (s.writePlace p off w).writePlace p off w = s.writePlace p off w := by
  by_cases hie : p = .reg .ie
  · rw [hie]
    rfl
  cases hb : s.busy with
  | true =>
    have hdrop : p ∈ [Place.reg .cmd, .reg .keylen, .arr .keystage, .arr .ivstage, .arr .din] := by
      simp only [List.mem_cons, hie, false_or] at hp ⊢
      exact .inr hp
    rw [State.writePlace_of_busy hb hdrop, State.writePlace_of_busy (s := s.dropWrite) hb hdrop]
    rfl
  | false =>
    cases p with
    | reg x =>
      obtain rfl : x = .keylen := by simpa [show x ≠ .ie from fun h => hie (h ▸ rfl)] using hp
      rw [State.writePlace_keylen hb, State.writePlace_keylen (by exact hb)]
    | arr x =>
      have hx : x ∈ [Arr.keystage, .ivstage, .din] := by simpa using hp
      rw [State.writePlace_staging hb hx, State.writePlace_staging (by exact hb) hx, Memory.writeBytes_writeBytes hwf]

/-- Settles O47: the second access is taken at the same place, and its write stores what is there. -/
theorem stagingWritesAreIdempotent : Obligations.StagingWritesAreIdempotent := by
  unfold Obligations.StagingWritesAreIdempotent
  intro s a off p w hwf hk htaken hp
  have htaken' : (s.busAccess a off).takenAt a off = some p := by
    rw [← htaken, State.busAccess_write hk htaken]
    simp only [State.takenAt, State.writePlace_rst]
  rw [State.busAccess_write hk htaken', State.busAccess_write hk htaken, State.writePlace_setReply,
    State.writePlace_writePlace hwf hp]

/-! ### The window -/

theorem offsetOf_base_add {off : Nat} (h : off < 4096) : offsetOf (Config.BASE + off) = some off := by
  rw [offsetOf, if_pos ⟨Nat.le_add_right _ _, Nat.add_lt_add_left h _⟩, Nat.add_sub_cancel_left]

/-- Settles O48: the window's addresses are those with an offset. -/
theorem windowStandsAtBase : Obligations.WindowStandsAtBase := by
  unfold Obligations.WindowStandsAtBase
  refine ⟨Nat.mul_mod_right 4096 Config.basePage, fun s a off hoff ha => ?_, fun s a ha => ?_⟩
  · rw [State.hostAccess, ha, offsetOf_base_add hoff]
  · have hnone : offsetOf a.addr = none := if_neg ha
    rw [State.hostAccess, hnone]

end Sys2Proof.Machine
end

section
/-! PROOFS of the encoding family (30_encoding.md). Decoding inverts encoding on the well-formed commands (O1, O2), from which the
rows and the fields follow (O3, O4, O5). A row matches a word by its opcode and its reserved bits (O6). The host's
pseudo-instructions run write by write (O51, O52). -/

namespace Sys2Proof

/-! ### Encoding and decoding are inverse -/

/-- Every well-formed command's word matches the command's row (R55). -/
theorem rowOf_matches_encode {i : Instr} (h : i.wf = true) : (rowOf i).matches (encode i) = true := by
  cases i with
  | nop => exact Laws.EncodeMatchesRow.nop h
  | init cipher mode dir ivsrc => exact Laws.EncodeMatchesRow.init cipher mode dir ivsrc h
  | update len final => exact Laws.EncodeMatchesRow.update len final h
  | close => exact Laws.EncodeMatchesRow.close h

theorem decodeWord_encode {i : Instr} (h : i.wf = true) : decodeWord (encode i) = .ok i := by
  have hrow := rowOf_matches_encode h
  obtain ⟨hnop, hinit, hupdate, hclose⟩ := decodeWord_of_matches (encode i)
  cases i with
  | nop => exact hnop hrow
  | init cipher mode dir ivsrc =>
    obtain ⟨hc, hm, hd, hv⟩ := fields_encode_init cipher mode dir ivsrc (by simpa [Instr.wf] using h)
    rw [hinit hrow, hc, hm, hd, hv]
  | update len final =>
    obtain ⟨hl, hf⟩ := fields_encode_update len final (by simpa [Instr.wf] using h)
    rw [hupdate hrow, hl, hf]
  | close => exact hclose hrow

/-- What a word decodes to is a well-formed command, and the word is its encoding (R53, R56). -/
theorem wf_and_encode_of_decodeWord {w : Word} {i : Instr} (h : decodeWord w = .ok i) : i.wf = true ∧ encode i = w := by
  rcases decodeWord_cases w with ⟨hm, hd⟩ | ⟨hm, hd⟩ | ⟨hm, hd⟩ | ⟨hm, hd⟩ | ⟨-, -, -, -, hd⟩ <;> cases hd.symm.trans h
  · exact ⟨rfl, ((rowNop_matches w).mp ((Row.matches_iff _ _).mp hm)).symm⟩
  · exact ⟨decide_eq_true (cipherField_lt w), ((rowInit_matches w).mp ((Row.matches_iff _ _).mp hm)).symm⟩
  · exact ⟨decide_eq_true (lenField_lt w), ((rowUpdate_matches w).mp ((Row.matches_iff _ _).mp hm)).symm⟩
  · exact ⟨rfl, ((rowClose_matches w).mp ((Row.matches_iff _ _).mp hm)).symm⟩

/-- Settles O1, by the row of the command and the fields of its word. -/
theorem decodeOfEncodeIsTheCommand : Obligations.DecodeOfEncodeIsTheCommand := by
  unfold Obligations.DecodeOfEncodeIsTheCommand
  exact fun i h => decodeWord_encode h

/-- Settles O2, by the row the word matches. -/
theorem encodeOfDecodeIsTheWord : Obligations.EncodeOfDecodeIsTheWord := by
  unfold Obligations.EncodeOfDecodeIsTheWord
  exact fun w i h => wf_and_encode_of_decodeWord h

/-! ### The rows and the fields of a word -/

/-- A word decodes to a command of a row exactly when the row matches it (R55). -/
theorem exists_decodeWord_rowOf_iff {r : Row} (hr : r ∈ opcodeMap) (w : Word) :
    (∃ i, decodeWord w = .ok i ∧ rowOf i = r) ↔ r.matches w = true := by
  constructor
  · rintro ⟨i, hd, rfl⟩
    obtain ⟨hwf, rfl⟩ := wf_and_encode_of_decodeWord hd
    exact rowOf_matches_encode hwf
  · intro hm
    obtain ⟨hnop, hinit, hupdate, hclose⟩ := decodeWord_of_matches w
    simp only [opcodeMap, List.mem_cons, List.not_mem_nil, or_false] at hr
    rcases hr with rfl | rfl | rfl | rfl
    · exact ⟨_, hnop hm, rfl⟩
    · exact ⟨_, hinit hm, rfl⟩
    · exact ⟨_, hupdate hm, rfl⟩
    · exact ⟨_, hclose hm, rfl⟩

/-- Settles O3, by the row of the decoded command and the disjointness of the rows. -/
theorem wordDecodesExactlyToItsRow : Obligations.WordDecodesExactlyToItsRow := by
  unfold Obligations.WordDecodesExactlyToItsRow
  refine ⟨rfl, fun w r hr => ⟨?_, fun r' hr' hm hm' => ?_⟩⟩
  · rw [exists_decodeWord_rowOf_iff hr, Row.matches_iff]
  · exact rows_disjoint r' r hr' hr w ((r'.matches_iff w).mpr hm') ((r.matches_iff w).mpr hm)

/-- Settles O4: the word is the encoding of the command, whose fields are its operands. -/
theorem operandsAreTheFieldsOfTheWord : Obligations.OperandsAreTheFieldsOfTheWord := by
  unfold Obligations.OperandsAreTheFieldsOfTheWord
  refine ⟨fun w c m d v h => ?_, fun w len f h => ?_⟩
  · obtain ⟨hwf, rfl⟩ := wf_and_encode_of_decodeWord h
    obtain ⟨hc, hm, hd, hv⟩ := fields_encode_init c m d v (by simpa [Instr.wf] using hwf)
    exact ⟨hc.symm, by rw [← modeField_bit, hm, Mode.bit_eq_true], by rw [← dirField_bit, hd, Dir.bit_eq_true], hv.symm⟩
  · obtain ⟨hwf, rfl⟩ := wf_and_encode_of_decodeWord h
    obtain ⟨hl, hf⟩ := fields_encode_update len f (by simpa [Instr.wf] using hwf)
    exact ⟨hl.symm, hf.symm⟩

/-- Settles O5: the encodings are computed, and each word then decodes to its command by O1. -/
theorem commonCommandEncodings : Obligations.CommonCommandEncodings := by
  unfold Obligations.CommonCommandEncodings
  intro x hx
  obtain ⟨hwf, he⟩ : x.1.wf = true ∧ encode x.1 = x.2 := by
    revert x
    decide
  exact ⟨he, he ▸ decodeWord_encode hwf⟩

/-! ### Illegal words -/

/-- A word is illegal exactly when no row of the opcode map matches it (R56, R57). -/
theorem exists_decodeWord_error_iff (w : Word) :
    (∃ e, decodeWord w = .error e) ↔ ∀ r ∈ opcodeMap, ¬ r.matches w = true := by
  constructor
  · rintro ⟨e, he⟩ r hr hm
    obtain ⟨i, hi, -⟩ := (exists_decodeWord_rowOf_iff hr w).mpr hm
    cases he.symm.trans hi
  · intro h
    rcases hd : decodeWord w with e | i
    · exact ⟨e, rfl⟩
    · obtain ⟨hwf, rfl⟩ := wf_and_encode_of_decodeWord hd
      exact absurd (rowOf_matches_encode hwf) (h (rowOf i) (by cases i <;> simp [rowOf, opcodeMap]))

/-- Two words are the same when their opcodes and their other bits are. -/
theorem eq_iff_opField {x y : Word} : x = y ↔ opField x = opField y ∧ x &&& 0xFFFFFFF0 = y &&& 0xFFFFFFF0 := by
  refine ⟨by rintro rfl; exact ⟨rfl, rfl⟩, fun ⟨hop, hhigh⟩ => BitVec.eq_of_getLsbD_eq fun i hi => ?_⟩
  by_cases h4 : i < 4
  · have hlow : x.extractLsb' 0 4 = y.extractLsb' 0 4 := BitVec.eq_of_toNat_eq hop
    simpa [h4] using congrArg (BitVec.getLsbD · i) hlow
  · have hbit : (0xFFFFFFF0#32).getLsbD i = true := by
      interval_cases i <;> rfl
    simpa [hbit] using congrArg (BitVec.getLsbD · i) hhigh

/-- A row matches a word exactly when the word has the row's opcode and none of the other bits the row's mask selects, which
are its reserved bits (R53, R55). -/
theorem Row.matches_iff_opField {r : Row} (hr : r ∈ opcodeMap) (w : Word) :
    r.matches w = true ↔ opField w = opField r.pattern ∧ w &&& (r.mask &&& 0xFFFFFFF0) = 0 := by
  have hmask : r.mask.extractLsb' 0 4 = BitVec.allOnes 4 := by
    revert r
    decide
  have hpattern : r.pattern &&& 0xFFFFFFF0 = 0 := by
    revert r
    decide
  have hop : opField (w &&& r.mask) = opField w := by
    rw [opField, BitVec.extractLsb'_and, hmask, BitVec.and_allOnes, opField]
  rw [Row.matches_iff, eq_iff_opField, hop, hpattern, BitVec.and_assoc]

/-- A word has no bit from bit `n` up exactly when shifting it right by `n` leaves nothing. -/
theorem and_allOnes_shiftLeft_eq_zero_iff (w : Word) (n : Nat) : w &&& (BitVec.allOnes 32 <<< n) = 0 ↔ w >>> n = 0 := by
  rw [← BitVec.shiftLeft_ushiftRight]
  refine ⟨fun h => BitVec.eq_of_getLsbD_eq fun i _ => ?_, fun h => by rw [h]; exact BitVec.zero_shiftLeft n⟩
  by_cases hi : n + i < 32
  · simpa [hi] using congrArg (BitVec.getLsbD · (n + i)) h
  · simpa using BitVec.getLsbD_of_ge w (n + i) (not_lt.mp hi)

/-- A row whose reserved bits are those from bit `n` up (R53). -/
theorem Row.matches_iff_ushiftRight {r : Row} (hr : r ∈ opcodeMap) {n : Nat}
    (hmask : r.mask &&& 0xFFFFFFF0 = BitVec.allOnes 32 <<< n) (w : Word) :
    r.matches w = true ↔ opField w = opField r.pattern ∧ w >>> n = 0 := by
  rw [Row.matches_iff_opField hr, hmask, and_allOnes_shiftLeft_eq_zero_iff]

/-- The illegal words by their opcode and reserved bits (R57). -/
theorem exists_decodeWord_error_iff_fields (w : Word) : (∃ e, decodeWord w = .error e) ↔
    4 ≤ opField w ∨ ((opField w = 0 ∨ opField w = 3) ∧ w >>> 4 ≠ 0) ∨ (opField w = 1 ∧ w >>> 10 ≠ 0) ∨
      (opField w = 2 ∧ w &&& 0x0000FFE0 ≠ 0) := by
  have hnop : rowNop.matches w = true ↔ opField w = 0 ∧ w >>> 4 = 0 :=
    Row.matches_iff_ushiftRight (by decide) (by decide) w
  have hinit : rowInit.matches w = true ↔ opField w = 1 ∧ w >>> 10 = 0 :=
    Row.matches_iff_ushiftRight (by decide) (by decide) w
  have hupdate : rowUpdate.matches w = true ↔ opField w = 2 ∧ w &&& 0x0000FFE0 = 0 :=
    Row.matches_iff_opField (by decide) w
  have hclose : rowClose.matches w = true ↔ opField w = 3 ∧ w >>> 4 = 0 :=
    Row.matches_iff_ushiftRight (by decide) (by decide) w
  have hop : opField w = 0 ∨ opField w = 1 ∨ opField w = 2 ∨ opField w = 3 ∨ 4 ≤ opField w := by omega
  rw [exists_decodeWord_error_iff]
  simp only [opcodeMap, List.forall_mem_cons, hnop, hinit, hupdate, hclose]
  rcases hop with h | h | h | h | h
  · simp [h]
  · simp [h]
  · simp [h]
  · simp [h]
  · have hne : opField w ≠ 0 ∧ opField w ≠ 1 ∧ opField w ≠ 2 ∧ opField w ≠ 3 := by omega
    simp [h, hne]

end Sys2Proof

namespace Sys2Proof.Machine

/-! ### Completions -/

/-- The step of a completion event while a command is in flight (R108; log 1). -/
theorem step_complete {s : State} {rest : List Event} (hf : s.inFlight = true) (ha : s.agenda = .complete :: rest) :
    step s = completeWith exec { s with agenda := rest } := by
  have hf' : State.inFlight { s with agenda := rest } = true := hf
  simp only [step, advance, ha, eventStep, sequencerTurn, hf', if_true]

/-- With nothing on the agenda the step is that of the command in flight (R108; log 1). -/
theorem step_eq_exec_of_agenda_nil {s : State} {i : Instr} (hf : s.inFlight = true) (ha : s.agenda = [])
    (hd : decodeWord s.cmd = .ok i) : step s = exec i s := by
  simp only [step, advance, ha, sequencerTurn, hf, if_true, completeWith, hd]

/-- Settles O6, by the opcode and the reserved bits of each row; the completion is the rejection. -/
theorem illegalWordCompletesWithCodeSeven : Obligations.IllegalWordCompletesWithCodeSeven := by
  unfold Obligations.IllegalWordCompletesWithCodeSeven
  refine ⟨exists_decodeWord_error_iff_fields, fun s rest hf ha ⟨e, he⟩ => ?_⟩
  have hstep := step_complete hf ha
  rw [completeWith_exec, he] at hstep
  exact ⟨_, hstep, rfl, rfl⟩

/-! ### Writes on the agenda -/

theorem placeOf_eq_arr_iff (x : Arr) (off : Nat) : placeOf off = some (.arr x) ↔ x.holds off := by
  obtain ⟨-, -, harr⟩ := everyOffsetHasOneRow
  exact harr off x

theorem lt_of_placeOf_eq_some {off : Nat} {p : Place} (h : placeOf off = some p) : off < 4096 := by
  unfold placeOf at h
  split at h
  · rename_i r hr
    obtain ⟨hmem, -, hhi⟩ := find?_windowMap_eq_some_iff.mp hr
    have hrow : ∀ r ∈ windowMap, r.hi < 4096 := by decide
    exact lt_of_le_of_lt hhi (hrow r hmem)
  · cases h

/-- The step of a `WR` to a mapped word is the write of its place (R42, R59). -/
theorem step_wr {s : State} {off : Nat} {w : Word} {rest : List Event} {p : Place} (ha : s.agenda = wr off w :: rest)
    (hrst : s.rst = false) (halign : off % 4 = 0) (hp : placeOf off = some p) :
    step s = .next { State.writePlace { s with agenda := rest } p off w with reply := some ⟨false, 0⟩ } := by
  have htaken : State.takenAt { s with agenda := rest } ⟨Config.BASE + off, .word, 0xF, .write w⟩ off = some p :=
    State.takenAt_eq_some.mpr ⟨hrst, rfl, rfl, halign, hp⟩
  have hoff : offsetOf (Config.BASE + off) = some off := offsetOf_base_add (lt_of_placeOf_eq_some hp)
  simp only [step, advance, ha, wr, eventStep, State.hostAccess, hoff, State.busAccess_write rfl htaken]

/-! ### ISSUE -/

/-- A write to `CMD` while `BUSY = 0` is an acceptance (R107). -/
theorem State.writePlace_cmd {s : State} (hb : s.busy = false) (off : Nat) (w : Word) :
    s.writePlace (.reg .cmd) off w = s.accept w := if_neg (by simp [hb])

/-- The step of `ISSUE` while `BUSY = 0` is the acceptance of the command's word (R60, R107). -/
theorem step_issue {s : State} {i : Instr} (ha : s.agenda = issue i) (hb : s.busy = false) (hrst : s.rst = false) :
    step s = .next { s with
      cmd := encode i, busy := true, seq := .decode, staged := Staged.empty, reply := some ⟨false, 0⟩, agenda := [] } := by
  rw [step_wr ha hrst rfl (p := .reg .cmd) (by decide), State.writePlace_cmd (by exact hb)]
  rfl

/-- Settles O52: the first step is the acceptance, and the second decodes the word back to the command. -/
theorem issueThenCompletionRunsTheCommand : Obligations.IssueThenCompletionRunsTheCommand := by
  unfold Obligations.IssueThenCompletionRunsTheCommand
  intro s i hwf hb hrst
  rw [run_succ_of_step (step_issue (s := { s with agenda := issue i }) rfl hb hrst)]
  rw [exec_eq]
  refine run_succ_of_step (Eq.trans (step_eq_exec_of_agenda_nil ?_ rfl (decodeWord_encode hwf)) (exec_eq i _)) 0
  exact State.inFlight_eq_true.mpr ⟨rfl, hrst⟩

/-! ### LOADB -/

/-- A byte string with its last word filled with zeros, which is what `LOADB` stores (R60). -/
def wordFilled (l : List Byte) : List Byte := l ++ zeros ((l.length + 3) / 4 * 4 - l.length)

@[simp] theorem length_wordFilled (l : List Byte) : (wordFilled l).length = (l.length + 3) / 4 * 4 := by
  simp only [wordFilled, List.length_append, List.length_replicate]
  omega

@[simp] theorem take_wordFilled (l : List Byte) : (wordFilled l).take l.length = l := List.take_left

theorem wordFilled_getD_of_le {l : List Byte} {i : Nat} (h : l.length ≤ i) : (wordFilled l).getD i 0 = 0 := by
  rw [wordFilled, List.getD_append_right _ _ _ _ h, List.getD_eq_getElem?_getD, List.getElem?_getD_replicate_default_eq]

/-- The word of four bytes has these bytes, lowest first (R39, R60). -/
@[simp] theorem wordBytes_wordOfBytes (b0 b1 b2 b3 : Byte) : wordBytes (wordOfBytes b0 b1 b2 b3) = [b0, b1, b2, b3] := by
  have h1 : (b3 ++ b2 ++ b1 ++ b0).extractLsb' 8 8 = b1 := by
    rw [BitVec.extractLsb'_append_eq_of_le le_rfl]
    exact BitVec.extractLsb'_append_eq_right
  have h2 : (b3 ++ b2 ++ b1 ++ b0).extractLsb' 16 8 = b2 := by
    rw [BitVec.extractLsb'_append_eq_of_le (by decide), BitVec.extractLsb'_append_eq_of_le le_rfl]
    exact BitVec.extractLsb'_append_eq_right
  have h3 : (b3 ++ b2 ++ b1 ++ b0).extractLsb' 24 8 = b3 := by
    rw [BitVec.extractLsb'_append_eq_of_le (by decide), BitVec.extractLsb'_append_eq_of_le (by decide)]
    exact BitVec.extractLsb'_append_eq_left
  rw [wordBytes, wordOfBytes, h1, h2, h3, BitVec.extractLsb'_append_eq_right (a := b3 ++ b2 ++ b1)]

@[simp] theorem length_groupWords (l : List Byte) : (groupWords l).length = (l.length + 3) / 4 := by
  induction l using groupWords.induct with
  | case1 | case2 | case3 | case4 => simp [groupWords]
  | case5 b0 b1 b2 b3 rest ih =>
    simp only [groupWords, List.length_cons, ih]
    omega

/-- The bytes of the grouped words are the string with its last word filled (R60). -/
theorem flatMap_wordBytes_groupWords (l : List Byte) : (groupWords l).flatMap wordBytes = wordFilled l := by
  induction l using groupWords.induct with
  | case1 => rfl
  | case2 b0 => simp [groupWords, wordFilled, List.replicate_succ]
  | case3 b0 b1 => simp [groupWords, wordFilled, List.replicate_succ]
  | case4 b0 b1 b2 => simp [groupWords, wordFilled]
  | case5 b0 b1 b2 b3 rest ih =>
    have hfill : (rest.length + 4 + 3) / 4 * 4 - (rest.length + 4) = (rest.length + 3) / 4 * 4 - rest.length := by omega
    simp only [groupWords, List.flatMap_cons, wordBytes_wordOfBytes, ih, wordFilled, List.length_cons, hfill, List.cons_append,
      List.nil_append]

@[simp] theorem length_wrWords (off : Nat) (ws : List Word) : (wrWords off ws).length = ws.length := by
  induction ws generalizing off with
  | nil => rfl
  | cons w ws ih => simp only [wrWords, List.length_cons, ih]

theorem Memory.writeBytes_append (m : Memory) (a : Nat) (l l' : List Byte) :
    Memory.writeBytes m a (l ++ l') = Memory.writeBytes (Memory.writeBytes m a l) (a + l.length) l' := by
  induction l generalizing m a with
  | nil => rfl
  | cons b l ih => simp only [List.cons_append, Memory.writeBytes, ih, List.length_cons, Nat.add_assoc, Nat.add_comm 1]

/-- The writes of consecutive words inside a staging array, run as steps, store the words' bytes and change nothing else of the
SCSC (R42, R60). -/
theorem run_wrWords {x : Arr} (hx : x ∈ [Arr.keystage, .ivstage, .din]) {s : State} {off : Nat} {ws : List Word}
    (ha : s.agenda = wrWords off ws) (hb : s.busy = false) (hrst : s.rst = false) (halign : off % 4 = 0)
    (hlo : x.base ≤ off) (hhi : off + 4 * ws.length ≤ x.base + x.size) :
    ∃ r, Host.Core.run Sys2Proof.core ws.length s =
      .next { s with mem := Memory.writeBytes s.mem off (ws.flatMap wordBytes), reply := r, agenda := [] } := by
  induction ws generalizing s off with
  | nil =>
    rw [wrWords] at ha
    exact ⟨s.reply, by rw [← ha]; rfl⟩
  | cons w ws ih =>
    rw [List.length_cons] at hhi ⊢
    have hstep := step_wr ha hrst halign ((placeOf_eq_arr_iff x off).mpr ⟨hlo, by omega⟩)
    rw [State.writePlace_staging (by exact hb) hx] at hstep
    obtain ⟨r, hr⟩ := ih (s := { s with
      mem := Memory.writeBytes s.mem off (wordBytes w), reply := some ⟨false, 0⟩, agenda := wrWords (off + 4) ws }) rfl hb hrst
      (by omega) (by omega) (by omega)
    exact ⟨r, by rw [run_succ_of_step hstep, hr, List.flatMap_cons, Memory.writeBytes_append, length_wordBytes]⟩

/-- Settles O51: the writes store the string with its last word filled, which is read back byte by byte. -/
theorem loadbStoresTheBytes : Obligations.LoadbStoresTheBytes := by
  unfold Obligations.LoadbStoresTheBytes
  intro s x bytes hx hlen hb hrst
  have hbase4 : x.base % 4 = 0 := by cases x <;> rfl
  have hsize4 : x.size % 4 = 0 := by cases x <;> rfl
  obtain ⟨r, hr⟩ := run_wrWords hx (s := { s with agenda := loadb x bytes }) rfl hb hrst hbase4 le_rfl
    (by rw [length_groupWords]; omega)
  rw [flatMap_wordBytes_groupWords] at hr
  rw [loadb, length_wrWords]
  refine ⟨_, hr, rfl, ?_, fun o hlo hhi => ?_, fun o ho => ?_⟩
  · calc Memory.readBytes (Memory.writeBytes s.mem x.base (wordFilled bytes)) x.base bytes.length
        = (Memory.readBytes (Memory.writeBytes s.mem x.base (wordFilled bytes)) x.base (wordFilled bytes).length).take
            bytes.length := (Memory.readBytes_take _ _ _ _ (by rw [length_wordFilled]; omega)).symm
      _ = bytes := by rw [Memory.readBytes_writeBytes, take_wordFilled]
  · rw [Memory.read_writeBytes, length_wordFilled, if_pos (by omega), wordFilled_getD_of_le (by omega)]
  · rw [Memory.read_writeBytes, length_wordFilled, if_neg ho]

end Sys2Proof.Machine
end

section
/-! PROOFS of the session family (40_session.md). Each command's completion is one state: NOP's is the completion rule alone
(O12), a successful INIT's is its writes and then the scrub of KEYSTAGE (O13), CLOSE's clears four arrays, and clearing them twice
is clearing them once (O16). -/

namespace Sys2Proof.Machine

/-! ### NOP -/

theorem decodeWord_eq_nop_iff (w : Word) : decodeWord w = .ok .nop ↔ w = 0x00000000 := by
  constructor
  · intro h
    exact (wf_and_encode_of_decodeWord h).2.symm
  · rintro rfl
    exact decodeWord_encode (i := .nop) rfl

/-- Settles O12: the word 0 is NOP's encoding, and NOP's completion is the completion rule alone. -/
theorem nopOnlyCompletes : Obligations.NopOnlyCompletes := by
  unfold Obligations.NopOnlyCompletes
  exact ⟨decodeWord_eq_nop_iff, exec_eq .nop⟩

/-! ### INIT -/

theorem tagNum_of_tagOf {n : Nat} {c : Tag} (h : tagOf n = some c) : tagNum c = n := by
  unfold tagOf at h
  split at h <;> cases h <;> rfl

/-- An `INIT` whose checks pass makes its writes, completes without an error and scrubs `KEYSTAGE` (R63, R108). -/
theorem completeInit_of_initCheck_ok {P : Prim} {s : State} {cipher : Nat} {d : Dir} {c : Tag}
    (h : initCheck P s cipher d = .ok c) (m : Mode) (v : Bool) :
    completeInit P cipher m d v s = ((initWrites s c m d v).finish none).scrubKeystage := by
  rcases completeInit_cases P cipher m d v s with ⟨e, he, -⟩ | ⟨c', hc, ht⟩
  · cases h.symm.trans he
  · cases h.symm.trans hc
    exact ht

/-- The IV of a session: the staged one in CBC with `IVSRC`, else zeros (R64). -/
theorem State.stagedIv_effectiveIvsrc (s : State) (m : Mode) (v : Bool) (n : Nat) :
    s.stagedIv (effectiveIvsrc m v) n = if v = true ∧ m = .cbc then s.firstBytes .ivstage n else zeros n := by
  simp only [State.stagedIv, effectiveIvsrc, Bool.and_eq_true, Mode.bit_eq_true]

/-- Scrubbing `KEYSTAGE` leaves the bytes of the other arrays (R63). -/
theorem State.firstBytes_scrubKeystage_ne (s : State) {a : Arr} (ha : Arr.keystage ≠ a) {n : Nat} (hn : n ≤ a.size) :
    s.scrubKeystage.firstBytes a n = s.firstBytes a n :=
  State.firstBytes_clearArr_ne s .keystage a n ha hn

/-- A successful `INIT` changes bytes of `CV` and `KEYSTAGE` only (R63). -/
theorem read_initWrites_scrubKeystage (s : State) (c : Tag) (m : Mode) (d : Dir) (v : Bool) {o : Nat}
    (hcv : ¬ Arr.cv.holds o) (hks : ¬ Arr.keystage.holds o) :
    Memory.read ((initWrites s c m d v).finish none).scrubKeystage.mem o = Memory.read s.mem o := by
  rw [State.scrubKeystage_mem, State.read_clearArr_other _ _ _ hks, State.finish_mem, initWrites_mem,
    State.read_setArr_other _ _ _ _ hcv]

/-- Settles O13: the checks pass, so the outcome is the writes of `INIT` followed by the scrub of `KEYSTAGE`. -/
theorem initOpensTheSession : Obligations.InitOpensTheSession := by
  unfold Obligations.InitOpensTheSession
  intro P s cipher c mode dir ivsrc hidle htag hlen hkey
  have hrun : completion P (.init cipher mode dir ivsrc) s = ((initWrites s c mode dir ivsrc).finish none).scrubKeystage :=
    completeInit_of_initCheck_ok (initCheck_ok.mpr ⟨hidle, htag, hlen, hkey⟩) mode ivsrc
  have hexec : P = Config.PRIM → exec (.init cipher mode dir ivsrc) s =
      .next ((initWrites s c mode dir ivsrc).finish none).scrubKeystage := by
    rintro rfl
    exact exec_eq_next.mpr hrun.symm
  have hskey : (regOf 32 (s.stagedKey c)).toList = s.stagedKey c ++ zeros (32 - keySize c) := by
    rw [regOf_eq_append _ _ (by simp [keySize_le]), State.length_stagedKey]
  obtain ⟨-, -, hcmd, hovr, hdoneIe, hovrIe, hkeylen, hrst, hreply, hagenda⟩ :=
    hrun ▸ completion_frame P (.init cipher mode dir ivsrc) s
  refine ⟨_, execWith_eq_next.mpr hrun.symm, hexec, rfl, rfl, rfl, rfl, ?cfg, hskey, ?cv, rfl, rfl, rfl, rfl, ?keystage,
    rfl, hkeylen, hcmd, hovr, hdoneIe, hovrIe, hrst, hreply, hagenda, fun o => read_initWrites_scrubKeystage s c mode dir ivsrc⟩
  case cfg =>
    rw [← tagNum_of_tagOf htag]
    rfl
  case cv =>
    rw [State.firstBytes_scrubKeystage_ne _ (by decide) (by decide), State.firstBytes_finish, initWrites_cv,
      State.stagedIv_effectiveIvsrc]
  case keystage => exact State.firstBytes_clearArr _ .keystage 32 (by decide)

/-! ### CLOSE -/

theorem Memory.clear_comm (m : Memory) (lo n lo' n' : Nat) :
    Memory.clear (Memory.clear m lo n) lo' n' = Memory.clear (Memory.clear m lo' n') lo n := by
  simp only [Memory.clear, List.filter_filter, Bool.and_comm]

/-- Clearing an array twice is clearing it once, whatever is cleared in between. -/
theorem closeWrites_finish_mem_idem (s : State) : (closeWrites ((closeWrites s).finish none)).mem = (closeWrites s).mem := by
  simp only [closeWrites_mem, State.finish_mem, State.clearArr, Memory.clear_comm, Memory.clear_clear]

/-- A completed `CLOSE` is left as it is by another one (R65). -/
theorem closeWrites_finish_idem (s : State) :
    (closeWrites ((closeWrites s).finish none)).finish none = (closeWrites s).finish none := by
  ext1
  case mem => exact closeWrites_finish_mem_idem s
  all_goals simp

/-- `CLOSE` zeroes every array but `IVSTAGE`, which it keeps (R65). -/
theorem closeWrites_byte (s : State) (a : Arr) {i : Nat} (hi : i < a.size) :
    (closeWrites s).byte a i = if a = .ivstage then s.byte a i else 0 := by
  rw [State.byte_of_mem (closeWrites_mem s)]
  cases a <;> simp [State.byte_clearArr, State.byte_clearArr_ne, hi]

theorem closeWrites_firstBytes (s : State) {a : Arr} (ha : a ≠ .ivstage) {n : Nat} (hn : n ≤ a.size) :
    ((closeWrites s).finish none).firstBytes a n = zeros n := by
  rw [State.firstBytes_finish, State.firstBytes_eq_iff _ _ _ _ List.length_replicate]
  intro i hi
  rw [closeWrites_byte s a (hi.trans_le hn), if_neg ha, List.getD_replicate 0 hi]

theorem closeWrites_firstBytes_ivstage (s : State) {n : Nat} (hn : n ≤ Arr.ivstage.size) :
    ((closeWrites s).finish none).firstBytes .ivstage n = s.firstBytes .ivstage n :=
  State.firstBytes_congr _ _ _ _ fun _ hi => closeWrites_byte s .ivstage (hi.trans_le hn)

/-- `CLOSE` changes bytes of the four scrubbed arrays only (R65). -/
theorem read_closeWrites_mem (s : State) {o : Nat} (hcv : ¬ Arr.cv.holds o) (hks : ¬ Arr.keystage.holds o)
    (hdin : ¬ Arr.din.holds o) (hdout : ¬ Arr.dout.holds o) : Memory.read (closeWrites s).mem o = Memory.read s.mem o := by
  rw [closeWrites_mem, State.read_clearArr_other _ _ _ hdout, State.read_clearArr_other _ _ _ hdin,
    State.read_clearArr_other _ _ _ hks, State.read_clearArr_other _ _ _ hcv]

/-- Settles O16: the outcome is the writes of `CLOSE`, which a second `CLOSE` makes again. -/
theorem closeScrubsTheSession : Obligations.CloseScrubsTheSession := by
  unfold Obligations.CloseScrubsTheSession
  intro s
  have hsecond : exec .close ((closeWrites s).finish none) = .next ((closeWrites s).finish none) :=
    exec_eq_next.mpr (closeWrites_finish_idem s).symm
  obtain ⟨-, -, hcmd, hovr, hdoneIe, hovrIe, hkeylen, hrst, hreply, hagenda⟩ := completion_frame Config.PRIM .close s
  exact ⟨_, exec_eq .close s, hsecond, rfl, rfl, rfl, rfl, rfl, rfl, rfl, rfl, rfl, rfl, rfl, rfl,
    closeWrites_firstBytes s (by decide) (by decide), closeWrites_firstBytes s (by decide) (by decide),
    closeWrites_firstBytes s (by decide) (by decide), closeWrites_firstBytes s (by decide) (by decide), hkeylen,
    closeWrites_firstBytes_ivstage s (by decide), hcmd, hovr, hdoneIe, hovrIe, hrst, hreply, hagenda,
    fun o => read_closeWrites_mem s⟩

end Sys2Proof.Machine
end

section
/-! PROOFS of the update family (41_update.md). The loop over blocks is said mode by mode (O28 to O30), the staged result by the
three cases of its tail (O19), and an `UPDATE`'s outcome by the commit of that result (O18, O20 to O23, O27). A stream delivered
in chunks is one final `UPDATE` over all of it, so its outcome ignores the chunking (O37, O38) and the round trip is that of one
command (O39). -/

namespace Sys2Proof.Machine

/-! ### The loop over blocks, mode by mode -/

/-- The primitive call of the session's direction on one block (R72). -/
def dirBlock (P : Prim) (c : CipherSpec) (k x : List Byte) : Option (List Byte) :=
  match c.dir with
  | .encrypt => Prim.encBlock P c.cipher k x
  | .decrypt => Prim.decBlock P c.cipher k x

theorem xform_ecb {P : Prim} {c : CipherSpec} {k x cv y v : List Byte} (hm : c.mode = .ecb) :
    xform P c k x cv = some (y, v) ↔ v = cv ∧ dirBlock P c k x = some y := by
  cases hd : c.dir <;> simp [xform, dirBlock, hm, hd, and_comm, eq_comm]

theorem xform_cbc_encrypt {P : Prim} {c : CipherSpec} {k x cv y v : List Byte} (hm : c.mode = .cbc)
    (hd : c.dir = .encrypt) :
    xform P c k x cv = some (y, v) ↔ v = y ∧ Prim.encBlock P c.cipher k (xorBytes x cv) = some y := by
  simp only [xform, hm, hd, Option.map_eq_some_iff, Prod.mk.injEq]
  constructor
  · rintro ⟨z, hz, rfl, rfl⟩
    exact ⟨rfl, hz⟩
  · rintro ⟨rfl, hz⟩
    exact ⟨_, hz, rfl, rfl⟩

theorem xform_cbc_decrypt {P : Prim} {c : CipherSpec} {k x cv y v : List Byte} (hm : c.mode = .cbc)
    (hd : c.dir = .decrypt) :
    xform P c k x cv = some (y, v) ↔ v = x ∧ ∃ z, Prim.decBlock P c.cipher k x = some z ∧ y = xorBytes z cv := by
  simp only [xform, hm, hd, Option.map_eq_some_iff, Prod.mk.injEq]
  constructor
  · rintro ⟨z, hz, rfl, rfl⟩
    exact ⟨rfl, z, hz, rfl⟩
  · rintro ⟨rfl, z, hz, rfl⟩
    exact ⟨z, hz, rfl, rfl⟩

theorem runBlocks_zero_eq_some {P : Prim} {c : CipherSpec} {k T cv out v : List Byte} :
    runBlocks P c k T cv 0 = some (out, v) ↔ out = [] ∧ v = cv := by
  rw [runBlocks_zero, Option.some.injEq, Prod.mk.injEq, eq_comm, @eq_comm _ cv]

/-- In ECB the loop gives the same output from every chaining value (R73). -/
theorem runBlocks_ecb_of_cv {P : Prim} {c : CipherSpec} {k T cv out v : List Byte} {n : Nat} (hm : c.mode = .ecb)
    (h : runBlocks P c k T cv n = some (out, v)) (cv' : List Byte) : runBlocks P c k T cv' n = some (out, cv') := by
  induction n generalizing out v with
  | zero =>
    obtain ⟨rfl, -⟩ := runBlocks_zero_eq_some.mp h
    rfl
  | succ n ih =>
    obtain ⟨o, u, y, ho, hy, rfl⟩ := runBlocks_succ.mp h
    exact runBlocks_succ.mpr ⟨o, cv', y, ih ho, (xform_ecb hm).mpr ⟨rfl, ((xform_ecb hm).mp hy).2⟩, rfl⟩

/-- Settles O28: the output does not depend on the chaining value, so each turn of the loop is the primitive on its own
block. -/
theorem ecbTransformsEachBlockAlone : Obligations.EcbTransformsEachBlockAlone := by
  unfold Obligations.EcbTransformsEachBlockAlone
  intro P c k T cv out cv' n hm hT h
  have hzeros : (zeros c.bs).length = c.bs := List.length_replicate
  have h0 := runBlocks_ecb_of_cv hm h (zeros c.bs)
  have hblock : ∀ j, j < n → dirBlock P c k (blockAt T c.bs j) = some (blockAt out c.bs j) := by
    intro j hj
    obtain ⟨o, v, w, -, -, -, hx, -⟩ := runBlocks_turn hT hzeros h0 j hj
    exact ((xform_ecb hm).mp hx).2
  refine ⟨runBlocks_ecb_cv hm h, (runBlocks_length h0 hT hzeros).1, hblock, fun i j hi hj hij => ?_⟩
  have hi' := hblock i hi
  rw [hij, hblock j hj] at hi'
  exact (Option.some.inj hi').symm

/-- The string whose blocks CBC chains: the output of an encryption, the input of a decryption (R74, R75). -/
def chainSource (d : Dir) (T out : List Byte) : List Byte :=
  match d with
  | .encrypt => out
  | .decrypt => T

theorem xform_cbc_next {P : Prim} {c : CipherSpec} {k x cv y v : List Byte} (hm : c.mode = .cbc)
    (h : xform P c k x cv = some (y, v)) : v = chainSource c.dir x y := by
  cases hd : c.dir with
  | encrypt => exact ((xform_cbc_encrypt hm hd).mp h).1
  | decrypt => exact ((xform_cbc_decrypt hm hd).mp h).1

theorem blockAt_chainSource (d : Dir) (T out : List Byte) (bs j : Nat) :
    blockAt (chainSource d T out) bs j = chainSource d (blockAt T bs j) (blockAt out bs j) := by cases d <;> rfl

/-- The chaining value of CBC before block `j`: `CV`, and then block `j - 1` of the chained string (R74 to R76). -/
def chainedBefore (cv S : List Byte) (bs j : Nat) : List Byte := if j = 0 then cv else blockAt S bs (j - 1)

/-- The CBC loop after each number of blocks holds the chaining value of the next block (R76). -/
theorem runBlocks_cbc_chained {P : Prim} {c : CipherSpec} {k T cv out cv' o v : List Byte} {n j : Nat} (hm : c.mode = .cbc)
    (hT : n * c.bs ≤ T.length) (hcv : cv.length = c.bs) (h : runBlocks P c k T cv n = some (out, cv')) (hj : j ≤ n)
    (hv : runBlocks P c k T cv j = some (o, v)) : v = chainedBefore cv (chainSource c.dir T out) c.bs j := by
  cases j with
  | zero =>
    exact (runBlocks_zero_eq_some.mp hv).2
  | succ i =>
    obtain ⟨-, u, w, -, -, -, hx, -, hw⟩ := runBlocks_turn hT hcv h i hj
    obtain rfl : v = w := (Prod.mk.inj (Option.some.inj (hv.symm.trans hw))).2
    rw [xform_cbc_next hm hx, ← blockAt_chainSource]
    rfl

/-- Each turn of the CBC loop transforms its block with the chaining value before it (R74, R75). -/
theorem runBlocks_cbc_turn {P : Prim} {c : CipherSpec} {k T cv out cv' : List Byte} {n j : Nat} (hm : c.mode = .cbc)
    (hT : n * c.bs ≤ T.length) (hcv : cv.length = c.bs) (h : runBlocks P c k T cv n = some (out, cv')) (hj : j < n) :
    ∃ w, xform P c k (blockAt T c.bs j) (chainedBefore cv (chainSource c.dir T out) c.bs j)
      = some (blockAt out c.bs j, w) := by
  obtain ⟨o, v, w, hv, -, -, hx, -⟩ := runBlocks_turn hT hcv h j hj
  rw [← runBlocks_cbc_chained hm hT hcv h hj.le hv]
  exact ⟨w, hx⟩

/-- Settles O29: the chained string of an encryption is its output. -/
theorem cbcEncryptChainsCiphertext : Obligations.CbcEncryptChainsCiphertext := by
  unfold Obligations.CbcEncryptChainsCiphertext
  intro P c k T cv out cv' n hm hd hT hcv h
  have hsource : chainSource c.dir T out = out := by rw [hd]; rfl
  have hlast := runBlocks_cbc_chained hm hT hcv h le_rfl h
  rw [hsource] at hlast
  refine ⟨(runBlocks_length h hT hcv).1, hlast, fun j hj => ?_⟩
  obtain ⟨w, hx⟩ := runBlocks_cbc_turn hm hT hcv h hj
  rw [hsource] at hx
  exact ((xform_cbc_encrypt hm hd).mp hx).2

/-- Settles O30: the chained string of a decryption is its input. -/
theorem cbcDecryptChainsInput : Obligations.CbcDecryptChainsInput := by
  unfold Obligations.CbcDecryptChainsInput
  intro P c k T cv out cv' n hm hd hT hcv h
  have hsource : chainSource c.dir T out = T := by rw [hd]; rfl
  have hlast := runBlocks_cbc_chained hm hT hcv h le_rfl h
  rw [hsource] at hlast
  refine ⟨(runBlocks_length h hT hcv).1, hlast, fun j hj => ?_⟩
  obtain ⟨w, hx⟩ := runBlocks_cbc_turn hm hT hcv h hj
  rw [hsource] at hx
  exact ((xform_cbc_decrypt hm hd).mp hx).2

/-! ### The staged result -/

/-- The result is what the tail step makes of the loop over the whole blocks (R67). -/
theorem updateResult_eq_ok_iff {P : Prim} {c : CipherSpec} {k T cv : List Byte} {f : Bool} {r : Staged} :
    updateResult P c k T cv f = .ok r ↔ ∃ out v, runBlocks P c k T cv (T.length / c.bs) = some (out, v) ∧
      tailResult P c k (tailOf T c.bs) f ⟨out, v, [], T.length / c.bs, 0⟩ = .ok r := by
  simp only [updateResult, blockCount]
  rcases runBlocks P c k T cv (T.length / c.bs) with - | ⟨out, v⟩
  · simp
  · constructor
    · exact fun h => ⟨out, v, rfl, h⟩
    · rintro ⟨_, _, ⟨⟩, h⟩
      exact h

/-- A non-final chunk keeps its tail as the carry (R70). -/
theorem tailResult_carry_iff {P : Prim} {c : CipherSpec} {k tail : List Byte} {st r : Staged} :
    tailResult P c k tail false st = .ok r ↔ r = { st with carry := tail, pad := 0 } :=
  ⟨fun h => (Except.ok.inj h).symm, fun h => congrArg Except.ok h.symm⟩

/-- A final encrypt chunk ends in its transformed pad block (R77). -/
theorem tailResult_pad_iff {P : Prim} {c : CipherSpec} {k tail : List Byte} {st r : Staged} (hd : c.dir = .encrypt) :
    tailResult P c k tail true st = .ok r ↔ ∃ y w, xform P c k (padApply tail c.bs) st.cv = some (y, w) ∧
      r = ⟨st.out ++ y, w, [], st.cnt + 1, c.bs - tail.length⟩ := by
  simp only [tailResult, if_true, hd, padResult]
  rcases xform P c k (padApply tail c.bs) st.cv with - | ⟨y, w⟩
  · simp
  · simp [eq_comm]

/-- A final decrypt chunk loses its padding (R78). -/
theorem tailResult_strip_iff {P : Prim} {c : CipherSpec} {k tail : List Byte} {st r : Staged} (hd : c.dir = .decrypt) :
    tailResult P c k tail true st = .ok r ↔ ∃ o p, padStrip st.out c.bs = some (o, p) ∧
      r = ⟨o, st.cv, [], st.cnt, p⟩ := by
  simp only [tailResult, if_true, hd, stripResult]
  rcases padStrip st.out c.bs with - | ⟨o, p⟩
  · simp
  · simp [eq_comm]

/-- Settles O19, by the three cases of the tail step. -/
theorem updateResultIsBlocksThenTail : Obligations.UpdateResultIsBlocksThenTail := by
  unfold Obligations.UpdateResultIsBlocksThenTail
  intro P c k T cv final r
  rw [updateResult_eq_ok_iff, ← length_tailOf T c.bs]
  refine exists_congr fun out => exists_congr fun v => and_congr_right fun _ => ?_
  cases final with
  | false => exact tailResult_carry_iff
  | true =>
    cases hd : c.dir with
    | encrypt => exact tailResult_pad_iff hd
    | decrypt => exact tailResult_strip_iff hd

theorem length_tailOf_lt (T : List Byte) {bs : Nat} (hbs : 0 < bs) : (tailOf T bs).length < bs :=
  (length_tailOf T bs).trans_lt (Nat.mod_lt _ hbs)

/-- The output length of a result (R81). -/
def outputLength (c : CipherSpec) (n pad : Nat) (f : Bool) : Nat :=
  match f, c.dir with
  | false, _ => n / c.bs * c.bs
  | true, .encrypt => (n / c.bs + 1) * c.bs
  | true, .decrypt => n / c.bs * c.bs - pad

theorem outputLength_le (c : CipherSpec) (n pad : Nat) (f : Bool) : outputLength c n pad f ≤ (n / c.bs + 1) * c.bs := by
  rw [Nat.add_one_mul]
  unfold outputLength
  split
  · omega
  · rw [Nat.add_one_mul]
  · omega

theorem updateResult_out_length {P : Prim} {c : CipherSpec} {k T cv : List Byte} {f : Bool} {r : Staged}
    (h : updateResult P c k T cv f = .ok r) (hcv : cv.length = c.bs) :
    r.out.length = outputLength c T.length r.pad f := by
  obtain ⟨out, v, hb, hr⟩ := updateResult_ok h
  obtain ⟨hout, hv⟩ := runBlocks_length hb (Nat.div_mul_le_self _ _) hcv
  rcases hr with ⟨rfl, rfl⟩ | ⟨rfl, hd, y, w, hx, rfl⟩ | ⟨rfl, hd, o, p, hp, rfl⟩
  · exact hout
  · have hy := (xform_length hx (length_padApply (length_tailOf_lt T c.bs_pos).le) hv).1
    simp only [outputLength, hd, List.length_append, hout, hy, Nat.add_one_mul]
  · obtain ⟨-, -, -, -, -, -, rfl⟩ := padStrip_eq_some.mp hp
    simp only [outputLength, hd, List.length_take, hout]
    omega

/-- A chunk that does not complete a block is its own tail, and no block is transformed (R70). -/
theorem updateResult_of_lt {P : Prim} {c : CipherSpec} {k T cv : List Byte} (h : T.length < c.bs) :
    updateResult P c k T cv false = .ok ⟨[], cv, T, 0, 0⟩ := by
  have hnb : T.length / c.bs = 0 := Nat.div_eq_of_lt h
  have htail : tailOf T c.bs = T := by rw [tailOf, blockCount, hnb, Nat.zero_mul, List.drop_zero]
  refine updateResult_eq_ok_iff.mpr ⟨[], cv, ?_, tailResult_carry_iff.mpr ?_⟩
  · rw [hnb, runBlocks_zero]
  · rw [hnb, htail]

/-! ### The outcome of an UPDATE -/

theorem completeUpdate_of_updateCheck_error {P : Prim} {len : Nat} {f : Bool} {s : State} {e : CmdError}
    (h : updateCheck s len f = .error e) : completeUpdate P len f s = s.finish (some e) := by
  simp only [completeUpdate, runUpdate, h, State.conclude_error]

theorem completeUpdate_of_updateResult_error {P : Prim} {len : Nat} {f : Bool} {s : State} {c : CipherSpec} {e : CmdError}
    (hc : updateCheck s len f = .ok c)
    (hr : updateResult P c (s.key c) (s.workString len) (s.firstBytes .cv c.bs) f = .error e) :
    completeUpdate P len f s = s.finish (some e) := by
  simp only [completeUpdate, runUpdate, hc, hr, State.conclude_error]

/-- A successful `UPDATE` commits its result (R79). -/
theorem execWith_update_success {P : Prim} {s t : State} {c : CipherSpec} {len : Nat} {f : Bool}
    (hs : s.session = .active c) (h : execWith P (.update len f) s = .next t) (ht : t.err = none) :
    ∃ r, len ≤ 1024 ∧ updateResult P c (s.key c) (s.workString len) (s.firstBytes .cv c.bs) f = .ok r ∧
      t = (s.commit c r f).finish none := by
  obtain rfl := execWith_eq_next.mp h
  obtain ⟨c', r, hs', hl, -, hr, he⟩ := completeUpdate_success ht
  obtain rfl : c = c' := Session.active.inj (hs.symm.trans hs')
  exact ⟨r, hl, hr, he⟩

/-- An `UPDATE` whose checks pass and whose result is `r` answers the commit of `r` (R79). -/
theorem execWith_update_of_result {P : Prim} {s : State} {c : CipherSpec} {len : Nat} {f : Bool} {r : Staged}
    (hs : s.session = .active c) (hl : len ≤ 1024)
    (hm : ¬(f = true ∧ c.dir = .decrypt ∧ (s.pblen.toNat + len) % c.bs ≠ 0))
    (hr : updateResult P c (s.key c) (s.workString len) (s.firstBytes .cv c.bs) f = .ok r) :
    execWith P (.update len f) s = .next ((s.commit c r f).finish none) :=
  execWith_eq_next.mpr (completeUpdate_of_result hs hl hm hr).symm

/-! The lengths a completed commit reports are those of its result. -/

section
variable {s : State} {c : CipherSpec} {r : Staged} {f : Bool}

theorem State.toNat_commit_finish_outlen (h : r.out.length ≤ 1056) :
    ((s.commit c r f).finish none).outlen.toNat = r.out.length := by
  rw [State.finish_outlen, State.toNat_commit_outlen h]

theorem State.toNat_commit_finish_pblen (h : r.carry.length < c.bs) :
    ((s.commit c r f).finish none).pblen.toNat = r.carry.length := by
  rw [State.finish_pblen, State.toNat_commit_pblen h]

theorem State.toNat_commit_finish_padval (h : r.pad ≤ c.bs) :
    ((s.commit c r f).finish none).padval.toNat = r.pad := by
  rw [State.finish_padval, State.toNat_commit_padval h]

end

theorem exec_eq_execWith (i : Instr) (s : State) : exec i s = execWith Config.PRIM i s := exec_eq i s

/-- Settles O18: the committed state, field by field. -/
theorem updateCommitsItsResult : Obligations.UpdateCommitsItsResult := by
  unfold Obligations.UpdateCommitsItsResult
  intro P s c len final r hs hl hm hr
  obtain ⟨hout, hcarry, hcv, hpad⟩ := updateResult_fits hl hr
  have hnext := execWith_update_of_result hs hl hm hr
  refine ⟨_, hnext, ?prim, rfl, rfl, rfl, s.commit_dout c r final hout, State.toNat_commit_finish_outlen hout,
    fun h => s.commit_cv_cbc c r final h hcv, fun h => s.commit_cv_ecb c r final h 16 le_rfl, ?pbuf,
    State.toNat_commit_finish_pblen hcarry, s.commit_blkcnt c r final, State.toNat_commit_finish_padval hpad, ?session,
    s.commit_skey c r final, s.commit_keylen c r final, s.commit_cmd c r final, s.commit_ovr c r final,
    s.commit_doneIe c r final, s.commit_ovrIe c r final, s.commit_rst c r final, s.commit_reply c r final,
    s.commit_agenda c r final, s.commit_read_other c r final⟩
  case prim =>
    rintro rfl
    rw [exec_eq_execWith, hnext]
  case pbuf =>
    rw [State.finish_pbuf, State.commit_pbuf, regOf_eq_append 16 _ (hcarry.le.trans c.bs_le)]
  case session =>
    rw [State.finish_session, State.commit_session, hs]

/-- Settles O20: the result has no output, its carry is the work string, and no block is transformed. -/
theorem shortNonFinalChunkIsCarried : Obligations.ShortNonFinalChunkIsCarried := by
  unfold Obligations.ShortNonFinalChunkIsCarried
  intro s c len hs hlt
  have hbs := c.bs_le
  have hT : (s.workString len).length < c.bs := by rwa [State.length_workString]
  have hr : updateResult Config.PRIM c (s.key c) (s.workString len) (s.firstBytes .cv c.bs) false = .ok _ :=
    updateResult_of_lt hT
  have hnext := execWith_update_of_result hs (by omega) (by simp) hr
  refine ⟨_, (exec_eq_execWith _ _).trans hnext, rfl, s.commit_outlen c _ false, s.commit_dout c _ false (Nat.zero_le _),
    ?pbuf, (State.toNat_commit_finish_pblen hT).trans (State.length_workString s len), ?blkcnt, s.commit_padval c _ false,
    ?session, State.cv_commit hr (s.length_firstBytes .cv c.bs), s.commit_skey c _ false, ?frame⟩
  case pbuf =>
    rw [State.finish_pbuf, State.commit_pbuf, ← State.length_workString, regOf_take 16 _ (hT.le.trans hbs)]
    rfl
  case blkcnt =>
    rw [State.finish_blkcnt, State.commit_blkcnt]
    exact BitVec.add_zero _
  case session => rw [State.finish_session, State.commit_session, if_neg Bool.false_ne_true]
  case frame => exact fun o hdout hcv => s.commit_read_other c _ false o hdout fun h => hcv h.1

/-- Settles O23: the output length of the committed result. -/
theorem outputLengthOfUpdate : Obligations.OutputLengthOfUpdate := by
  unfold Obligations.OutputLengthOfUpdate
  intro P s t c len final hs h ht
  obtain ⟨r, hl, hr, rfl⟩ := execWith_update_success hs h ht
  obtain ⟨hout, -, -, hpad⟩ := updateResult_fits hl hr
  have hlen : ((s.commit c r final).finish none).outlen.toNat
      = outputLength c (s.pblen.toNat + len) ((s.commit c r final).finish none).padval.toNat final := by
    rw [State.toNat_commit_finish_outlen hout, State.toNat_commit_finish_padval hpad,
      updateResult_out_length hr (State.length_firstBytes _ _ _), State.length_workString]
  have hle := outputLength_le c (s.pblen.toNat + len) ((s.commit c r final).finish none).padval.toNat final
  rw [← hlen] at hle
  refine ⟨?_, fun hlt => ⟨fun hbs => ?_, fun hbs => ?_⟩⟩
  · cases final with
    | false => exact hlen
    | true => cases hd : c.dir <;> simpa only [outputLength, hd] using hlen
  · rw [hbs] at hlt hle
    omega
  · rw [hbs] at hlt hle
    omega

/-! ### Final chunks -/

theorem xform_encrypt_isSome {P : Prim} {c : CipherSpec} {k : List Byte} (hd : c.dir = .encrypt)
    (hP : ∀ x, Prim.encBlock P c.cipher k x ≠ none) (x cv : List Byte) : (xform P c k x cv).isSome := by
  cases hm : c.mode <;> simpa [xform, hm, hd] using Option.isSome_iff_ne_none.mpr (hP _)

/-- The loop runs to its end when every transform is answered. -/
theorem runBlocks_isSome {P : Prim} {c : CipherSpec} {k : List Byte} (hx : ∀ x cv, (xform P c k x cv).isSome)
    (T cv : List Byte) (n : Nat) : (runBlocks P c k T cv n).isSome := by
  induction n with
  | zero => rfl
  | succ n ih =>
    obtain ⟨⟨o, v⟩, ho⟩ := Option.isSome_iff_exists.mp ih
    obtain ⟨⟨y, w⟩, hy⟩ := Option.isSome_iff_exists.mp (hx (blockAt T c.bs n) v)
    rw [runBlocks_succ.mpr ⟨o, v, y, ho, hy, rfl⟩]
    rfl

/-- A final encrypt chunk succeeds when every transform is answered (R77). -/
theorem updateResult_encrypt_isOk {P : Prim} {c : CipherSpec} {k : List Byte} (hd : c.dir = .encrypt)
    (hx : ∀ x cv, (xform P c k x cv).isSome) (T cv : List Byte) : ∃ r, updateResult P c k T cv true = .ok r := by
  obtain ⟨⟨out, v⟩, hb⟩ := Option.isSome_iff_exists.mp (runBlocks_isSome hx T cv (T.length / c.bs))
  obtain ⟨⟨y, w⟩, hy⟩ := Option.isSome_iff_exists.mp (hx (padApply (tailOf T c.bs) c.bs) v)
  exact ⟨_, updateResult_eq_ok_iff.mpr ⟨out, v, hb, (tailResult_pad_iff hd).mpr ⟨y, w, hy, rfl⟩⟩⟩

/-- Settles O21, from the output length, the pad and the count of the committed result. -/
theorem finalEncryptChunkIsPadded : Obligations.FinalEncryptChunkIsPadded := by
  unfold Obligations.FinalEncryptChunkIsPadded
  intro P s c len hs hd hl hP
  obtain ⟨r, hr⟩ := updateResult_encrypt_isOk hd (xform_encrypt_isSome hd hP) (s.workString len) (s.firstBytes .cv c.bs)
  obtain ⟨hout, -, -, hpad⟩ := updateResult_fits hl hr
  obtain ⟨-, -, -, -, -, hfinal⟩ := updateResult_sizes hr (State.length_firstBytes _ _ _)
  obtain ⟨-, hcarry⟩ := hfinal rfl
  refine ⟨_, execWith_update_of_result hs hl (by simp [hd]) hr, rfl, ?outlen, ?padval, ?pblen, ?pbuf, ?blkcnt,
    s.commit_session c r true⟩
  case outlen =>
    rw [State.toNat_commit_finish_outlen hout, updateResult_out_length hr (State.length_firstBytes _ _ _),
      State.length_workString]
    simp only [outputLength, hd]
  case padval =>
    rw [State.toNat_commit_finish_padval hpad, updateResult_pad_encrypt hr hd, State.length_workString]
  case pblen => rw [State.finish_pblen, State.commit_pblen, hcarry]; rfl
  case pbuf => rw [State.finish_pbuf, State.commit_pbuf, hcarry]; rfl
  case blkcnt =>
    rw [State.finish_blkcnt, State.commit_blkcnt, updateResult_cnt hr, if_pos ⟨rfl, hd⟩, State.length_workString]

/-- The alignment check of a final decrypt chunk fails (R78). -/
theorem updateCheck_misaligned {s : State} {c : CipherSpec} {len : Nat} (hs : s.session = .active c) (hd : c.dir = .decrypt)
    (hl : len ≤ 1024) (hm : (s.pblen.toNat + len) % c.bs ≠ 0) :
    updateCheck s len true = .error .misalignedCiphertext := by
  have hmax : ¬ Config.CHUNK_MAX < len := not_lt.mpr hl
  simp only [updateCheck, hs, if_neg hmax]
  exact if_pos ⟨trivial, hd, hm⟩

/-- A final decrypt chunk whose output has no valid padding fails with `InvalidPadding` (R78, R87). -/
theorem completeUpdate_invalidPadding {P : Prim} {s : State} {c : CipherSpec} {len : Nat} {out v : List Byte}
    (hs : s.session = .active c) (hd : c.dir = .decrypt) (hl : len ≤ 1024) (hm : (s.pblen.toNat + len) % c.bs = 0)
    (hb : runBlocks P c (s.key c) (s.workString len) (s.firstBytes .cv c.bs) ((s.pblen.toNat + len) / c.bs) = some (out, v))
    (hp : padStrip out c.bs = none) : completeUpdate P len true s = s.finish (some .invalidPadding) := by
  rw [← State.length_workString] at hb
  refine completeUpdate_of_updateResult_error (updateCheck_ok.mpr ⟨hs, hl, fun ⟨_, _, h⟩ => h hm⟩) ?_
  simp only [updateResult, blockCount, hb, tailResult, if_true, hd, stripResult, hp]

/-- The strip of whole blocks depends on their last byte alone (R87, R88). -/
theorem padStrip_of_getLast? {out : List Byte} {bs n : Nat} {last : Byte} (hlen : out.length = n * bs)
    (hlast : out.getLast? = some last) : padStrip out bs =
      if 1 ≤ last.toNat ∧ last.toNat ≤ bs then some (out.take (out.length - last.toNat), last.toNat) else none := by
  have hn : n ≠ 0 := by
    rintro rfl
    rw [Nat.zero_mul, List.length_eq_zero_iff] at hlen
    simp [hlen] at hlast
  have hle : bs ≤ out.length := hlen ▸ Nat.le_mul_of_pos_left _ (Nat.pos_of_ne_zero hn)
  split
  · rename_i hp
    exact padStrip_eq_some.mpr ⟨last, hlast, rfl, hp.1, hp.2, hp.2.trans hle, rfl⟩
  · rename_i hp
    simp only [padStrip, hlast]
    exact if_pos (by omega)

/-- Settles O22: the two failures before the strip, and then the strip by the last byte of the decrypted blocks. -/
theorem finalDecryptChunkIsStripped : Obligations.FinalDecryptChunkIsStripped := by
  unfold Obligations.FinalDecryptChunkIsStripped
  refine ⟨fun s c len hs hd hl => ⟨fun hm => ?misaligned, fun h0 => ?empty⟩,
    fun P s c len out cv last hs hd hl hm hb hlast => ?_⟩
  case misaligned =>
    exact exec_eq_next.mpr (completeUpdate_of_updateCheck_error (updateCheck_misaligned hs hd hl hm)).symm
  case empty =>
    refine exec_eq_next.mpr (completeUpdate_invalidPadding (out := []) (v := s.firstBytes .cv c.bs) hs hd hl ?_ ?_ rfl).symm
    · rw [h0, Nat.zero_mod]
    · rw [h0, Nat.zero_div, runBlocks_zero]
  have hblocks := hb
  rw [← State.length_workString] at hblocks
  have hlen := (runBlocks_length hblocks (Nat.div_mul_le_self _ _) (s.length_firstBytes .cv c.bs)).1
  have hstrip := padStrip_of_getLast? hlen hlast
  by_cases hp : 1 ≤ last.toNat ∧ last.toNat ≤ c.bs
  · rw [if_pos hp] at hstrip
    have hr := updateResult_eq_ok_iff.mpr ⟨out, cv, hblocks, (tailResult_strip_iff hd).mpr ⟨_, _, hstrip, rfl⟩⟩
    obtain ⟨hout, -⟩ := updateResult_fits hl hr
    refine ⟨_, execWith_update_of_result hs hl (fun ⟨_, _, h⟩ => h hm) hr, ?_⟩
    rw [if_pos hp]
    refine ⟨rfl, ?outlen, ?padval, ?dout, ?session, s.commit_pblen c _ true⟩
    case session => rw [State.finish_session, State.commit_session, if_pos rfl]
    case outlen => rw [State.toNat_commit_finish_outlen hout, List.length_take, Nat.min_eq_left (Nat.sub_le _ _)]
    case padval => rw [State.finish_padval, State.commit_padval, BitVec.ofNat_toNat, BitVec.setWidth_eq]
    case dout =>
      rw [State.toNat_commit_finish_outlen hout, State.firstBytes_finish, ← State.firstBytes_take _ _ _ _ hout,
        s.commit_dout c _ true hout, List.take_left]
  · rw [if_neg hp] at hstrip
    exact ⟨_, execWith_eq_next.mpr (completeUpdate_invalidPadding hs hd hl hm hb hstrip).symm, by rw [if_neg hp]⟩

/-! ### What an UPDATE reads -/

/-- Two states alike in what an `UPDATE` reads: the session, the key, the carry, the chaining value and `DIN[0..len)`. -/
structure SameOperands (s s' : State) (len : Nat) : Prop where
  session : s'.session = s.session
  skey : s'.skey = s.skey
  pbuf : s'.pbuf = s.pbuf
  pblen : s'.pblen = s.pblen
  cv : s'.firstBytes .cv 16 = s.firstBytes .cv 16
  din : s'.firstBytes .din len = s.firstBytes .din len

section
variable {s s' : State} {len : Nat} (h : SameOperands s s' len)
include h

theorem SameOperands.updateCheck_eq (f : Bool) : updateCheck s' len f = updateCheck s len f := by
  unfold updateCheck State.workLength
  rw [h.session, h.pblen]

theorem SameOperands.updateResult_eq (P : Prim) (c : CipherSpec) (f : Bool) :
    updateResult P c (s'.key c) (s'.workString len) (s'.firstBytes .cv c.bs) f
      = updateResult P c (s.key c) (s.workString len) (s.firstBytes .cv c.bs) f := by
  have hcv : s'.firstBytes .cv c.bs = s.firstBytes .cv c.bs := by
    rw [← State.firstBytes_take s' _ 16 _ c.bs_le, h.cv, State.firstBytes_take _ _ _ _ c.bs_le]
  simp only [State.key, State.workString, State.carry, h.skey, h.pbuf, h.pblen, h.din, hcv]

theorem SameOperands.commit_cv_eq {c : CipherSpec} {r : Staged} (f : Bool) (hr : r.cv.length = c.bs) :
    (s'.commit c r f).firstBytes .cv 16 = (s.commit c r f).firstBytes .cv 16 := by
  cases hm : c.mode with
  | ecb => rw [State.commit_cv_ecb _ _ _ _ hm 16 le_rfl, State.commit_cv_ecb _ _ _ _ hm 16 le_rfl, h.cv]
  | cbc => rw [State.commit_cv_cbc _ _ _ _ hm hr, State.commit_cv_cbc _ _ _ _ hm hr]

end

/-- Settles O27: the checks and the result are the same, and a commit writes the result alone. -/
theorem updateReadsOnlyItsOperands : Obligations.UpdateReadsOnlyItsOperands := by
  unfold Obligations.UpdateReadsOnlyItsOperands
  intro s s' t t' len final hsession hskey hpbuf hpblen hcv hdin ht ht'
  have h : SameOperands s s' len := ⟨hsession, hskey, hpbuf, hpblen, hcv, hdin⟩
  obtain rfl := exec_eq_next.mp ht
  obtain rfl := exec_eq_next.mp ht'
  simp only [completion]
  rcases completeUpdate_cases Config.PRIM len final s with ⟨e, hc, he⟩ | ⟨c, hc, ⟨e, hr, he⟩ | ⟨r, hr, he⟩⟩
  · rw [he, completeUpdate_of_updateCheck_error ((h.updateCheck_eq final).trans hc)]
    exact ⟨rfl, hsession, nofun⟩
  · rw [he, completeUpdate_of_updateResult_error ((h.updateCheck_eq final).trans hc)
      ((h.updateResult_eq _ c final).trans hr)]
    exact ⟨rfl, hsession, nofun⟩
  · obtain ⟨hs, hl, hm⟩ := updateCheck_ok.mp hc
    obtain ⟨hout, -, hcvlen, -⟩ := updateResult_fits hl hr
    have he' := completeUpdate_of_result (hsession.trans hs) hl (hpblen.symm ▸ hm) ((h.updateResult_eq _ c final).trans hr)
    rw [he, he']
    refine ⟨rfl, ?session, fun _ => ⟨?outlen, ?dout, ?pbuf, ?pblen, ?padval, h.commit_cv_eq final hcvlen⟩⟩
    case session => simp [hsession]
    case dout => exact (s'.commit_dout c r final hout).trans (s.commit_dout c r final hout).symm
    all_goals simp

/-! ### Streams -/

/-- A string is its whole blocks and then its tail (R70, R71). -/
theorem take_append_tailOf (T : List Byte) (bs : Nat) : T.take (T.length / bs * bs) ++ tailOf T bs = T :=
  List.take_append_drop _ _

theorem append_eq_wholeBlocks_append (T B : List Byte) (bs : Nat) :
    T ++ B = T.take (T.length / bs * bs) ++ (tailOf T bs ++ B) := by
  rw [← List.append_assoc, take_append_tailOf]

theorem length_tailOf_append_mod (T B : List Byte) (bs : Nat) : (tailOf T bs ++ B).length % bs = (T ++ B).length % bs := by
  rw [List.length_append, length_tailOf, List.length_append, Nat.mod_add_mod]

theorem length_take_wholeBlocks (T : List Byte) (bs : Nat) : (T.take (T.length / bs * bs)).length = T.length / bs * bs :=
  List.length_take_of_le (Nat.div_mul_le_self _ _)

theorem blockAt_take {T : List Byte} {bs n j : Nat} (hT : n * bs ≤ T.length) (hj : j < n) :
    blockAt (T.take (n * bs)) bs j = blockAt T bs j := by
  have hle : (j + 1) * bs ≤ (T.take (n * bs)).length := by
    rw [List.length_take_of_le hT]
    exact Nat.mul_le_mul_right _ hj
  rw [← blockAt_append_left hle, List.take_append_drop]

/-- The loop reads no byte past its blocks (R76). -/
theorem runBlocks_take (P : Prim) (c : CipherSpec) (k : List Byte) {T : List Byte} (cv : List Byte) {n : Nat}
    (hT : n * c.bs ≤ T.length) : runBlocks P c k (T.take (n * c.bs)) cv n = runBlocks P c k T cv n :=
  runBlocks_congr fun _ hj => blockAt_take hT hj

/-- A loop that ran to its end has run through every block before it (R76). -/
theorem exists_runBlocks_of_add {P : Prim} {c : CipherSpec} {k T cv : List Byte} {a b : Nat} {x : List Byte × List Byte}
    (h : runBlocks P c k T cv (a + b) = some x) : ∃ o v, runBlocks P c k T cv a = some (o, v) := by
  rcases ha : runBlocks P c k T cv a with - | ⟨o, v⟩
  · simp [runBlocks_add, ha] at h
  · exact ⟨o, v, rfl⟩

/-- The whole blocks of `T`, and then a result over its tail and what follows, are a result over all of it (R70, R76). -/
theorem updateResult_join {P : Prim} {c : CipherSpec} {k T B cv o v : List Byte} {f : Bool} {r : Staged}
    (hb : runBlocks P c k T cv (T.length / c.bs) = some (o, v)) (h : updateResult P c k (tailOf T c.bs ++ B) v f = .ok r) :
    ∃ r', updateResult P c k (T ++ B) cv f = .ok r' ∧ r'.out = o ++ r.out ∧ r'.cv = r.cv := by
  rw [← runBlocks_take P c k cv (Nat.div_mul_le_self _ _)] at hb
  rw [append_eq_wholeBlocks_append T B c.bs]
  exact ⟨_, updateResult_append (length_take_wholeBlocks T c.bs) hb h, rfl, rfl⟩

/-- The other way, if what follows the whole blocks of a final decrypt chunk holds a block itself (R82). -/
theorem updateResult_cut {P : Prim} {c : CipherSpec} {k T B cv : List Byte} {f : Bool} {r : Staged} (hcv : cv.length = c.bs)
    (hf : c.dir = .decrypt → c.bs ≤ (tailOf T c.bs ++ B).length) (h : updateResult P c k (T ++ B) cv f = .ok r) :
    ∃ o v r', runBlocks P c k T cv (T.length / c.bs) = some (o, v) ∧
      updateResult P c k (tailOf T c.bs ++ B) v f = .ok r' ∧ r.out = o ++ r'.out ∧ r.cv = r'.cv := by
  have hle := Nat.div_mul_le_self T.length c.bs
  have hlen := length_take_wholeBlocks T c.bs
  rw [append_eq_wholeBlocks_append T B c.bs] at h
  obtain ⟨_, _, hall, -⟩ := updateResult_eq_ok_iff.mp h
  rw [blockCount_append hlen c.bs_pos] at hall
  obtain ⟨o, v, hb⟩ := exists_runBlocks_of_add hall
  rw [runBlocks_congr fun _ hj => blockAt_append_left (hlen.symm ▸ Nat.mul_le_mul_right _ hj)] at hb
  have hblocks := (runBlocks_take P c k cv hle).symm.trans hb
  obtain ⟨r', hr', rfl⟩ := updateResult_of_append hlen hb (runBlocks_length hblocks hle hcv).2 (fun _ => hf) h
  exact ⟨o, v, r', hblocks, hr', rfl, rfl⟩

/-- What a non-final chunk leaves: the carry, the chaining value and the output of the whole blocks (R70, R76, R79). -/
theorem feed_false {P : Prim} {s t : State} {c : CipherSpec} {chunk out : List Byte} (hs : s.session = .active c)
    (h : feed P s chunk false = some (t, out)) :
    runBlocks P c (s.key c) (s.carry ++ chunk) (s.firstBytes .cv c.bs) ((s.carry ++ chunk).length / c.bs)
        = some (out, t.firstBytes .cv c.bs) ∧
      t.session = .active c ∧ t.key c = s.key c ∧ t.carry = tailOf (s.carry ++ chunk) c.bs := by
  obtain ⟨r, hr, rfl, hsession, hkey, hcarry, -, hcv⟩ := feed_next hs h
  obtain ⟨o, v, hb, hst⟩ := updateResult_eq_ok_iff.mp hr
  obtain rfl := tailResult_carry_iff.mp hst
  rw [hcv]
  exact ⟨hb, hsession, hkey, hcarry⟩

/-- A non-final chunk succeeds when its whole blocks do (R70). -/
theorem exists_feed_false {P : Prim} {s : State} {c : CipherSpec} {chunk o v : List Byte} (hs : s.session = .active c)
    (hl : chunk.length ≤ 1024) (hb : runBlocks P c (s.key c) (s.carry ++ chunk) (s.firstBytes .cv c.bs)
      ((s.carry ++ chunk).length / c.bs) = some (o, v)) :
    ∃ t, feed P s chunk false = some (t, o) ∧ t.firstBytes .cv c.bs = v := by
  have hr := updateResult_eq_ok_iff.mpr ⟨o, v, hb, tailResult_carry_iff.mpr rfl⟩
  obtain ⟨t, out, ht⟩ := (feed_eq_some hs).mpr ⟨hl, by simp, _, hr⟩
  obtain ⟨hb', -⟩ := feed_false hs ht
  obtain ⟨rfl, rfl⟩ := Prod.mk.inj (Option.some.inj (hb.symm.trans hb'))
  exact ⟨t, ht, rfl⟩

/-- A final decrypt chunk is aligned when it succeeds (R78). -/
theorem feed_true_aligned {P : Prim} {s : State} {c : CipherSpec} {chunk : List Byte} {x : State × List Byte}
    (hs : s.session = .active c) (h : feed P s chunk true = some x) (hd : c.dir = .decrypt) :
    (s.carry ++ chunk).length % c.bs = 0 := by
  obtain ⟨-, hm, -⟩ := (feed_eq_some hs).mp ⟨_, _, h⟩
  rw [List.length_append, State.length_carry]
  exact not_not.mp fun h => hm ⟨rfl, hd, h⟩

theorem feedAll_cons_cons {P : Prim} {s t : State} {x y : List Byte} {rest : List (List Byte)} {out : List Byte} :
    feedAll P (x :: y :: rest) s = some (t, out) ↔ ∃ u o o', feed P s x false = some (u, o) ∧
      feedAll P (y :: rest) u = some (t, o') ∧ out = o ++ o' := by
  rw [feedAll]
  rcases feed P s x false with - | ⟨u, o⟩
  · simp
  rcases h : feedAll P (y :: rest) u with - | ⟨t', o'⟩
  · simp [h]
  · simp [h, and_assoc, eq_comm]

/-- A stream delivered in chunks is one final `UPDATE` over the carry and all of its bytes (R82). -/
theorem updateResult_of_feedAll {P : Prim} {c : CipherSpec} (cs : List (List Byte)) {s t : State} {out : List Byte}
    (hs : s.session = .active c) (h : feedAll P cs s = some (t, out)) :
    (∃ r, updateResult P c (s.key c) (s.carry ++ cs.flatten) (s.firstBytes .cv c.bs) true = .ok r ∧ out = r.out ∧
      t.firstBytes .cv c.bs = r.cv) ∧
    (c.dir = .decrypt → (s.carry ++ cs.flatten).length % c.bs = 0) := by
  induction cs generalizing s out with
  | nil => cases h
  | cons x rest ih =>
    cases rest with
    | nil =>
      rw [List.flatten_cons, List.flatten_nil, List.append_nil]
      obtain ⟨r, hr, hout, -, -, -, -, hcv⟩ := feed_next hs h
      exact ⟨⟨r, hr, hout, hcv⟩, feed_true_aligned hs h⟩
    | cons y rest =>
      obtain ⟨u, o, o', hx, hrest, rfl⟩ := feedAll_cons_cons.mp h
      obtain ⟨hb, husession, hkey, hcarry⟩ := feed_false hs hx
      obtain ⟨⟨r, hr, rfl, hcv⟩, halign⟩ := ih husession hrest
      rw [hkey, hcarry] at hr
      rw [hcarry] at halign
      rw [List.flatten_cons, ← List.append_assoc]
      obtain ⟨r', hr', hout, hcv'⟩ := updateResult_join hb hr
      exact ⟨⟨r', hr', hout.symm, hcv.trans hcv'.symm⟩,
        fun hd => (length_tailOf_append_mod _ _ _).symm.trans (halign hd)⟩

theorem finalWork_le (bs : Nat) (cs : List (List Byte)) (p : Nat) : finalWork bs p cs ≤ p + cs.flatten.length := by
  induction cs generalizing p with
  | nil => exact Nat.zero_le _
  | cons x rest ih =>
    cases rest with
    | nil => simp [finalWork]
    | cons y rest =>
      have hmod := Nat.mod_le (p + x.length) bs
      have := ih ((p + x.length) % bs)
      rw [finalWork, List.flatten_cons, List.length_append]
      omega

/-- One final `UPDATE` over all of a stream gives what every delivery in chunks gives, if a decrypt stream is aligned and its
final command holds a whole block (R82). -/
theorem feedAll_of_updateResult {P : Prim} {c : CipherSpec} {ds : List (List Byte)} {s : State} {r : Staged}
    (hs : s.session = .active c) (hne : ds ≠ []) (hmax : ∀ d ∈ ds, d.length ≤ 1024)
    (hd : c.dir = .decrypt → (s.carry ++ ds.flatten).length % c.bs = 0 ∧ c.bs ≤ finalWork c.bs s.pblen.toNat ds)
    (hr : updateResult P c (s.key c) (s.carry ++ ds.flatten) (s.firstBytes .cv c.bs) true = .ok r) :
    ∃ u, feedAll P ds s = some (u, r.out) ∧ u.firstBytes .cv c.bs = r.cv := by
  induction ds generalizing s r with
  | nil => exact absurd rfl hne
  | cons x rest ih =>
    have hx := hmax x (List.mem_cons_self ..)
    cases rest with
    | nil =>
      rw [List.flatten_cons, List.flatten_nil, List.append_nil] at hr hd
      have hm : ¬(true = true ∧ c.dir = .decrypt ∧ (s.pblen.toNat + x.length) % c.bs ≠ 0) := fun ⟨_, hdir, hmod⟩ => by
        obtain ⟨halign, -⟩ := hd hdir
        rw [List.length_append, State.length_carry] at halign
        exact hmod halign
      obtain ⟨u, o, hu⟩ := (feed_eq_some hs).mpr ⟨hx, hm, r, hr⟩
      obtain ⟨r', hr', rfl, -, -, -, -, hcv⟩ := feed_next hs hu
      obtain rfl : r = r' := Except.ok.inj (hr.symm.trans hr')
      exact ⟨u, hu, hcv⟩
    | cons y rest =>
      rw [List.flatten_cons, ← List.append_assoc, ← length_tailOf_append_mod] at hd
      rw [List.flatten_cons, ← List.append_assoc] at hr
      have htail : (s.pblen.toNat + x.length) % c.bs = (tailOf (s.carry ++ x) c.bs).length := by
        rw [length_tailOf, List.length_append, State.length_carry]
      rw [finalWork, htail] at hd
      have hwork : c.dir = .decrypt → c.bs ≤ (tailOf (s.carry ++ x) c.bs ++ (y :: rest).flatten).length := fun h =>
        List.length_append ▸ (hd h).2.trans (finalWork_le _ _ _)
      obtain ⟨o, v, r', hb, hr', hout, hcv⟩ := updateResult_cut (s.length_firstBytes .cv c.bs) hwork hr
      obtain ⟨u, hu, rfl⟩ := exists_feed_false hs hx hb
      obtain ⟨-, husession, hkey, hcarry⟩ := feed_false hs hu
      rw [← hcarry, State.length_carry] at hd
      rw [← hcarry, ← hkey] at hr'
      obtain ⟨w, hw, hwcv⟩ := ih husession (List.cons_ne_nil _ _) (fun d h => hmax d (List.mem_cons_of_mem _ h)) hd hr'
      exact ⟨w, feedAll_cons_cons.mpr ⟨u, o, r'.out, hu, hw, hout⟩, hwcv.trans hcv.symm⟩

/-- Any two deliveries of one stream give the same output and chaining value, if a decrypt stream's final command holds a
whole block in the second (R82). -/
theorem feedAll_rechunk {P : Prim} {s t : State} {c : CipherSpec} {cs ds : List (List Byte)} {out : List Byte}
    (hs : s.session = .active c) (hflat : cs.flatten = ds.flatten) (hne : ds ≠ []) (hmax : ∀ d ∈ ds, d.length ≤ 1024)
    (hwork : c.dir = .decrypt → c.bs ≤ finalWork c.bs s.pblen.toNat ds) (h : feedAll P cs s = some (t, out)) :
    ∃ u, feedAll P ds s = some (u, out) ∧ u.firstBytes .cv c.bs = t.firstBytes .cv c.bs := by
  obtain ⟨⟨r, hr, rfl, hcv⟩, halign⟩ := updateResult_of_feedAll cs hs h
  rw [hflat] at hr halign
  rw [hcv]
  exact feedAll_of_updateResult hs hne hmax (fun hd => ⟨halign hd, hwork hd⟩) hr

/-- Settles O37: an encrypt stream asks nothing of its final command. -/
theorem encryptOutputIgnoresChunking : Obligations.EncryptOutputIgnoresChunking := by
  unfold Obligations.EncryptOutputIgnoresChunking
  intro P s t c cs ds out hs hd hflat hne hmax h
  exact feedAll_rechunk hs hflat hne hmax (fun hd' => nomatch hd.symm.trans hd') h

/-- Settles O38: the final command of a decrypt stream holds the block it strips. -/
theorem decryptOutputIgnoresChunking : Obligations.DecryptOutputIgnoresChunking := by
  unfold Obligations.DecryptOutputIgnoresChunking
  intro P s t c cs ds out hs hd hflat hne hmax hwork h
  exact feedAll_rechunk hs hflat hne hmax (fun _ => hwork) h

/-! ### The round trip -/

/-- The decrypt session of an encrypt session's CipherSpec. -/
def CipherSpec.reversed (c : CipherSpec) : CipherSpec := { c with dir := .decrypt }

/-- Decrypting an encrypted block with the same chaining value gives the block back and the same next chaining value
(R73 to R75, R100). -/
theorem xform_roundTrip {P : Prim} {c : CipherSpec} {k x cv y v : List Byte} (hP : RoundTripLaw P) (hd : c.dir = .encrypt)
    (hk : k.length = c.ks) (hx : x.length = c.bs) (hcv : cv.length = c.bs) (h : xform P c k x cv = some (y, v)) :
    xform P c.reversed k y cv = some (x, v) := by
  cases hm : c.mode with
  | ecb =>
    obtain ⟨rfl, hy⟩ := (xform_ecb hm).mp h
    rw [dirBlock, hd] at hy
    exact (xform_ecb (c := c.reversed) hm).mpr ⟨rfl, hP _ _ _ _ hk hx hy⟩
  | cbc =>
    obtain ⟨rfl, hy⟩ := (xform_cbc_encrypt hm hd).mp h
    have hlen : (xorBytes x cv).length = blockSize c.cipher := by
      rw [length_xorBytes, hx, hcv, Nat.min_self]
      rfl
    exact (xform_cbc_decrypt (c := c.reversed) hm rfl).mpr
      ⟨rfl, _, hP _ _ _ _ hk hlen hy, (xorBytes_cancel x cv (hx.trans hcv.symm)).symm⟩

/-- Decrypting the output of an encrypting loop gives its blocks back (R83). -/
theorem runBlocks_roundTrip {P : Prim} {c : CipherSpec} {k T cv out v : List Byte} {n : Nat} (hP : RoundTripLaw P)
    (hd : c.dir = .encrypt) (hk : k.length = c.ks) (hT : n * c.bs ≤ T.length) (hcv : cv.length = c.bs)
    (h : runBlocks P c k T cv n = some (out, v)) : runBlocks P c.reversed k out cv n = some (T.take (n * c.bs), v) := by
  induction n generalizing out v with
  | zero =>
    obtain ⟨-, rfl⟩ := runBlocks_zero_eq_some.mp h
    rw [Nat.zero_mul, List.take_zero, runBlocks_zero]
  | succ n ih =>
    obtain ⟨o, u, y, ho, hy, rfl⟩ := runBlocks_succ.mp h
    have hTn : n * c.bs ≤ T.length := (Nat.mul_le_mul_right _ n.le_succ).trans hT
    obtain ⟨holen, hulen⟩ := runBlocks_length ho hTn hcv
    have hylen := (xform_length hy (length_blockAt hT) hulen).1
    have hfirst : runBlocks P c.reversed k (o ++ y) cv n = some (T.take (n * c.bs), u) := by
      rw [← ih hTn ho]
      exact runBlocks_congr fun j hj => blockAt_append_left (holen.symm ▸ Nat.mul_le_mul_right _ hj)
    have hlast : blockAt (o ++ y) c.bs n = y := by
      rw [blockAt, ← holen, List.drop_left, List.take_of_length_le hylen.le]
    refine runBlocks_succ.mpr ⟨_, u, blockAt T c.bs n, hfirst, ?_, ?_⟩
    · exact hlast.symm ▸ xform_roundTrip hP hd hk (length_blockAt hT) hulen hy
    · rw [Nat.add_one_mul, List.take_add, blockAt]

/-- The pad block's last byte is the pad's length, so stripping undoes padding (R86, R87). -/
theorem padStrip_append_padApply {front tail : List Byte} {bs : Nat} (h : tail.length < bs) (hbs : bs ≤ 16) :
    padStrip (front ++ padApply tail bs) bs = some (front ++ tail, bs - tail.length) := by
  have hp : (BitVec.ofNat 8 (bs - tail.length)).toNat = bs - tail.length := by
    rw [BitVec.toNat_ofNat, Nat.mod_eq_of_lt (by omega)]
  refine padStrip_eq_some.mpr ⟨BitVec.ofNat 8 (bs - tail.length), ?_, hp.symm, by omega, by omega, ?_, ?_⟩
  · rw [padApply, ← List.append_assoc, List.getLast?_append, List.getLast?_replicate, if_neg (by omega), Option.some_or]
  · rw [List.length_append, length_padApply h.le]
    omega
  · rw [padApply, ← List.append_assoc, List.take_left']
    simp
    omega

/-- A string with its padding: the whole blocks, and then the padded tail (R77, R86). -/
def padded (M : List Byte) (bs : Nat) : List Byte := M.take (M.length / bs * bs) ++ padApply (tailOf M bs) bs

theorem blockAt_padded {M : List Byte} {bs j : Nat} (hj : j < M.length / bs) :
    blockAt (padded M bs) bs j = blockAt M bs j := by
  rw [padded, blockAt_append_left, blockAt_take (Nat.div_mul_le_self _ _) hj]
  rw [length_take_wholeBlocks]
  exact Nat.mul_le_mul_right _ hj

section
variable {M : List Byte} {bs : Nat} (hbs : 0 < bs)
include hbs

theorem length_padded : (padded M bs).length = (M.length / bs + 1) * bs := by
  rw [padded, List.length_append, length_take_wholeBlocks, length_padApply (length_tailOf_lt M hbs).le, Nat.add_one_mul]

theorem blockAt_padded_last : blockAt (padded M bs) bs (M.length / bs) = padApply (tailOf M bs) bs := by
  rw [← Nat.add_zero (M.length / bs), padded, blockAt_append_right (length_take_wholeBlocks M bs), blockAt, Nat.zero_mul,
    List.drop_zero, List.take_of_length_le (length_padApply (length_tailOf_lt M hbs).le).le]

theorem padStrip_padded (hle : bs ≤ 16) : padStrip (padded M bs) bs = some (M, bs - (tailOf M bs).length) := by
  rw [padded, padStrip_append_padApply (length_tailOf_lt M hbs) hle, take_append_tailOf]

end

/-- The result of an encrypted stream is the loop over the stream with its padding (R77). -/
theorem runBlocks_padded {P : Prim} {c : CipherSpec} {k M cv : List Byte} {r : Staged} (hd : c.dir = .encrypt)
    (h : updateResult P c k M cv true = .ok r) :
    runBlocks P c k (padded M c.bs) cv (M.length / c.bs + 1) = some (r.out, r.cv) := by
  obtain ⟨o, v, hb, hst⟩ := updateResult_eq_ok_iff.mp h
  obtain ⟨y, w, hx, rfl⟩ := (tailResult_pad_iff hd).mp hst
  refine runBlocks_succ.mpr ⟨o, v, y, ?_, ?_, rfl⟩
  · rw [← hb]
    exact runBlocks_congr fun j hj => blockAt_padded hj
  · rw [blockAt_padded_last c.bs_pos]
    exact hx

/-- Decrypting the result of an encrypted stream in one final `UPDATE` gives the stream (R83). -/
theorem updateResult_roundTrip {P : Prim} {c : CipherSpec} {k M cv : List Byte} {r : Staged} (hP : RoundTripLaw P)
    (hd : c.dir = .encrypt) (hk : k.length = c.ks) (hcv : cv.length = c.bs) (h : updateResult P c k M cv true = .ok r) :
    r.out.length = (M.length / c.bs + 1) * c.bs ∧
      ∃ r', updateResult P c.reversed k r.out cv true = .ok r' ∧ r'.out = M := by
  have hb := runBlocks_padded hd h
  have hpadded := length_padded (M := M) c.bs_pos
  have hout := (runBlocks_length hb hpadded.ge hcv).1
  have hback := runBlocks_roundTrip hP hd hk hpadded.ge hcv hb
  rw [← hpadded, List.take_length] at hback
  have hcount : r.out.length / c.reversed.bs = M.length / c.bs + 1 := by
    rw [hout]
    exact Nat.mul_div_cancel _ c.bs_pos
  rw [← hcount] at hback
  have hstrip := padStrip_padded (M := M) c.reversed.bs_pos c.reversed.bs_le
  exact ⟨hout, _, updateResult_eq_ok_iff.mpr ⟨_, _, hback, (tailResult_strip_iff rfl).mpr ⟨_, _, hstrip, rfl⟩⟩, rfl⟩

theorem State.carry_eq_nil {s : State} (h : s.pblen = 0) : s.carry = [] := by
  rw [State.carry, h]
  rfl

/-- Settles O39: each delivery is one final `UPDATE` over the whole stream, and decrypting inverts encrypting there. -/
theorem decryptUndoesEncrypt : Obligations.DecryptUndoesEncrypt := by
  unfold Obligations.DecryptUndoesEncrypt
  intro P e d t c cs ds out hP he hdir hd he0 hd0 hkey hcv h hflat hmax hwork
  obtain ⟨⟨r, hr, rfl, -⟩, -⟩ := updateResult_of_feedAll cs he h
  rw [State.carry_eq_nil he0, List.nil_append, ← hkey, ← hcv] at hr
  obtain ⟨hlen, r', hr', hM⟩ := updateResult_roundTrip hP hdir (d.length_key c) (d.length_firstBytes .cv c.bs) hr
  have hne : ds ≠ [] := by
    rintro rfl
    exact absurd hwork c.bs_pos.not_ge
  have hstream : d.carry ++ ds.flatten = r.out := by rw [State.carry_eq_nil hd0, List.nil_append, hflat]
  have hfinal : c.bs ≤ finalWork c.bs d.pblen.toNat ds := by
    rw [hd0]
    exact hwork
  have halign : (d.carry ++ ds.flatten).length % c.bs = 0 := by
    rw [hstream, hlen]
    exact Nat.mul_mod_left _ _
  rw [← hstream] at hr'
  obtain ⟨u, hu, -⟩ := feedAll_of_updateResult (c := c.reversed) hd hne hmax (fun _ => ⟨halign, hfinal⟩) hr'
  exact ⟨u, hM ▸ hu⟩

end Sys2Proof.Machine
end

section
/-! PROOFS of the padding family (42_padding.md). The pad of a block is its length repeated and the strip reads the last byte
(O33 to O36); a successful final `UPDATE` leaves a finished session (O26). The sequencer runs along the micro-states `seqIter`
counts, where what is staged is read only for an `UPDATE` past its checks, so a run ends in the completion of its command
(O60). -/

namespace Sys2Proof.Machine

/-! ### The pad -/

/-- Settles O33, by arithmetic at the two block sizes. -/
theorem padLengthIsInOneToBlock : Obligations.PadLengthIsInOneToBlock := by
  unfold Obligations.PadLengthIsInOneToBlock padLength
  rintro rem bs (rfl | rfl)
  · omega
  · omega

/-- A pad byte holds the pad's length (R86). -/
theorem toNat_of_mem_drop_padApply {tail : List Byte} {bs : Nat} (hbs : bs < 256) {b : Byte}
    (hb : b ∈ (padApply tail bs).drop tail.length) : b.toNat = bs - tail.length := by
  rw [padApply, List.drop_left] at hb
  rw [List.eq_of_mem_replicate hb, BitVec.toNat_ofNat, Nat.mod_eq_of_lt (by omega)]

/-- Settles O34: the block is the tail and then the pad bytes. -/
theorem padBlockEndsInItsLength : Obligations.PadBlockEndsInItsLength := by
  unfold Obligations.PadBlockEndsInItsLength
  intro tail bs hbs htail
  refine ⟨length_padApply htail.le, List.take_left, fun b hb => toNat_of_mem_drop_padApply (by omega) hb, ?length, ?empty⟩
  case length => rw [padLength, Nat.mod_eq_of_lt htail]
  case empty =>
    rintro rfl
    rfl

/-- Settles O35: the strip reads the last byte and the output's length (R87), and neither depends on the bytes before (R88). -/
theorem stripTakesTheLastByte : Obligations.StripTakesTheLastByte := by
  unfold Obligations.StripTakesTheLastByte
  refine ⟨fun out bs o p => ?_, fun front front' last bs o p hlen h => ?_⟩
  · rw [padStrip_eq_some]
    constructor
    · rintro ⟨last, hlast, hp, hp1, hpbs, hplen, ho⟩
      obtain ⟨front, hout⟩ := List.getLast?_eq_some_iff.mp hlast
      exact ⟨front, last, hout, hp, Nat.pos_iff_ne_zero.mp hp1, hpbs, hplen, ho⟩
    · rintro ⟨front, last, hout, hp, hp0, hpbs, hplen, ho⟩
      exact ⟨last, List.getLast?_eq_some_iff.mpr ⟨front, hout⟩, hp, Nat.pos_iff_ne_zero.mpr hp0, hpbs, hplen, ho⟩
  · have hlen' : (front' ++ [last]).length = front'.length + 1 := List.length_append
    obtain ⟨last', hlast, hp, hp1, hpbs, hplen, -⟩ := padStrip_eq_some.mp h
    rw [List.getLast?_concat] at hlast
    rw [List.length_append, hlen] at hplen
    rw [← hlen']
    exact padStrip_eq_some.mpr ⟨last', hlast ▸ List.getLast?_concat, hp, hp1, hpbs, hlen' ▸ hplen, rfl⟩

/-- Settles O36: both block sizes fit the pad byte. -/
theorem stripUndoesPad : Obligations.StripUndoesPad := by
  unfold Obligations.StripUndoesPad
  intro front tail bs hbs htail
  exact padStrip_append_padApply htail (by omega)

/-! ### After the final chunk -/

theorem updateCheck_finished {s : State} {c : CipherSpec} (hs : s.session = .finished c) (len : Nat) (f : Bool) :
    updateCheck s len f = .error .usageError := by simp only [updateCheck, hs]

/-- Settles O26: the commit of a final `UPDATE` finishes the session, and the phase is the first check of the next one. -/
theorem nothingFollowsTheFinalChunk : Obligations.NothingFollowsTheFinalChunk := by
  unfold Obligations.NothingFollowsTheFinalChunk
  intro P s t len len' final' h herr
  obtain rfl := execWith_eq_next.mp h
  obtain ⟨c, r, -, -, -, -, ht⟩ := completeUpdate_success herr
  have hfinished : (completion P (.update len true) s).session = .finished c := by
    rw [completion, ht, State.finish_session, State.commit_session, if_pos rfl]
  exact execWith_eq_next.mpr (completeUpdate_of_updateCheck_error (updateCheck_finished hfinished len' final')).symm

/-! ### What is staged before the blocks -/

/-- A micro-state that reads nothing of what is staged: one before the blocks of an `UPDATE`, an abort, and every one of another
command, which at most hands it on (R91). -/
def StagedUnread (s : State) (q : SeqState) : Prop :=
  s.updateInFlight = none ∨ q = .decode ∨ q = .check ∨ ∃ e, q = .abort e

/-- Two micro-states of one command that differ at most in what is staged and not read. -/
structure Restaged (s : State) (n n' : SeqState × Staged) : Prop where
  seq : n.1 = n'.1
  staged : n.2 = n'.2 ∨ StagedUnread s n.1

theorem Restaged.refl (s : State) (n : SeqState × Staged) : Restaged s n n := ⟨rfl, .inl rfl⟩

theorem updateInFlight_of_not_update {s : State} {i : Instr} (hd : decodeWord s.cmd = .ok i)
    (hi : ∀ len f, i ≠ .update len f) : s.updateInFlight = none := by
  cases i with
  | update len f => exact absurd rfl (hi len f)
  | nop | init | close => simp only [State.updateInFlight, hd]

theorem restaged_seqDecode (s : State) (q : SeqState) (st st' : Staged) :
    Restaged s (seqDecode (s.moveSeq (q, st))) (seqDecode (s.moveSeq (q, st'))) := by
  simp only [seqDecode, State.moveSeq_cmd, State.moveSeq_staged]
  rcases decodeWord s.cmd with e | i
  · exact ⟨rfl, .inr (.inr (.inr (.inr ⟨_, rfl⟩)))⟩
  · exact ⟨rfl, .inr (.inr (.inr (.inl rfl)))⟩

/-- `Q_CHECK` moves on alike whatever is staged, and an `UPDATE` past its checks stages afresh (R91). -/
theorem restaged_seqCheck (P : Prim) (s : State) (q : SeqState) (st st' : Staged) :
    Restaged s (seqCheck P (s.moveSeq (q, st))) (seqCheck P (s.moveSeq (q, st'))) := by
  have hinit : ∀ x cipher d, initCheck P (s.moveSeq x) cipher d = initCheck P s cipher d := fun _ _ _ => rfl
  have hupdate : ∀ x len f, updateCheck (s.moveSeq x) len f = updateCheck s len f := fun _ _ _ => rfl
  simp only [seqCheck, State.moveSeq_cmd, State.moveSeq_staged, hinit, hupdate]
  rcases hd : decodeWord s.cmd with e | i
  · exact .refl s seqRestart
  cases i with
  | nop => exact ⟨rfl, .inr (.inl (updateInFlight_of_not_update hd nofun))⟩
  | close => exact ⟨rfl, .inr (.inl (updateInFlight_of_not_update hd nofun))⟩
  | init cipher m d v =>
    dsimp only
    rcases initCheck P s cipher d with e | c
    · exact ⟨rfl, .inr (.inr (.inr (.inr ⟨e, rfl⟩)))⟩
    · exact ⟨rfl, .inr (.inl (updateInFlight_of_not_update hd nofun))⟩
  | update len f =>
    dsimp only
    rcases updateCheck s len f with e | c
    · exact ⟨rfl, .inr (.inr (.inr (.inr ⟨e, rfl⟩)))⟩
    · exact .refl s _

/-- In the micro-states of an `UPDATE` past its checks, what is staged goes unread for want of such an `UPDATE` alone. -/
theorem StagedUnread.updateInFlight_eq_none {s : State} {q : SeqState} (h : StagedUnread s q) (hdecode : q ≠ .decode)
    (hcheck : q ≠ .check) (habort : ∀ e, q ≠ .abort e) : s.updateInFlight = none :=
  h.resolve_right fun h => h.elim hdecode fun h => h.elim hcheck fun ⟨e, h⟩ => habort e h

/-- Without an `UPDATE` of an open session the micro-states past its checks go back to `Q_DECODE` (R91; log 11). -/
theorem seqNext_eq_seqRestart (P : Prim) {s : State} (hnone : s.updateInFlight = none) {q : SeqState} (st : Staged)
    (hq : (∃ j, q = .block j) ∨ q = .tail ∨ q = .pad ∨ q = .unpad) : seqNext P (s.moveSeq (q, st)) = seqRestart := by
  have hnone' : (s.moveSeq (q, st)).updateInFlight = none := hnone
  obtain ⟨j, rfl⟩ | rfl | rfl | rfl := hq
  · simp only [seqNext, State.moveSeq_seq, seqBlock, hnone']
  · simp only [seqNext, State.moveSeq_seq, seqTail, hnone']
  · simp only [seqNext, State.moveSeq_seq, seqPad, hnone']
  · simp only [seqNext, State.moveSeq_seq, seqUnpad, hnone']

/-- The micro-states after two that differ in what is not read differ in what is not read (R91). -/
theorem Restaged.seqNext {s : State} {n n' : SeqState × Staged} (h : Restaged s n n') (P : Prim) :
    Restaged s (seqNext P (s.moveSeq n)) (seqNext P (s.moveSeq n')) := by
  obtain ⟨q, st⟩ := n
  obtain ⟨q', st'⟩ := n'
  obtain ⟨rfl, rfl | hun⟩ := h
  · exact .refl s _
  have hrestart (hq : (∃ j, q = .block j) ∨ q = .tail ∨ q = .pad ∨ q = .unpad) (hu : s.updateInFlight = none) :
      Restaged s (Machine.seqNext P (s.moveSeq (q, st))) (Machine.seqNext P (s.moveSeq (q, st'))) := by
    rw [seqNext_eq_seqRestart P hu st hq, seqNext_eq_seqRestart P hu st' hq]
    exact .refl s _
  cases q with
  | idle => exact ⟨rfl, .inr (.inr (.inl rfl))⟩
  | decode => exact restaged_seqDecode s _ st st'
  | check => exact restaged_seqCheck P s _ st st'
  | block j => exact hrestart (.inl ⟨j, rfl⟩) (hun.updateInFlight_eq_none nofun nofun nofun)
  | tail => exact hrestart (.inr (.inl rfl)) (hun.updateInFlight_eq_none nofun nofun nofun)
  | pad => exact hrestart (.inr (.inr (.inl rfl))) (hun.updateInFlight_eq_none nofun nofun nofun)
  | unpad => exact hrestart (.inr (.inr (.inr rfl))) (hun.updateInFlight_eq_none nofun nofun nofun)
  | commit => exact ⟨rfl, .inr (.inl (hun.updateInFlight_eq_none nofun nofun nofun))⟩
  | abort e => exact .refl s _
  | done code => exact ⟨rfl, .inr (.inl (hun.updateInFlight_eq_none nofun nofun nofun))⟩

/-- A failing completion reads no micro-state (R108). -/
theorem seqFail_moveSeq (s : State) (n : SeqState × Staged) (e : CmdError) : seqFail (s.moveSeq n) e = seqFail s e := by
  simp only [seqFail, State.moveSeq_cmd]
  rcases decodeWord s.cmd with e' | i
  · rfl
  · cases i <;> rfl

/-- A successful completion of another command than an `UPDATE` reads no micro-state (R91, R108). -/
theorem seqSucceed_moveSeq {s : State} (hnone : s.updateInFlight = none) (n : SeqState × Staged) :
    seqSucceed (s.moveSeq n) = seqSucceed s := by
  simp only [seqSucceed, State.moveSeq_cmd, State.moveSeq_session]
  rcases hd : decodeWord s.cmd with e | i
  · rfl
  cases i with
  | nop => rfl
  | close => rfl
  | init cipher m d v =>
    dsimp only
    rcases tagOf cipher with - | c
    · rfl
    · rfl
  | update len f =>
    dsimp only
    rcases hs : s.session.cfg? with - | c
    · rfl
    · simp [State.updateInFlight, hd, hs] at hnone

/-- A completing micro-step leaves the same state whatever is staged and not read (R91, R108). -/
theorem Restaged.microStep_done {s : State} {code : Option CmdError} {st st' : Staged}
    (h : Restaged s (.done code, st) (.done code, st')) (P : Prim) :
    microStep P (s.moveSeq (.done code, st)) = microStep P (s.moveSeq (.done code, st')) := by
  cases code with
  | some e => exact (seqFail_moveSeq s _ e).trans (seqFail_moveSeq s _ e).symm
  | none =>
    obtain ⟨-, hst | hun⟩ := h
    · exact congrArg (fun x => microStep P (s.moveSeq (.done none, x))) hst
    · have hnone := hun.updateInFlight_eq_none nofun nofun nofun
      exact (seqSucceed_moveSeq hnone _).trans (seqSucceed_moveSeq hnone _).symm

/-! ### Runs of micro-steps -/

theorem State.commit_moveSeq_finish (s : State) (n : SeqState × Staged) (c : CipherSpec) (r : Staged) (f : Bool)
    (code : Option CmdError) : ((s.moveSeq n).commit c r f).finish code = (s.commit c r f).finish code := by
  cases hm : c.mode <;> simp only [State.commit, State.commitCv, hm] <;> rfl

/-- The completion reads no micro-state and overwrites it (R108; log 12). -/
theorem completeWith_moveSeq (s : State) (n : SeqState × Staged) : completeWith exec (s.moveSeq n) = completeWith exec s := by
  simp only [completeWith_exec, State.moveSeq_cmd]
  rcases decodeWord s.cmd with e | i
  · rfl
  cases i with
  | nop => rfl
  | close => rfl
  | init cipher m d v =>
    have hcheck : initCheck Config.PRIM (s.moveSeq n) cipher d = initCheck Config.PRIM s cipher d := rfl
    simp only [completion, completeInit, runInit, hcheck]
    rcases initCheck Config.PRIM s cipher d with e | c
    · rfl
    · rfl
  | update len f =>
    have hcheck : updateCheck (s.moveSeq n) len f = updateCheck s len f := rfl
    have hkey : ∀ c, (s.moveSeq n).key c = s.key c := fun _ => rfl
    have hwork : (s.moveSeq n).workString len = s.workString len := rfl
    simp only [completion, completeUpdate, runUpdate, hcheck, hkey, hwork, State.firstBytes_moveSeq]
    rcases updateCheck s len f with e | c
    · rfl
    dsimp only
    rcases updateResult Config.PRIM c (s.key c) (s.workString len) (s.firstBytes .cv c.bs) f with e | r
    · rfl
    · exact congrArg Host.Outcome.next (s.commit_moveSeq_finish n c r f none)

/-- The state with another agenda. -/
def State.withAgenda (s : State) (l : List Event) : State := { s with agenda := l }

/-- `k` micro-steps of the command in flight end in the state of its atomic completion step (R91). -/
def CompletesIn (s : State) (k : Nat) : Prop :=
  Host.Core.run Sys2Proof.core k (s.withAgenda (List.replicate k .sequencer)) = step (s.withAgenda [.complete])

section
variable {s : State} (hf : s.inFlight = true)
include hf

theorem step_withAgenda_sequencer (l : List Event) :
    step (s.withAgenda (.sequencer :: l)) = .next (microStep Config.PRIM (s.withAgenda l)) :=
  step_sequencer (s := s.withAgenda (.sequencer :: l)) hf rfl

theorem step_withAgenda_complete : step (s.withAgenda [.complete]) = completeWith exec (s.withAgenda []) :=
  step_complete (s := s.withAgenda [.complete]) hf rfl

theorem completesIn_one (h : .next (microStep Config.PRIM (s.withAgenda [])) = completeWith exec (s.withAgenda [])) :
    CompletesIn s 1 :=
  (run_succ_of_step (step_withAgenda_sequencer hf []) 0).trans (h.trans (step_withAgenda_complete hf).symm)

/-- A micro-step short of `Q_DONE` and then the run from the next micro-state. -/
theorem CompletesIn.of_moveSeq {k : Nat} (hq : ∀ code, s.seq ≠ .done code)
    (h : CompletesIn (s.moveSeq (seqNext Config.PRIM s)) k) : CompletesIn s (k + 1) := by
  have hstep : step (s.withAgenda (List.replicate (k + 1) .sequencer)) =
      .next ((s.moveSeq (seqNext Config.PRIM s)).withAgenda (List.replicate k .sequencer)) :=
    (step_withAgenda_sequencer hf _).trans (congrArg _ (microStep_not_done hq))
  have hcomplete : step ((s.moveSeq (seqNext Config.PRIM s)).withAgenda [.complete]) = step (s.withAgenda [.complete]) :=
    (step_withAgenda_complete (s := s.moveSeq _) hf).trans
      ((completeWith_moveSeq (s.withAgenda []) _).trans (step_withAgenda_complete hf).symm)
  exact (run_succ_of_step hstep k).trans (h.trans hcomplete)

end

section
variable {s : State} {j d : Nat} {code : Option CmdError} {st : Staged} (hf : s.inFlight = true)
  (hj : Restaged s (s.seq, s.staged) (seqIter Config.PRIM s j)) (hd : seqIter Config.PRIM s (j + d) = (.done code, st))
  (hm : .next (microStep Config.PRIM ((s.withAgenda []).moveSeq (.done code, st))) = completeWith exec (s.withAgenda []))
include hf hj hd hm

/-- In `Q_DONE` the next micro-step completes the command: the micro-states it reaches end in one `Q_DONE`. -/
theorem completesIn_one_of_done {code' : Option CmdError} (hq : s.seq = .done code') : CompletesIn s 1 := by
  have hreached : seqIter Config.PRIM s j = (.done code', (seqIter Config.PRIM s j).2) := Prod.ext (hj.seq.symm.trans hq) rfl
  have hlast := (seqIter_done hreached d).symm.trans hd
  rw [hreached, hlast, hq] at hj
  obtain rfl : code' = code := SeqState.done.inj hj.seq
  have hself : (s.withAgenda []).moveSeq (.done code', s.staged) = s.withAgenda [] := by
    rw [← hq]
    rfl
  have hsame : Restaged (s.withAgenda []) (.done code', s.staged) (.done code', st) := ⟨hj.seq, hj.staged⟩
  refine completesIn_one hf ?_
  rw [← hm, ← hsame.microStep_done, hself]

/-- From a micro-state the command reaches, up to what is not read, a run is at most as long as the way to `Q_DONE` and one more
micro-step. -/
theorem exists_completesIn : ∃ k, k ≤ d + 1 ∧ CompletesIn s k := by
  induction d generalizing s j with
  | zero => exact ⟨1, le_rfl, completesIn_one_of_done hf hj hd hm (hj.seq.trans (congrArg Prod.fst hd))⟩
  | succ d ih =>
    by_cases hq : ∃ code', s.seq = .done code'
    · obtain ⟨code', hq⟩ := hq
      exact ⟨1, by omega, completesIn_one_of_done hf hj hd hm hq⟩
    · have hiter : ∀ i, seqIter Config.PRIM (s.moveSeq (seqNext Config.PRIM s)) i = seqIter Config.PRIM s i :=
        seqIter_congr Config.PRIM _ s fun _ => rfl
      have hnext := hj.seqNext Config.PRIM
      rw [← seqIter_succ, ← hiter] at hnext
      obtain ⟨k, hk, hrun⟩ := ih (s := s.moveSeq (seqNext Config.PRIM s)) (j := j + 1) hf ⟨hnext.seq, hnext.staged⟩
        (by rw [hiter, Nat.add_right_comm]; exact hd) (hm.trans (completeWith_moveSeq (s.withAgenda []) _).symm)
      exact ⟨k + 1, Nat.succ_le_succ hk, hrun.of_moveSeq hf (not_exists.mp hq)⟩

end

/-- From acceptance, as from a state of the invariant, the micro-state is one the command reaches, up to what is not read. -/
theorem exists_restaged_seqIter {s : State} (hf : s.inFlight = true) (hs : s.seq = .decode ∨ Inv s) :
    ∃ j, Restaged s (s.seq, s.staged) (seqIter Config.PRIM s j) := by
  rcases hs with hq | hinv
  · exact ⟨0, hq, .inr (.inr (.inl hq))⟩
  · obtain ⟨j, hj⟩ := hinv.seqReached (State.inFlight_eq_true.mp hf).1
    exact ⟨j, hj ▸ .refl s _⟩

/-- Settles O60: `Q_DONE` is at most 137 micro-steps from `Q_DECODE`, so from any micro-state the command reaches. -/
theorem sequencerRefinesTheCompletionStep : Obligations.SequencerRefinesTheCompletionStep := by
  unfold Obligations.SequencerRefinesTheCompletionStep
  intro s hf hs
  obtain ⟨j, hj⟩ := exists_restaged_seqIter hf hs
  obtain ⟨n, code, st, hn, hdone, hm⟩ := seqIter_completes Config.PRIM (s.withAgenda [])
  have hd : seqIter Config.PRIM s (j + (n - j)) = (.done code, st) := by
    rw [show j + (n - j) = n + (j - n) by omega, seqIter_congr Config.PRIM s (s.withAgenda []) fun _ => rfl]
    exact seqIter_done hdone _
  have hcompletes : .next (microStep Config.PRIM ((s.withAgenda []).moveSeq (.done code, st))) =
      completeWith exec (s.withAgenda []) := by rw [completeWith_exec, hm]
  obtain ⟨k, hk, hrun⟩ := exists_completesIn hf hj hd hcompletes
  exact ⟨k, by omega, hrun⟩

end Sys2Proof.Machine
end

section
/-! PROOFS of the registry family (43_registry.md). The conditioned key byte by byte, and the staged bytes it depends on (R96). -/

namespace Sys2Proof.Machine

/-! ### The conditioned key -/

/-- A byte of the conditioned key from staged material that reaches the key size (R96). -/
theorem getD_condKey {l : List Byte} {n k i : Nat} (hl : k ≤ l.length) (hi : i < k) :
    (condKey l n k).getD i 0 = if i < min n k then l.getD i 0 else 0 := by
  have hlen : (l.take (min n k)).length = min n k := by simp; omega
  unfold condKey
  split
  next hused =>
    rw [List.getD_append _ _ _ _ (by omega), List.getD_eq_getElem?_getD, List.getElem?_take_of_lt hused,
      List.getD_eq_getElem?_getD]
  next hpad => rw [List.getD_append_right _ _ _ _ (by omega), List.getD_replicate _ (by omega)]

/-- Only the first `KEYLEN` staged bytes count (R96). -/
theorem condKey_take (l : List Byte) (n k : Nat) : condKey (l.take n) n k = condKey l n k := by
  simp [condKey, List.take_take]

/-- Settles O15: the staged bytes reach every key size, and both materials have the same first `KEYLEN` bytes. -/
theorem keyIsTruncatedOrZeroPadded : Obligations.KeyIsTruncatedOrZeroPadded := by
  unfold Obligations.KeyIsTruncatedOrZeroPadded
  intro material keylen c hlen
  have hks : keySize c ≤ material.length := hlen ▸ keySize_le c
  refine ⟨length_condKey _ _ _ hks, fun i hi => getD_condKey hks hi, fun material' htake => ?_⟩
  rw [← condKey_take material', htake, condKey_take]

end Sys2Proof.Machine
end

section
/-! PROOFS of the primitive adapter family (44_primitive_adapter.md). `exec` and `step` are the completion step and the step at
`Config.PRIM` (O7). An `ok` answer is cut to the block size (O31). A request on the port names its tag, key and block by buses
that unpack to what was packed, so serving it is the primitive's own call (O32). -/

namespace Sys2Proof.Machine

/-! ### The primitive parameter -/

/-- Settles O7: each command's arm is its completion, and `step` is built from `exec` as `stepWith` is from `execWith`. -/
theorem execIsTheCompletionAtPrim : Obligations.ExecIsTheCompletionAtPrim := by
  unfold Obligations.ExecIsTheCompletionAtPrim
  have hexec : exec = execWith Config.PRIM := funext₂ exec_eq_execWith
  exact ⟨exec_eq_execWith, fun s => by rw [step, stepWith, hexec]⟩

/-- Settles O31: the adapter cuts the port's 16 bytes to the block size, and the key check answers tag 0 itself. -/
theorem primitiveAnswersWholeBlocks : Obligations.PrimitiveAnswersWholeBlocks := by
  unfold Obligations.PrimitiveAnswersWholeBlocks
  exact fun P c k x y => ⟨Prim.length_encBlock, Prim.length_decBlock, fun d => rfl⟩

/-! ### The port -/

/-- The primitive's 16-byte answer in the session's direction, before the adapter cuts it to the block size (R100, R106). -/
def dirAnswer (P : Prim) (c : CipherSpec) (k x : List Byte) : Option (Vector Byte 16) :=
  match c.dir with
  | .encrypt => P.enc c.cipher k x
  | .decrypt => P.dec c.cipher k x

theorem dirBlock_eq_map (P : Prim) (c : CipherSpec) (k x : List Byte) :
    dirBlock P c k x = (dirAnswer P c k x).map fun y => y.toList.take c.bs := by
  unfold dirBlock dirAnswer
  cases c.dir <;> rfl

/-- A string that fits its bus is read back whole (R106). -/
theorem unpackBytes_packBytes_self {n : Nat} {l : List Byte} {m : Nat} (h : 8 * m ≤ n) (hl : l.length = m) :
    unpackBytes (packBytes n l) m = l := by
  rw [unpackBytes_packBytes n l m h hl.ge, List.take_of_length_le hl.le]

/-- The session's key and the block on the buses reach the primitive's function of the session's direction (R102, R106). -/
theorem serve_blockRequest {P : Prim} {c : CipherSpec} {skey x : List Byte} (hk : c.ks ≤ skey.length)
    (hx : x.length = c.bs) :
    Prim.serve P (blockRequest c skey x) = blockAnswer (dirAnswer P c (skey.take c.ks) x) := by
  have hkey : unpackBytes (packBytes 256 skey) (keySize c.cipher) = skey.take c.ks :=
    unpackBytes_packBytes _ _ _ (Nat.mul_le_mul_left 8 c.ks_le) hk
  have hinput : unpackBytes (packBytes 128 x) (blockSize c.cipher) = x :=
    unpackBytes_packBytes_self (Nat.mul_le_mul_left 8 c.bs_le) hx
  cases hd : c.dir with
  | encrypt => simp only [Prim.serve, blockRequest, dirAnswer, hd, tagOf_tagNum, hkey, hinput]; rfl
  | decrypt => simp only [Prim.serve, blockRequest, dirAnswer, hd, tagOf_tagNum, hkey, hinput]; rfl

/-- What the session reads from the answer of a block call: the first `m` bytes of `p_out`, or the failure (R106). -/
theorem blockAnswer_read (y : Option (Vector Byte 16)) {m : Nat} (hm : m ≤ 16) :
    (if (blockAnswer y).ok then some (unpackBytes (blockAnswer y).out m) else none) =
      y.map fun v => v.toList.take m := by
  cases y with
  | none => rfl
  | some v =>
    have hout : unpackBytes (packBytes 128 v.toList) m = v.toList.take m :=
      unpackBytes_packBytes _ _ _ (Nat.mul_le_mul_left 8 hm) (by simpa using hm)
    simp [blockAnswer, hout]

/-- The key check on the port is the primitive's, in the direction `p_dir` names (R106). -/
theorem serve_keyRequest {P : Prim} {c : Tag} {d : Dir} {k : List Byte} (hk : k.length = keySize c) :
    Prim.serve P (keyRequest c d k) = ⟨Prim.keyAccepted P c d k, 0⟩ := by
  have hkey : unpackBytes (packBytes 256 k) (keySize c) = k :=
    unpackBytes_packBytes_self (Nat.mul_le_mul_left 8 (keySize_le c)) hk
  simp only [Prim.serve, keyRequest, tagOf_tagNum, hkey, if_true]
  cases d <;> rfl

/-- Settles O32: the request unpacks to the session's key and block, and the answer's first bytes are the primitive's. -/
theorem portCarriesThePrimitiveCalls : Obligations.PortCarriesThePrimitiveCalls := by
  unfold Obligations.PortCarriesThePrimitiveCalls
  refine ⟨fun P c skey x hx => ?block, fun P c d k hk => congrArg PortResponse.ok (serve_keyRequest hk)⟩
  have hk : c.ks ≤ skey.toList.length := by simpa using c.ks_le
  rw [serve_blockRequest hk hx, blockAnswer_read _ c.bs_le, ← dirBlock_eq_map]
  rfl

end Sys2Proof.Machine
end

section
/-! PROOFS of the exceptions family (60_exceptions.md). A step is the completion of the command in flight or, with none in
flight, nothing (O8). A completion whose code is an error is the completion rule alone, with the scrub of `KEYSTAGE` for `INIT`
(O9, O10), and the code is that of the first check that fails (O11). Every event but that of a silent primitive answers a next
state and takes itself off the agenda (O58). -/

namespace Sys2Proof.Machine

/-! ### The step of the command in flight -/

/-- The step of a completion event while a decoded command is in flight (R108; log 1). -/
theorem step_eq_exec_of_complete {s : State} {i : Instr} {rest : List Event} (hf : s.inFlight = true)
    (ha : s.agenda = .complete :: rest) (hd : decodeWord s.cmd = .ok i) : step s = exec i { s with agenda := rest } := by
  rw [step_complete hf ha]
  simp only [completeWith, hd]

/-- With no command in flight and nothing on the agenda the SCSC is quiescent (R120). -/
theorem step_eq_self_of_agenda_nil {s : State} (hf : s.inFlight = false) (ha : s.agenda = []) : step s = .next s := by
  simp only [step, advance, ha, sequencerTurn, hf, Bool.false_eq_true, if_false]

/-- With no command in flight a turn of the sequencer only leaves the agenda (R108, R120; log 1). -/
theorem step_of_not_inFlight {s : State} {rest : List Event} (hf : s.inFlight = false)
    (ha : s.agenda = .complete :: rest ∨ s.agenda = .sequencer :: rest) : step s = .next { s with agenda := rest } := by
  have hf' : State.inFlight { s with agenda := rest } = false := hf
  rcases ha with ha | ha <;>
    simp only [step, advance, ha, eventStep, sequencerTurn, hf', Bool.false_eq_true, if_false]

theorem ofNat_toNat_mod (w : Word) : BitVec.ofNat 32 (w.toNat % 2 ^ 32) = w := by
  rw [Nat.mod_eq_of_lt w.isLt, BitVec.ofNat_toNat, BitVec.setWidth_eq]

theorem State.withFetchWord_of_agenda_nil {s : State} (ha : s.agenda = []) (w : Word) :
    s.withFetchWord 32 w.toNat = { s.accept w with rst := false } := by
  simp only [State.withFetchWord, ofNat_toNat_mod, State.accept_agenda, ha]

theorem State.withFetchWord_of_agenda_cons {s : State} {e : Event} {rest : List Event} (ha : s.agenda = e :: rest)
    (w : Word) : s.withFetchWord 32 w.toNat = { s.accept w with rst := false, agenda := .complete :: s.agenda } := by
  simp only [State.withFetchWord, ofNat_toNat_mod, ha]

/-- The step from a word placed by `withFetchWord` is the command's, whatever the agenda holds (log 13). -/
theorem step_withFetchWord {s : State} {w : Word} {i : Instr} (hd : decodeWord w = .ok i) :
    step (s.withFetchWord 32 w.toNat) = exec i { s.accept w with rst := false } := by
  cases ha : s.agenda with
  | nil =>
    rw [State.withFetchWord_of_agenda_nil ha]
    exact step_eq_exec_of_agenda_nil rfl ha hd
  | cons e rest =>
    rw [State.withFetchWord_of_agenda_cons ha]
    exact step_eq_exec_of_complete rfl rfl hd

/-- Settles O8, by what is next on the agenda. -/
theorem stepRunsTheCommandInFlight : Obligations.StepRunsTheCommandInFlight := by
  unfold Obligations.StepRunsTheCommandInFlight
  exact ⟨fun s i hf hd => ⟨fun ha => step_eq_exec_of_agenda_nil hf ha hd, fun rest ha => step_eq_exec_of_complete hf ha hd⟩,
    fun s hf => ⟨step_eq_self_of_agenda_nil hf, fun rest => step_of_not_inFlight hf⟩,
    fun s w i => step_withFetchWord⟩

/-! ### The interrupt -/

theorem State.irq_of_rst {s : State} (h : s.rst = false) : s.irq = ((s.done && s.doneIe) || (s.ovr && s.ovrIe)) := by
  simp only [State.irq, h, Bool.not_false, Bool.true_and]

/-- Settles O53: a `STATUS` write changes the two pending bits alone, an `IE` write the two enables. -/
theorem interruptFollowsStatusAndEnables : Obligations.InterruptFollowsStatusAndEnables := by
  unfold Obligations.InterruptFollowsStatusAndEnables
  refine fun s hrst => ⟨State.irq_of_rst hrst, fun w => ?status, fun w => State.irq_of_rst hrst⟩
  case status =>
    have hpending (b p : Bool) : (p && !b) = if b then false else p := by
      rw [Bool.if_false_left, Bool.decide_eq_true, Bool.and_comm]
    rw [hpending, hpending]
    exact State.irq_of_rst hrst

/-! ### Every command completes -/

/-- Settles O9, from what no completion writes. -/
theorem everyCommandCompletes : Obligations.EveryCommandCompletes := by
  unfold Obligations.EveryCommandCompletes
  exact fun i s => ⟨_, exec_eq i s, completion_done _ i s, completion_busy _ i s, completion_frame _ i s⟩

/-! ### Errors are precise -/

/-- A command that completes with an error only completes, and an `INIT` scrubs `KEYSTAGE` too (R109). -/
theorem completion_of_err_ne_none {P : Prim} {i : Instr} {s : State} (h : (completion P i s).err ≠ none) :
    ∃ e, completion P i s = s.finish (some e) ∨
      ((∃ c m d v, i = .init c m d v) ∧ completion P i s = (s.finish (some e)).scrubKeystage) := by
  cases i with
  | nop => exact absurd rfl h
  | close => exact absurd rfl h
  | init c m d v =>
    rcases completeInit_cases P c m d v s with ⟨e, -, he⟩ | ⟨t, -, ht⟩
    · exact ⟨e, .inr ⟨⟨c, m, d, v, rfl⟩, he⟩⟩
    · exact absurd (congrArg State.err ht) h
  | update len f =>
    rcases completeUpdate_cases P len f s with ⟨e, -, he⟩ | ⟨c, -, ⟨e, -, he⟩ | ⟨r, -, hr⟩⟩
    · exact ⟨e, .inl he⟩
    · exact ⟨e, .inl he⟩
    · exact absurd (congrArg State.err hr) h

/-- Settles O10, by the two forms of a failed completion; an illegal word's is the rejection. -/
theorem failedCommandChangesNothingElse : Obligations.FailedCommandChangesNothingElse := by
  unfold Obligations.FailedCommandChangesNothingElse
  constructor
  · intro i s t ht herr
    obtain rfl := exec_eq_next.mp ht
    obtain ⟨e, he | ⟨⟨c, m, d, v, rfl⟩, he⟩⟩ := completion_of_err_ne_none herr <;> rw [he]
    · exact ⟨rfl, fun _ => rfl, fun _ _ => rfl⟩
    · exact ⟨rfl, fun hinit => absurd rfl (hinit c m d v), State.read_clearArr_other (s.finish (some e)) .keystage⟩
  · rintro s t ⟨e, he⟩ ht
    rw [completeWith_exec, he] at ht
    exact (Host.Outcome.next.inj ht).symm

/-! ### The first failing check of INIT -/

/-- An `INIT` whose checks fail completes with the error of the check (R63, R109). -/
theorem completeInit_of_initCheck_error {P : Prim} {s : State} {cipher : Nat} {d : Dir} {e : CmdError}
    (h : initCheck P s cipher d = .error e) (m : Mode) (v : Bool) :
    completeInit P cipher m d v s = (s.finish (some e)).scrubKeystage := by
  simp only [completeInit, runInit, h, State.conclude_error]

theorem initPreCheck_of_session_ne_idle {s : State} (hs : s.session ≠ .idle) (cipher : Nat) :
    initPreCheck s cipher = .error .usageError := by
  cases hx : s.session with
  | idle => exact absurd hx hs
  | active c => simp only [initPreCheck, hx]
  | finished c => simp only [initPreCheck, hx]

theorem initPreCheck_unsupported {s : State} {cipher : Nat} (hs : s.session = .idle) (ht : tagOf cipher = none) :
    initPreCheck s cipher = .error .unsupportedAlgorithm := by
  simp only [initPreCheck, hs, ht]

theorem initPreCheck_keylen {s : State} {cipher : Nat} {c : Tag} (hs : s.session = .idle) (ht : tagOf cipher = some c) :
    initPreCheck s cipher = if s.keylen = 0 then .error .invalidKeyMaterial else .ok c := by
  simp only [initPreCheck, hs, ht]

/-- The first failing check of `INIT` before the primitive is asked is its outcome (R111). -/
theorem completeInit_err_of_preCheck {P : Prim} {s : State} {cipher : Nat} {e : CmdError}
    (h : initPreCheck s cipher = .error e) (m : Mode) (d : Dir) (v : Bool) :
    (completeInit P cipher m d v s).err = some e := by
  rw [completeInit_of_initCheck_error (e := e) (by simp only [initCheck, h])]
  rfl

/-- After the checks before it the primitive's key check decides the outcome of `INIT` (R111). -/
theorem completeInit_err_of_keyCheck {P : Prim} {s : State} {cipher : Nat} {c : Tag} {d : Dir}
    (h : initPreCheck s cipher = .ok c) (m : Mode) (v : Bool) :
    (completeInit P cipher m d v s).err =
      if Prim.keyAccepted P c d (s.stagedKey c) = false then some .invalidKeyMaterial else none := by
  cases hk : Prim.keyAccepted P c d (s.stagedKey c) with
  | false =>
    rw [completeInit_of_initCheck_error (e := .invalidKeyMaterial) (by simp [initCheck, h, hk])]
    rfl
  | true =>
    rw [completeInit_of_initCheck_ok (c := c) (by simp [initCheck, h, hk])]
    rfl

/-! ### The first failing check of UPDATE -/

theorem updateCheck_idle {s : State} (hs : s.session = .idle) (len : Nat) (f : Bool) :
    updateCheck s len f = .error .usageError := by simp only [updateCheck, hs]

theorem updateCheck_tooLong {s : State} {c : CipherSpec} {len : Nat} (hs : s.session = .active c) (hl : 1024 < len)
    (f : Bool) : updateCheck s len f = .error .chunkTooLong := by
  simp only [updateCheck, hs]
  exact if_pos hl

/-- An `UPDATE` fails with the error of its checks (R111). -/
theorem completeUpdate_err_of_check {P : Prim} {s : State} {len : Nat} {f : Bool} {e : CmdError}
    (h : updateCheck s len f = .error e) : (completeUpdate P len f s).err = some e := by
  rw [completeUpdate_of_updateCheck_error h]
  rfl

/-- The code of a staged result: none, or that of the failure in the blocks or the padding (R111). -/
def resultCode : Except CmdError Staged → Option CmdError
  | .ok _ => none
  | .error e => some e

/-- The code of an `UPDATE` whose checks pass is that of its result (R67, R111). -/
theorem completeUpdate_err_of_result {P : Prim} {s : State} {c : CipherSpec} {len : Nat} {f : Bool}
    (h : updateCheck s len f = .ok c) : (completeUpdate P len f s).err =
      resultCode (updateResult P c (s.key c) (s.workString len) (s.firstBytes .cv c.bs) f) := by
  rcases completeUpdate_cases P len f s with ⟨e, he, -⟩ | ⟨c', hc, ⟨e, hr, ht⟩ | ⟨r, hr, ht⟩⟩
  · cases h.symm.trans he
  · cases h.symm.trans hc
    rw [ht, hr]
    rfl
  · cases h.symm.trans hc
    rw [ht, hr]
    rfl

theorem resultCode_updateResult_of_runBlocks_none {P : Prim} {c : CipherSpec} {k T cv : List Byte}
    (h : runBlocks P c k T cv (T.length / c.bs) = none) (f : Bool) :
    resultCode (updateResult P c k T cv f) = some .primitiveFailure := by
  simp only [updateResult, blockCount, h, resultCode]

section
variable {P : Prim} {c : CipherSpec} {k T cv out v : List Byte}
  (h : runBlocks P c k T cv (T.length / c.bs) = some (out, v))
include h

theorem resultCode_updateResult_false : resultCode (updateResult P c k T cv false) = none := by
  rw [updateResult_eq_ok_iff.mpr ⟨out, v, h, tailResult_carry_iff.mpr rfl⟩]
  rfl

theorem resultCode_updateResult_encrypt (hd : c.dir = .encrypt) : resultCode (updateResult P c k T cv true) =
    if xform P c k (padApply (tailOf T c.bs) c.bs) v = none then some .primitiveFailure else none := by
  simp only [updateResult, blockCount, h, tailResult, if_true, hd, padResult]
  cases xform P c k (padApply (tailOf T c.bs) c.bs) v <;> rfl

theorem resultCode_updateResult_decrypt (hd : c.dir = .decrypt) : resultCode (updateResult P c k T cv true) =
    if padStrip out c.bs = none then some .invalidPadding else none := by
  simp only [updateResult, blockCount, h, tailResult, if_true, hd, stripResult]
  cases padStrip out c.bs <;> rfl

end

/-- Settles O11, by the checks of each command in the order they are made. -/
theorem errorCodeIsTheFirstFailingCheck : Obligations.ErrorCodeIsTheFirstFailingCheck := by
  unfold Obligations.ErrorCodeIsTheFirstFailingCheck
  intro s
  refine ⟨_, completeWith_exec s, ?_⟩
  rcases decodeWord s.cmd with e | i
  · rfl
  cases i with
  | nop => rfl
  | close => rfl
  | init cipher mode dir ivsrc =>
    dsimp only [completion]
    by_cases hs : s.session = .idle
    · rw [if_neg (not_not.mpr hs)]
      cases ht : tagOf cipher with
      | none => exact completeInit_err_of_preCheck (initPreCheck_unsupported hs ht) mode dir ivsrc
      | some c =>
        dsimp only
        have hpre := initPreCheck_keylen hs ht
        by_cases hk : s.keylen = 0
        · rw [if_pos hk] at hpre
          rw [if_pos hk]
          exact completeInit_err_of_preCheck hpre mode dir ivsrc
        · rw [if_neg hk] at hpre
          rw [if_neg hk, completeInit_err_of_keyCheck hpre]
          split <;> rfl
    · rw [if_pos hs]
      exact completeInit_err_of_preCheck (initPreCheck_of_session_ne_idle hs cipher) mode dir ivsrc
  | update len final =>
    dsimp only [completion]
    cases hs : s.session with
    | idle => exact completeUpdate_err_of_check (updateCheck_idle hs len final)
    | finished c => exact completeUpdate_err_of_check (updateCheck_finished hs len final)
    | active c =>
      dsimp only
      split_ifs with hl hm
      · exact completeUpdate_err_of_check (updateCheck_tooLong hs hl final)
      · obtain ⟨rfl, hd, hr⟩ := hm
        exact completeUpdate_err_of_check (updateCheck_misaligned hs hd (not_lt.mp hl) hr)
      · rw [completeUpdate_err_of_result (updateCheck_ok.mpr ⟨hs, not_lt.mp hl, hm⟩), ← s.length_workString len]
        cases hb : runBlocks Config.PRIM c (s.key c) (s.workString len) (s.firstBytes .cv c.bs)
            ((s.workString len).length / c.bs) with
        | none => exact resultCode_updateResult_of_runBlocks_none hb final
        | some x =>
          obtain ⟨out, v⟩ := x
          cases final with
          | false => exact resultCode_updateResult_false hb
          | true =>
            cases hd : c.dir with
            | encrypt =>
              rw [resultCode_updateResult_encrypt hb hd]
              dsimp only
              split <;> rfl
            | decrypt =>
              rw [resultCode_updateResult_decrypt hb hd]
              dsimp only
              split <;> rfl

/-! ### No run stops -/

theorem seqFail_agenda (s : State) (e : CmdError) : (seqFail s e).agenda = s.agenda := by
  unfold seqFail
  rcases decodeWord s.cmd with e' | i
  · rfl
  · cases i <;> rfl

theorem seqSucceed_agenda (s : State) : (seqSucceed s).agenda = s.agenda := by
  unfold seqSucceed
  rcases decodeWord s.cmd with e | i
  · rfl
  cases i with
  | nop => rfl
  | close => exact closeWrites_agenda s
  | init cipher mode dir ivsrc =>
    dsimp only
    rcases tagOf cipher with - | t
    · rfl
    · rw [State.scrubKeystage_agenda, State.finish_agenda, initWrites_agenda]
  | update len final =>
    dsimp only
    rcases s.session.cfg? with - | c
    · rfl
    · rw [State.finish_agenda, State.commit_agenda]

/-- No micro-step reads or changes what the outside world does next (log 1). -/
theorem microStep_agenda (P : Prim) (s : State) : (microStep P s).agenda = s.agenda := by
  unfold microStep
  split
  · exact seqSucceed_agenda s
  · exact seqFail_agenda s _
  all_goals rfl

/-- A turn of the sequencer always answers and keeps the agenda (R108, R115). -/
theorem exists_sequencerTurn_eq_next (s : State) : ∃ t, sequencerTurn exec s = .next t ∧ t.agenda = s.agenda := by
  unfold sequencerTurn
  split
  · refine ⟨_, completeWith_exec s, ?_⟩
    rcases decodeWord s.cmd with e | i
    · rfl
    · obtain ⟨-, -, -, -, -, -, -, -, -, hagenda⟩ := completion_frame Config.PRIM i s
      exact hagenda
  · exact ⟨s, rfl, rfl⟩

/-- Every event but that of a silent primitive answers and keeps the rest of the agenda (R112, R115; log 2). -/
theorem exists_eventStep_eq_next {e : Event} (he : e ≠ .primitiveSilent) (s : State) :
    ∃ t, eventStep Config.PRIM exec e s = .next t ∧ t.agenda = s.agenda := by
  cases e with
  | host a =>
    obtain ⟨-, -, -, -, -, -, -, -, -, hagenda⟩ := s.hostAccess_frame a
    exact ⟨_, rfl, hagenda⟩
  | sequencer =>
    refine ⟨_, rfl, ?_⟩
    split
    · exact microStep_agenda Config.PRIM s
    · rfl
  | complete => exact exists_sequencerTurn_eq_next s
  | reset asserted => exact ⟨_, rfl, rfl⟩
  | primitiveSilent => exact absurd rfl he

/-- While the primitive answers a step answers a next state, from which the primitive answers too. -/
theorem primitiveAnswers.exists_step_eq_next {s : State} (h : primitiveAnswers s) :
    ∃ t, step s = .next t ∧ primitiveAnswers t := by
  unfold primitiveAnswers step advance at *
  cases ha : s.agenda with
  | nil =>
    obtain ⟨t, ht, hagenda⟩ := exists_sequencerTurn_eq_next s
    exact ⟨t, ht, hagenda ▸ h⟩
  | cons e rest =>
    rw [ha] at h
    obtain ⟨t, ht, hagenda⟩ := exists_eventStep_eq_next (List.ne_of_not_mem_cons h).symm { s with agenda := rest }
    exact ⟨t, ht, hagenda ▸ List.not_mem_of_not_mem_cons h⟩

/-- Settles O58, by induction on the number of steps. -/
theorem noRunStopsWhileThePrimitiveAnswers : Obligations.NoRunStopsWhileThePrimitiveAnswers := by
  unfold Obligations.NoRunStopsWhileThePrimitiveAnswers
  intro s h k
  induction k generalizing s with
  | zero => exact ⟨s, rfl⟩
  | succ k ih =>
    obtain ⟨t, ht, hanswers⟩ := h.exists_step_eq_next
    rw [run_succ_of_step ht]
    exact ih t hanswers

end Sys2Proof.Machine
end

section
/-! PROOFS of the reset and hazards family (70_reset_and_hazards.md). Both outcomes of `INIT` end in the scrub of `KEYSTAGE` (O14).
In the reset state every byte of the window reads 0 (O54). While reset is asserted no access is taken and no command is in flight
(O55). -/

namespace Sys2Proof.Machine

/-! ### INIT and the staged key -/

/-- A successful `INIT` writes no array but `CV` before its scrub (R63). -/
theorem initWrites_firstBytes_ne (s : State) (c : Tag) (m : Mode) (d : Dir) (v : Bool) {a : Arr} (ha : Arr.cv ≠ a) {n : Nat}
    (hn : n ≤ a.size) : (initWrites s c m d v).firstBytes a n = s.firstBytes a n := by
  rw [State.firstBytes_of_mem (initWrites_mem s c m d v), State.firstBytes_setArr_ne _ _ _ _ _ ha hn]

/-- Every `INIT` leaves `KEYSTAGE` zero, whatever its outcome (R63, R128). -/
theorem completeInit_keystage (P : Prim) (cipher : Nat) (m : Mode) (d : Dir) (v : Bool) (s : State) :
    (completeInit P cipher m d v s).firstBytes .keystage 32 = zeros 32 :=
  State.firstBytes_clearArr _ .keystage 32 (by decide)

/-- Every `INIT` leaves `IVSTAGE` as it is, whatever its outcome (R128). -/
theorem completeInit_ivstage (P : Prim) (cipher : Nat) (m : Mode) (d : Dir) (v : Bool) (s : State) :
    (completeInit P cipher m d v s).firstBytes .ivstage 16 = s.firstBytes .ivstage 16 := by
  rcases completeInit_cases P cipher m d v s with ⟨e, -, h⟩ | ⟨c, -, h⟩ <;>
    rw [h, State.firstBytes_scrubKeystage_ne _ (by decide) (by decide), State.firstBytes_finish]
  exact initWrites_firstBytes_ne s c m d v (by decide) (by decide)

/-- Settles O14: both outcomes of `INIT` end in the scrub of `KEYSTAGE`, and no command writes `KEYLEN`. -/
theorem everyInitZeroesTheStagedKey : Obligations.EveryInitZeroesTheStagedKey := by
  unfold Obligations.EveryInitZeroesTheStagedKey
  intro s cipher mode dir ivsrc
  obtain ⟨-, -, -, -, -, -, hkeylen, -, -, -⟩ := completion_frame Config.PRIM (.init cipher mode dir ivsrc) s
  exact ⟨_, exec_eq _ s, completeInit_keystage _ cipher mode dir ivsrc s, hkeylen,
    completeInit_ivstage _ cipher mode dir ivsrc s⟩

/-! ### The reset state -/

/-- Every byte string of the reset memory is zero (R122). -/
theorem State.firstBytes_reset (a : Arr) (n : Nat) : State.reset.firstBytes a n = zeros n := by
  rw [State.firstBytes_eq_iff _ _ _ _ List.length_replicate]
  intro i hi
  rw [List.getD_replicate 0 hi]
  rfl

/-- Every word of the reset memory is zero (R122). -/
theorem packWord_reset (off : Nat) : packWord State.reset.mem off = 0 := by
  simp only [packWord, State.reset, Memory.read]
  decide

/-- Every place reads 0 in the reset state, but for the constant `ID` (R122, R23). -/
theorem State.readPlace_reset (p : Place) (off : Nat) :
    State.reset.readPlace p off = if p = .reg .id then Config.ID_VALUE else 0 := by
  cases p with
  | reg r => cases r <;> rfl
  | arr a =>
    cases a with
    | keystage => rfl
    | ivstage | cv | din | dout => exact packWord_reset off

/-- Settles O54: the memory is empty and every register but `ID` holds 0. -/
theorem resetStateReadsZero : Obligations.ResetStateReadsZero := by
  unfold Obligations.ResetStateReadsZero
  exact ⟨fun p off _ => State.readPlace_reset p off, fun a => State.firstBytes_reset a a.size, rfl, rfl, rfl, rfl, rfl⟩

/-! ### Reset asserted -/

/-- The step of a reset event leaves the reset state, whatever was in flight (R121; log 3). -/
theorem step_reset {s : State} {b : Bool} {rest : List Event} (ha : s.agenda = .reset b :: rest) :
    step s = .next { State.reset with rst := b, agenda := rest } := by
  simp only [step, advance, ha, eventStep, State.resetPin]

section
variable {s : State} (hrst : s.rst = true)
include hrst

theorem State.inFlight_of_rst : s.inFlight = false := by
  rw [State.inFlight, hrst, Bool.not_true, Bool.and_false]

theorem State.irq_of_rst_asserted : s.irq = false := by
  rw [State.irq, hrst, Bool.not_true, Bool.false_and]

theorem State.port_of_rst : s.port = none :=
  if_neg (by simp [State.inFlight_of_rst hrst])

/-- No access is taken while reset is asserted (R121). -/
theorem State.takenAt_of_rst (a : Access) (off : Nat) : s.takenAt a off = none :=
  if_neg (by simp [hrst])

theorem State.busAccess_of_rst (a : Access) (off : Nat) : s.busAccess a off = { s with reply := some ⟨true, 0⟩ } := by
  simp only [State.busAccess, State.takenAt_of_rst hrst]

end

/-- Settles O55: a reset event replaces the state, and while reset is asserted nothing is taken or in flight. -/
theorem resetAbandonsEverything : Obligations.ResetAbandonsEverything := by
  unfold Obligations.ResetAbandonsEverything
  exact ⟨fun s b rest => step_reset, fun s hrst => ⟨State.irq_of_rst_asserted hrst, State.port_of_rst hrst,
    State.busAccess_of_rst hrst, fun rest => step_of_not_inFlight (State.inFlight_of_rst hrst)⟩⟩

end Sys2Proof.Machine
end
